-- ==== Sys2Proof/Word.lean ====
section
/-! DEFINITION. The plainest value types of HUFFCORE (spec/00_scope.md R9): bytes, bits, bitstrings, Symbols. -/

namespace Sys2Proof

/-- "A byte is an unsigned integer 0 to 255"; bit 7 is the most significant (R9). -/
abbrev Byte := BitVec 8

/-- "A bit is 0 or 1" (R9): `false` is 0, `true` is 1. -/
abbrev Bit := Bool

/-- "A bitstring is a sequence of bits", element 0 the first bit produced and consumed (R9). -/
abbrev Bits := List Bit

/-- "A Symbol is an unsigned integer of SYM_W bits. Two Symbols are equal when the integers are equal" (R9).  Nothing ever
adds, shifts or masks one, so it is the number; that it is below 2^SYM_W is part of `State.wf` (log 6). -/
abbrev Symbol := Nat

end Sys2Proof
end

