-- ==== Sys2Proof/Syntax.lean ====
section
/-! DEFINITION. The command set of spec/30_encoding.md R81, one constructor per row of spec/opcode_table.json.  No command
has an operand field: its operands are the fixed buffers of R82 (Machine/Operands.lean). -/

namespace Sys2Proof

/-- The twelve commands of R81, in opcode order. -/
inductive Instr where
  | analyze | buildTree | deriveCodes | encode | pack | serialize
  | deserialize | unpack | decode | compress | decompress | clear
  deriving DecidableEq, Repr

/-- Every command, in opcode order. -/
def Instr.all : List Instr :=
  [.analyze, .buildTree, .deriveCodes, .encode, .pack, .serialize,
   .deserialize, .unpack, .decode, .compress, .decompress, .clear]

end Sys2Proof
end

