-- ==== Sys2Proof/Decode.lean ====
section
/-! DEFINITION. The command byte (spec/30_encoding.md R80, R81, R83, R84): decoder, encoder, and the host's view of both. -/

namespace Sys2Proof

/-- Why a byte is not a command.  R83: "The bytes 0x00 and 0x0D to 0xFF are not commands."  Issuing one is no stop: it ends
as IllegalCommand, a next state (`Machine.State.illegal`). -/
inductive DecodeError where
  | illegalCommand (b : Byte)
  deriving DecidableEq, Repr

/-- The command decoder, "total on the 256 byte values: twelve decode to commands, 244 to IllegalCommand" (R83). -/
def decode (b : Byte) : Except DecodeError Instr :=
  match b.toNat with
  | 0x01 => .ok .analyze
  | 0x02 => .ok .buildTree
  | 0x03 => .ok .deriveCodes
  | 0x04 => .ok .encode
  | 0x05 => .ok .pack
  | 0x06 => .ok .serialize
  | 0x07 => .ok .deserialize
  | 0x08 => .ok .unpack
  | 0x09 => .ok .decode
  | 0x0A => .ok .compress
  | 0x0B => .ok .decompress
  | 0x0C => .ok .clear
  | _ => .error (.illegalCommand b)

/-- The command's byte (R81). -/
def encode : Instr → Byte
  | .analyze => 0x01#8
  | .buildTree => 0x02#8
  | .deriveCodes => 0x03#8
  | .encode => 0x04#8
  | .pack => 0x05#8
  | .serialize => 0x06#8
  | .deserialize => 0x07#8
  | .unpack => 0x08#8
  | .decode => 0x09#8
  | .compress => 0x0A#8
  | .decompress => 0x0B#8
  | .clear => 0x0C#8

/-- The command's mnemonic: the name of the source's function in upper case (R81, R86). -/
def mnemonic : Instr → String
  | .analyze => "ANALYZE"
  | .buildTree => "BUILD_TREE"
  | .deriveCodes => "DERIVE_CODES"
  | .encode => "ENCODE"
  | .pack => "PACK"
  | .serialize => "SERIALIZE"
  | .deserialize => "DESERIALIZE"
  | .unpack => "UNPACK"
  | .decode => "DECODE"
  | .compress => "COMPRESS"
  | .decompress => "DECOMPRESS"
  | .clear => "CLEAR"

/-- What the decoder reads from an instruction of `nbits` bits whose bits are `w`.  "Every command is exactly one byte" (R84):
any other width is no command. -/
def decodeTableWord (nbits w : Nat) : Option Instr :=
  if nbits = 8 then (decode (BitVec.ofNat 8 w)).toOption else none

end Sys2Proof
end

