-- ==== Sys2Proof/Config.lean ====
section
/-! DEFINITION. The configuration record of spec/00_scope.md R6: its four independent parameters and the default.  The
capacities derived from them are in Machine/Capacity.lean.  The spec leaves no value open (R14 "no undefined value"), so
there is no opaque constant here. -/

namespace Sys2Proof

/-- The independent parameters of R6; every other row of its table is a function of these four. -/
structure Config where
  /-- SYM_W, width of a Symbol in bits. -/
  symW : Nat
  /-- N_MAX, most symbols TEXT or DTEXT holds. -/
  nMax : Nat
  /-- CNT_W, width of a frequency count. -/
  cntW : Nat
  /-- INFO_W, width of ERRINFO. -/
  infoW : Nat
  deriving DecidableEq, Repr

/-- R6's default column: SYM_W 8, N_MAX 65535, CNT_W 16, INFO_W 32.  `State.reset` is a block built with these
(DESIGN CHOICE, log 5); `State.resetWith c` is one built with the parameters `c`. -/
def Config.huffcore : Config := ⟨8, 65535, 16, 32⟩

end Sys2Proof
end

