-- ==== Sys2Proof/Machine/Data.lean ====
section
/-! DEFINITION. The values HUFFCORE's buffers hold (spec/10_state.md section 3), the failures a command can end in
(spec/60_exceptions.md R241), and the actions and replies of the host (spec/45_composite_and_system.md section 5). -/

namespace Sys2Proof.Machine

/-- The nine buffers, in the order of their ids 0 to 8 (R30). -/
inductive BufId where
  | text | freq | tree | code | bits | bytes | pad | blob | dtext
  deriving DecidableEq, Repr

/-- An entry `(sym, cnt)` of FREQ (R32). -/
structure FreqEntry where
  sym : Symbol
  cnt : Nat
  deriving DecidableEq, Repr

/-- An entry `(sym, code)` of CODE (R37). -/
structure CodeEntry where
  sym : Symbol
  code : Bits
  deriving DecidableEq, Repr

/-- A Tree (R9, R33), "a tagged union of Leaf/Internal" that owns its subtrees (R289), each node with the index its record has
in the arena (R34).  The arena is computed from it (`Tree.arena`), the Tree value of R33 is this tree without the indices. -/
inductive Tree where
  | leaf (idx : Nat) (sym : Symbol) (w : Nat)
  | node (idx : Nat) (w : Nat) (left right : Tree)
  deriving DecidableEq, Repr

/-- A record of the arena (R34): `left` and `right` are indices of records. -/
inductive NodeRec where
  | leaf (sym : Symbol) (w : Nat)
  | internal (w : Nat) (left right : Nat)
  deriving DecidableEq, Repr

/-- TREE_KIND (R36): 0 = BUILT by BUILD_TREE, 1 = RECON by DESERIALIZE. -/
inductive TreeKind where
  | built | recon
  deriving DecidableEq, Repr

/-- The nine failure kinds (R241), each with what its info value is made of. -/
inductive Failure where
  /-- ANALYZE on an empty TEXT (R242). -/
  | emptyInput
  /-- BUILD_TREE on an empty FREQ (R243). -/
  | emptyAlphabet
  /-- ENCODE: the first index of TEXT whose symbol has no entry (R244). -/
  | unknownSymbol (index : Nat)
  /-- DECODE: the bits ran out inside a codeword after that many symbols (R245). -/
  | truncatedStream (decoded : Nat)
  /-- UNPACK or SERIALIZE: the padding count (R246). -/
  | invalidPadding (pad : Byte)
  /-- DESERIALIZE: a byte offset in BLOB (R247, R183). -/
  | corruptContainer (offset : Nat)
  /-- DECODE or DESERIALIZE: a result larger than its buffer (R248). -/
  | capacityExceeded
  /-- A source buffer holds no value: the lowest such (R249). -/
  | operandNotReady (buffer : BufId)
  /-- The byte written to CMD is no command (R250). -/
  | illegalCommand (byte : Byte)
  deriving DecidableEq, Repr

/-- The unserialized container (R175): "packed bytes, the serialized TreeNode, the serialized CodeTable, the padding bit
count", in that order. -/
structure Container where
  bytes : List Byte
  tree : Tree
  codes : List CodeEntry
  pad : Byte
  deriving DecidableEq, Repr

/-- A buffer together with contents: the argument of a host load (R210) and the answer of a host read (R211).  TREE is read as
"the arena, ROOT, NODE_CNT and TREE_KIND"; NODE_CNT is the arena's length. -/
inductive BufVal where
  | text (v : List Symbol)
  | freq (v : List FreqEntry)
  | tree (arena : List NodeRec) (root : Nat) (kind : TreeKind)
  | code (v : List CodeEntry)
  | bits (v : Bits)
  | bytes (v : List Byte)
  | pad (v : Byte)
  | blob (v : List Byte)
  | dtext (v : List Symbol)
  deriving DecidableEq, Repr

/-- The registers a host can name (R23 to R29, R35, R36, R212). -/
inductive RegId where
  | cmd | status | errinfo | valid | root | nodeCnt | treeKind | pad
  | textLen | freqK | codeK | bitsLen | bytesLen | blobLen | dtextLen
  deriving DecidableEq, Repr

/-- What a host read delivers. -/
inductive Reply where
  /-- The whole contents of a buffer (R211). -/
  | buffer (v : BufVal)
  /-- The number a register reads (R212). -/
  | register (r : RegId) (n : Nat)
  deriving DecidableEq, Repr

/-- What can happen to the block from outside, one action a step: "a host load, a host read, a register read, a command, a
reset" (R213). -/
inductive HostAction where
  /-- `HLOAD X v` (R210). -/
  | load (v : BufVal)
  /-- `HREAD X` (R211). -/
  | read (b : BufId)
  /-- A register read (R212). -/
  | readReg (r : RegId)
  /-- "The host issues a command by writing its byte to CMD" (R213). -/
  | issue (b : Byte)
  /-- `RESET` (R270). -/
  | reset
  deriving DecidableEq, Repr

end Sys2Proof.Machine
end

