-- ==== Sys2Proof/Machine/Capacity.lean ====
section
/-! DEFINITION. The parameters derived from the configuration (spec/00_scope.md R6) and the checks that a value is "a value of
X's type within X's capacity" (spec/45_composite_and_system.md R210). -/

namespace Sys2Proof

/-- SYMB = ceil(SYM_W / 8), bytes a Symbol takes in the container (R6). -/
def Config.symb (c : Config) : Nat := (c.symW + 7) / 8

/-- K_MAX = 2^SYM_W, most entries FREQ holds (R6). -/
def Config.kMax (c : Config) : Nat := 2 ^ c.symW

/-- W_W = CNT_W + SYM_W, width of a node weight (R6). -/
def Config.weightW (c : Config) : Nat := c.cntW + c.symW

/-- NODE_MAX = 2·K_MAX − 1, most nodes TREE holds (R6). -/
def Config.nodeMax (c : Config) : Nat := 2 * c.kMax - 1

/-- CODE_MAX = K_MAX, most entries CODE holds (R6). -/
def Config.codeMax (c : Config) : Nat := c.kMax

/-- CODELEN_MAX = K_MAX − 1, most bits in one code (R6). -/
def Config.codelenMax (c : Config) : Nat := c.kMax - 1

/-- BYTES_MAX = ceil(N_MAX · CODELEN_MAX / 8) (R6). -/
def Config.bytesMax (c : Config) : Nat := (c.nMax * c.codelenMax + 7) / 8

/-- BITS_MAX = 8 · BYTES_MAX (R6). -/
def Config.bitsMax (c : Config) : Nat := 8 * c.bytesMax

/-- BLOB_MAX (R6): the largest blob the other capacities allow. -/
def Config.blobMax (c : Config) : Nat :=
  1 + 4 + c.bytesMax + (c.kMax * (1 + c.symb) + c.kMax - 1)
    + (2 + c.codeMax * (c.symb + 2 + (c.codelenMax + 7) / 8)) + 1

/-- A bound of every info value (R241).  The constraints of R6 keep an index of TEXT and an offset in BLOB below 2^INFO_W, and say
nothing of a byte (R246, R250) or of the number of symbols a TruncatedStream has decoded (R245), which no rule truncates (R7, log 6).
With the default parameters it is 2^INFO_W. -/
def Config.infoBound (c : Config) : Nat := max (2 ^ c.infoW) (max 256 (c.bitsMax + 1))

/-- The constraint column of R6. -/
def Config.legal (c : Config) : Bool :=
  decide (1 ≤ c.symW) && decide (c.symW ≤ 32)
    && decide (1 ≤ c.nMax) && decide (c.nMax < 2 ^ 32)
    && decide (c.nMax < 2 ^ c.cntW)
    && decide (c.codeMax < 2 ^ 16) && decide (c.codelenMax < 2 ^ 16)
    && decide (c.bytesMax < 2 ^ 32)
    && decide (c.blobMax < 2 ^ c.infoW) && decide (c.nMax < 2 ^ c.infoW)

namespace Machine

/-- A Symbol of SYM_W bits (R9). -/
def fitsSymbol (c : Config) (s : Symbol) : Bool := decide (s < 2 ^ c.symW)

/-- "At most N_MAX symbols each below 2^SYM_W" (R210, R31, R41). -/
def fitsText (c : Config) (t : List Symbol) : Bool :=
  decide (t.length ≤ c.nMax) && t.all (fitsSymbol c)

/-- "At most K_MAX entries with counts below 2^CNT_W" (R210, R32). -/
def fitsFreq (c : Config) (f : List FreqEntry) : Bool :=
  decide (f.length ≤ c.kMax) && f.all fun e => fitsSymbol c e.sym && decide (e.cnt < 2 ^ c.cntW)

/-- "At most CODE_MAX entries with codes of at most CODELEN_MAX bits" (R210, R37). -/
def fitsCode (c : Config) (t : List CodeEntry) : Bool :=
  decide (t.length ≤ c.codeMax) && t.all fun e => fitsSymbol c e.sym && decide (e.code.length ≤ c.codelenMax)

/-- "At most BITS_MAX bits" (R210, R38). -/
def fitsBits (c : Config) (b : Bits) : Bool := decide (b.length ≤ c.bitsMax)

/-- "At most BYTES_MAX bytes" (R210, R39). -/
def fitsBytes (c : Config) (b : List Byte) : Bool := decide (b.length ≤ c.bytesMax)

/-- "At most BLOB_MAX bytes" (R210, R40). -/
def fitsBlob (c : Config) (b : List Byte) : Bool := decide (b.length ≤ c.blobMax)

end Machine

end Sys2Proof
end

