-- ==== Sys2Proof/Machine/State.lean ====
section
/-! DEFINITION. The state of HUFFCORE (spec/10_state.md R20 to R46) as plain data, its value after reset, and the names of the
reasons a step can stop. -/

namespace Sys2Proof.Machine

/-- The architectural state (R20), the parameters the block was built with (R6), and two fields of the model's own.

"A model holds each buffer as none, or a value" (R25): `none` is a buffer whose VALID bit is 0.  VALID (R24), ROOT and
NODE_CNT (R35) and the length registers (R28) are computed from the buffers (Machine/Flags.lean, log 3); CMD is a port and
holds nothing (R27). -/
structure State where
  /-- The configuration record of R6, "A model takes them as one configuration record": nothing ever changes it (log 5). -/
  config : Config
  /-- TEXT, buffer 0 (R31). -/
  text : Option (List Symbol)
  /-- FREQ, buffer 1 (R32). -/
  freq : Option (List FreqEntry)
  /-- TREE, buffer 2 (R33, R34). -/
  tree : Option Tree
  /-- CODE, buffer 3 (R37). -/
  code : Option (List CodeEntry)
  /-- BITS, buffer 4 (R38). -/
  bits : Option Bits
  /-- BYTES, buffer 5 (R39). -/
  bytes : Option (List Byte)
  /-- PAD, buffer 6, eight bits wide (R29). -/
  pad : Option Byte
  /-- BLOB, buffer 7 (R40). -/
  blob : Option (List Byte)
  /-- DTEXT, buffer 8 (R41). -/
  dtext : Option (List Symbol)
  /-- TREE_KIND (R36). -/
  treeKind : TreeKind
  /-- STATUS, CR1, four bits (R23). -/
  status : BitVec 4
  /-- ERRINFO, CR2 (R26), as the number it holds; `State.wf` keeps it below its bound, 2^INFO_W at the default
  parameters (log 6). -/
  errinfo : Nat
  /-- THE MODEL'S OWN (log 1): the host's actions still to come, oldest first; a step performs the first. -/
  host : List HostAction
  /-- THE MODEL'S OWN (log 2): what the host's last read delivered.  No command and no other action reads it. -/
  reply : Option Reply
  deriving DecidableEq, Repr

/-- The reasons a step could stop with a fault.  There is none: "There is no stuck state, no hang" (00_scope R14) and "every
failure is a normal, recoverable return to the caller" (R240), so every failure kind of R241 is a next state. -/
inductive Fault where
  deriving DecidableEq, Repr

/-- The reasons a step gives no transition.  Apart from the first, each is a thing "not an action the host has: a model gives it
no transition" (R210, R211); no command is ever refused. -/
inductive Refusal where
  /-- Raised by `exec` alone, for an instruction that has no meaning yet; safe.  No arm raises it now. -/
  | notModelled (mnemonic : String)
  /-- Raised by a host load of TREE or DTEXT, which the host cannot write (R43, R210); safe. -/
  | loadClosed (b : BufId)
  /-- Raised by a host load of a value outside the buffer's capacity (R210); safe. -/
  | loadTooLarge (b : BufId)
  /-- Raised by a host read of an invalid buffer: "there is no value to return" (R211); safe. -/
  | readInvalid (b : BufId)
  /-- Raised by a host read of CMD, which is write-only and has "no read value" (R27, R43); safe. -/
  | readCmd
  deriving DecidableEq, Repr

/-- A block built with the parameters `c`, right after reset (R45): all nine buffers without a value, TREE_KIND, STATUS and ERRINFO
0.  The model's own fields are empty: no host action waits and nothing has been read (DESIGN CHOICE, log 1, log 2). -/
def State.resetWith (c : Config) : State where
  config := c
  text := none
  freq := none
  tree := none
  code := none
  bits := none
  bytes := none
  pad := none
  blob := none
  dtext := none
  treeKind := .built
  status := 0#4
  errinfo := 0
  host := []
  reply := none

/-- The machine right after reset: a block with the default parameters of R6 (DESIGN CHOICE, log 5). -/
def State.reset : State := State.resetWith Config.huffcore

end Sys2Proof.Machine
end

