-- ==== Sys2Proof/Machine/Operands.lean ====
section
/-! DEFINITION. The fixed operands of every command (spec/30_encoding.md R82): "Every command reads the buffers in its source
column and writes the buffers in its destination column, and no others." -/

namespace Sys2Proof.Machine

/-- The buffer ids 0 to 8 (R30). -/
def BufId.id : BufId → Nat
  | .text => 0 | .freq => 1 | .tree => 2 | .code => 3 | .bits => 4
  | .bytes => 5 | .pad => 6 | .blob => 7 | .dtext => 8

/-- The nine buffers, by id (R30). -/
def BufId.all : List BufId := [.text, .freq, .tree, .code, .bits, .bytes, .pad, .blob, .dtext]

/-- The source column of R82, lowest buffer id first: the order in which R249 looks at them. -/
def sources : Instr → List BufId
  | .analyze => [.text]
  | .buildTree => [.freq]
  | .deriveCodes => [.tree]
  | .encode => [.text, .code]
  | .pack => [.bits]
  | .serialize => [.tree, .code, .bytes, .pad]
  | .deserialize => [.blob]
  | .unpack => [.bytes, .pad]
  | .decode => [.tree, .bits]
  | .compress => [.text]
  | .decompress => [.blob]
  | .clear => []

/-- The destination column of R82. -/
def destinations : Instr → List BufId
  | .analyze => [.freq]
  | .buildTree => [.tree]
  | .deriveCodes => [.code]
  | .encode => [.bits]
  | .pack => [.bytes, .pad]
  | .serialize => [.blob]
  | .deserialize => [.bytes, .tree, .code, .pad]
  | .unpack => [.bits]
  | .decode => [.dtext]
  | .compress => [.freq, .tree, .code, .bits, .bytes, .pad, .blob]
  | .decompress => [.bytes, .tree, .code, .pad, .bits, .dtext]
  | .clear => BufId.all

/-- Whether a buffer holds a value: its VALID bit (R24, R25). -/
def State.isValid (s : State) : BufId → Bool
  | .text => s.text.isSome
  | .freq => s.freq.isSome
  | .tree => s.tree.isSome
  | .code => s.code.isSome
  | .bits => s.bits.isSome
  | .bytes => s.bytes.isSome
  | .pad => s.pad.isSome
  | .blob => s.blob.isSome
  | .dtext => s.dtext.isSome

end Sys2Proof.Machine
end

