-- ==== Sys2Proof/Machine/Flags.lean ====
section
/-! DEFINITION. The only flag-like state (spec/10_state.md R46): the STATUS codes and ERRINFO values of
spec/60_exceptions.md R241, the VALID register (R24) and the bit of TREE_KIND (R36). -/

namespace Sys2Proof.Machine

/-- The STATUS column of R241; 0 is OK. -/
def Failure.code : Failure → BitVec 4
  | .emptyInput => 1#4
  | .emptyAlphabet => 2#4
  | .unknownSymbol _ => 3#4
  | .truncatedStream _ => 4#4
  | .invalidPadding _ => 5#4
  | .corruptContainer _ => 6#4
  | .capacityExceeded => 7#4
  | .operandNotReady _ => 8#4
  | .illegalCommand _ => 9#4

/-- The ERRINFO column of R241. -/
def Failure.info : Failure → Nat
  | .emptyInput => 0
  | .emptyAlphabet => 0
  | .unknownSymbol i => i
  | .truncatedStream n => n
  | .invalidPadding p => p.toNat
  | .corruptContainer off => off
  | .capacityExceeded => 0
  | .operandNotReady b => b.id
  | .illegalCommand b => b.toNat

/-- TREE_KIND as the bit it reads (R36): 0 = BUILT, 1 = RECON. -/
def TreeKind.bit : TreeKind → Nat
  | .built => 0
  | .recon => 1

/-- The VALID register, nine bits, bit i the buffer with id i (R24). -/
def State.validReg (s : State) : BitVec 9 :=
  BitVec.ofNat 9
    (s.text.isSome.toNat + 2 * s.freq.isSome.toNat + 4 * s.tree.isSome.toNat + 8 * s.code.isSome.toNat
      + 16 * s.bits.isSome.toNat + 32 * s.bytes.isSome.toNat + 64 * s.pad.isSome.toNat
      + 128 * s.blob.isSome.toNat + 256 * s.dtext.isSome.toNat)

end Sys2Proof.Machine
end

