-- ==== Sys2Proof/Machine/Ops.lean ====
section
/-! DEFINITION. The operations every command shares: the primitives of spec/00_scope.md R10, the tree's views
(spec/10_state.md R33 to R35), and the two ends of a command, failure (spec/60_exceptions.md R251) and success (R252).

There is no return from a failure: "There is nothing to return from. After a failure the block is idle exactly as after a
success" (R254); the host's next action is the next step. -/

namespace Sys2Proof.Machine

/-! ### Numbers, bytes and bits (R10) -/

/-- `MemRead(X, i, n)`: "the n elements X[i : i+n]" (R10, R61). -/
def memRead {α : Type} (x : List α) (i n : Nat) : List α := (x.drop i).take n

/-- `be_N(v)`: "the N-byte big-endian form of the unsigned integer v" (R10, R64).  Of a number that does not fit N bytes the
low N bytes; no run reaches one (log 12). -/
def beN : Nat → Nat → List Byte
  | 0, _ => []
  | n + 1, v => BitVec.ofNat 8 (v / 256 ^ n) :: beN n v

/-- `from_be(s)`, the inverse of `be_N` (R10). -/
def fromBe (s : List Byte) : Nat := s.foldl (fun acc b => 256 * acc + b.toNat) 0

/-- `bits8(b) = [b[7], b[6], ..., b[0]]` (R10, R63). -/
def bits8 (b : Byte) : Bits :=
  [b.getLsbD 7, b.getLsbD 6, b.getLsbD 5, b.getLsbD 4, b.getLsbD 3, b.getLsbD 2, b.getLsbD 1, b.getLsbD 0]

/-- The number a bitstring writes, its first bit the heaviest. -/
def bitsToNat (s : Bits) : Nat := s.foldl (fun acc b => 2 * acc + b.toNat) 0

/-- `byte_of(s) = s[0]·128 + s[1]·64 + ... + s[7]·1` on an 8-bit bitstring (R10, R63). -/
def byteOf (s : Bits) : Byte := BitVec.ofNat 8 (bitsToNat s)

/-! ### Trees (R33 to R36) -/

/-- The index of a tree's root record in the arena. -/
def Tree.idx : Tree → Nat
  | .leaf i _ _ => i
  | .node i _ _ _ => i

/-- `w(t)`, "the weight of either variant" (R9). -/
def Tree.weight : Tree → Nat
  | .leaf _ _ w => w
  | .node _ w _ _ => w

/-- The number of nodes, NODE_CNT of a valid TREE (R35). -/
def Tree.size : Tree → Nat
  | .leaf _ _ _ => 1
  | .node _ _ l r => 1 + l.size + r.size

/-- The records of a tree with their indices, root first, left before right. -/
def Tree.records : Tree → List (Nat × NodeRec)
  | .leaf i s w => [(i, .leaf s w)]
  | .node i w l r => (i, .internal w l.idx r.idx) :: (l.records ++ r.records)

/-- TREE as storage: the records by index, 0 to NODE_CNT − 1 (R34). -/
def Tree.arena (t : Tree) : List NodeRec := (List.range t.size).filterMap fun i => t.records.lookup i

/-- `tree_of(i)` of R34 read from an arena, with fuel for its depth; `none` where the records form no tree. -/
def treeOf (arena : List NodeRec) : Nat → Nat → Option Tree
  | 0, _ => none
  | fuel + 1, i =>
    match arena[i]? with
    | none => none
    | some (.leaf s w) => some (.leaf i s w)
    | some (.internal w l r) =>
      match treeOf arena fuel l, treeOf arena fuel r with
      | some tl, some tr => some (.node i w tl tr)
      | _, _ => none

/-- NODE_CNT, "the number of node records"; reads 0 when TREE is invalid (R28, R35). -/
def State.nodeCnt (s : State) : Nat := s.tree.elim 0 Tree.size

/-- ROOT, "the index of the root record"; reads 0 when TREE is invalid (R35). -/
def State.root (s : State) : Nat := s.tree.elim 0 Tree.idx

/-! ### The ends of a command -/

/-- `valid(X) <- 0`: the buffer loses its value (R24, R25). -/
def State.invalidate (s : State) : BufId → State
  | .text => { s with text := none }
  | .freq => { s with freq := none }
  | .tree => { s with tree := none }
  | .code => { s with code := none }
  | .bits => { s with bits := none }
  | .bytes => { s with bytes := none }
  | .pad => { s with pad := none }
  | .blob => { s with blob := none }
  | .dtext => { s with dtext := none }

/-- `valid(X) <- 0` for each of several buffers. -/
def State.invalidateAll (s : State) (ds : List BufId) : State := ds.foldl State.invalidate s

/-- Taking a failure, the one operation of R251: every destination becomes invalid; if TREE is among them TREE_KIND becomes 0
(NODE_CNT and ROOT read 0 with the tree gone, R35); STATUS and ERRINFO are written; "and nothing else changes". -/
def State.failWith (ds : List BufId) (f : Failure) (s : State) : State :=
  let t := s.invalidateAll ds
  { t with
    treeKind := if BufId.tree ∈ ds then .built else t.treeKind
    status := f.code
    errinfo := f.info }

/-- A command ends in a failure (R251). -/
def State.fail (i : Instr) (f : Failure) (s : State) : State := s.failWith (destinations i) f

/-- A command ends in success, its destinations already written: STATUS and ERRINFO become 0, nothing else changes (R252). -/
def State.succeed (s : State) : State := { s with status := 0#4, errinfo := 0 }

/-- IllegalCommand (R83, R250): "No buffer, no VALID bit and no tree register changes." -/
def State.illegal (b : Byte) (s : State) : State := s.failWith [] (.illegalCommand b)

/-- The steps of a composite command in order: "if X failed: stop; STATUS and ERRINFO stay as X left them" (R201, R204). -/
def runSteps : List (State → State) → State → State
  | [], s => s
  | x :: xs, s => let t := x s; if t.status = 0#4 then runSteps xs t else t

/-- The effect of a reset (R270), on the block alone: its parameters, what the host is about to do and what it has read stay. -/
def State.resetBlock (s : State) : State := { State.resetWith s.config with host := s.host, reply := s.reply }

end Sys2Proof.Machine
end

