-- ==== Sys2Proof/Machine/HostPort.lean ====
section
/-! DEFINITION. The host's actions other than issuing a command (spec/45_composite_and_system.md R210 to R212), and reset
(spec/70_reset_and_hazards.md R270).  A load or read that "is not an action the host has" gets no transition: a refusal of its
own name (log 8). -/

namespace Sys2Proof.Machine

/-- `HLOAD X v` (R210): "X <- v, valid(X) <- 1, nothing else changes", for a value within X's capacity and an X the host may
write (R43). -/
def hostLoad (c : Config) (v : BufVal) (s : State) : Host.Outcome State Fault Refusal :=
  match v with
  | .text t => if fitsText c t then .next { s with text := some t } else .refused (.loadTooLarge .text)
  | .freq f => if fitsFreq c f then .next { s with freq := some f } else .refused (.loadTooLarge .freq)
  | .tree _ _ _ => .refused (.loadClosed .tree)
  | .code t => if fitsCode c t then .next { s with code := some t } else .refused (.loadTooLarge .code)
  | .bits b => if fitsBits c b then .next { s with bits := some b } else .refused (.loadTooLarge .bits)
  | .bytes b => if fitsBytes c b then .next { s with bytes := some b } else .refused (.loadTooLarge .bytes)
  | .pad p => .next { s with pad := some p }
  | .blob z => if fitsBlob c z then .next { s with blob := some z } else .refused (.loadTooLarge .blob)
  | .dtext _ => .refused (.loadClosed .dtext)

/-- The whole contents of a buffer, if it holds a value (R211). -/
def State.bufRead (s : State) : BufId → Option BufVal
  | .text => s.text.map .text
  | .freq => s.freq.map .freq
  | .tree => s.tree.map fun t => .tree t.arena t.idx s.treeKind
  | .code => s.code.map .code
  | .bits => s.bits.map .bits
  | .bytes => s.bytes.map .bytes
  | .pad => s.pad.map .pad
  | .blob => s.blob.map .blob
  | .dtext => s.dtext.map .dtext

/-- `HREAD X` (R211): a valid buffer's contents go to the host and nothing of the block changes. -/
def hostRead (b : BufId) (s : State) : Host.Outcome State Fault Refusal :=
  match s.bufRead b with
  | none => .refused (.readInvalid b)
  | some v => .next { s with reply := some (.buffer v) }

/-- What a register reads (R23, R24, R26, R28, R29, R35, R36); CMD has no read value (R27).  A length register is `len` of a valid
buffer and 0 of an invalid one; PAD reads 0 when it is invalid (log 11). -/
def State.regRead (s : State) : RegId → Option Nat
  | .cmd => none
  | .status => some s.status.toNat
  | .errinfo => some s.errinfo
  | .valid => some s.validReg.toNat
  | .root => some s.root
  | .nodeCnt => some s.nodeCnt
  | .treeKind => some s.treeKind.bit
  | .pad => some (s.pad.elim 0 BitVec.toNat)
  | .textLen => some (s.text.elim 0 List.length)
  | .freqK => some (s.freq.elim 0 List.length)
  | .codeK => some (s.code.elim 0 List.length)
  | .bitsLen => some (s.bits.elim 0 List.length)
  | .bytesLen => some (s.bytes.elim 0 List.length)
  | .blobLen => some (s.blob.elim 0 List.length)
  | .dtextLen => some (s.dtext.elim 0 List.length)

/-- A register read (R212): "A read changes nothing." -/
def hostReadReg (r : RegId) (s : State) : Host.Outcome State Fault Refusal :=
  match s.regRead r with
  | none => .refused .readCmd
  | some n => .next { s with reply := some (.register r n) }

/-- RESET (R270). -/
def hostReset (s : State) : Host.Outcome State Fault Refusal := .next s.resetBlock

/-- A byte written to CMD that is no command (R250). -/
def hostIllegal (b : Byte) (s : State) : Host.Outcome State Fault Refusal := .next (s.illegal b)

/-- No host action: "Between commands the block is idle and holds its state" (R261). -/
def hostIdle (s : State) : Host.Outcome State Fault Refusal := .next s

/-- The encoding of a program: "the sequence of bytes written to CMD, one per command line; directives encode to nothing because
they are not commands" (R85).  A program is what the host does, in order. -/
def programBytes : List HostAction → List Byte
  | [] => []
  | .issue b :: rest => b :: programBytes rest
  | .load _ :: rest => programBytes rest
  | .read _ :: rest => programBytes rest
  | .readReg _ :: rest => programBytes rest
  | .reset :: rest => programBytes rest

/-- The host's next action put before the others: what `withFetchWord` needs, the block having no fetch (log 1). -/
def State.withAction (s : State) (a : HostAction) : State := { s with host := a :: s.host }

end Sys2Proof.Machine
end

