-- ==== Sys2Proof/Machine/Analyzer.lean ====
section
/-! DEFINITION. FrequencyAnalyzer: the ANALYZE command (spec/40_frequency_analyzer.md). -/

namespace Sys2Proof.Machine

/-- One symbol counted: the entry that has it counts one more, "new entry goes last" otherwise (R111). -/
def countSymbol (s : Symbol) : List FreqEntry → List FreqEntry
  | [] => [⟨s, 1⟩]
  | e :: f => if e.sym = s then ⟨e.sym, e.cnt + 1⟩ :: f else e :: countSymbol s f

/-- The loop of R111, in text order from a fresh, empty table. -/
def frequencies (t : List Symbol) : List FreqEntry := t.foldl (fun f s => countSymbol s f) []

/-- ANALYZE's function: the table, or EmptyInput on an empty text (R111, R112). -/
def analyzeText (t : List Symbol) : Except Failure (List FreqEntry) :=
  if t.length = 0 then .error .emptyInput else .ok (frequencies t)

/-- ANALYZE on the state (R111). -/
def State.analyze (s : State) : State :=
  match s.text with
  | none => s.fail .analyze (.operandNotReady .text)
  | some t =>
    match analyzeText t with
    | .error f => s.fail .analyze f
    | .ok f => { s with freq := some f }.succeed

/-- ANALYZE (R111). -/
def execAnalyze (s : State) : Host.Outcome State Fault Refusal := .next s.analyze

end Sys2Proof.Machine
end

