-- ==== Sys2Proof/Machine/CodeTable.lean ====
section
/-! DEFINITION. CodeTable: the DERIVE_CODES, ENCODE and DECODE commands (spec/42_code_table.md). -/

namespace Sys2Proof.Machine

/-! ### DERIVE_CODES -/

/-- `visit(node, path)` of R137: left before right, 0 for the left edge and 1 for the right (R87). -/
def Tree.visit : Tree → Bits → List CodeEntry
  | .leaf _ s _, path => [⟨s, path⟩]
  | .node _ _ l r, path => l.visit (path ++ [false]) ++ r.visit (path ++ [true])

/-- DERIVE_CODES' function (R137): a fresh table (R138); the lone symbol of a single leaf gets the code "0" (R139). -/
def codesOf : Tree → List CodeEntry
  | .leaf _ s _ => [⟨s, [false]⟩]
  | .node i w l r => (Tree.node i w l r).visit []

/-- DERIVE_CODES on the state (R137). -/
def State.deriveCodes (s : State) : State :=
  match s.tree with
  | none => s.fail .deriveCodes (.operandNotReady .tree)
  | some t => { s with code := some (codesOf t) }.succeed

/-- DERIVE_CODES (R137). -/
def execDeriveCodes (s : State) : Host.Outcome State Fault Refusal := .next s.deriveCodes

/-! ### ENCODE -/

/-- The code of the first entry that has the symbol (R143). -/
def codeFor (table : List CodeEntry) (s : Symbol) : Option Bits := (table.find? fun e => e.sym == s).map CodeEntry.code

/-- The loop of R142 from text index `i` on: the codes concatenated in text order, or UnknownSymbol at the first miss (R145). -/
def encodeFrom (table : List CodeEntry) : Nat → List Symbol → Except Failure Bits
  | _, [] => .ok []
  | i, s :: rest =>
    match codeFor table s with
    | none => .error (.unknownSymbol i)
    | some c =>
      match encodeFrom table (i + 1) rest with
      | .error f => .error f
      | .ok b => .ok (c ++ b)

/-- ENCODE on the state (R142). -/
def State.encode (s : State) : State :=
  match s.text, s.code with
  | none, _ => s.fail .encode (.operandNotReady .text)
  | some _, none => s.fail .encode (.operandNotReady .code)
  | some t, some table =>
    match encodeFrom table 0 t with
    | .error f => s.fail .encode f
    | .ok b => { s with bits := some b }.succeed

/-- ENCODE (R142). -/
def execEncode (s : State) : Host.Outcome State Fault Refusal := .next s.encode

/-! ### DECODE -/

/-- The walk of R148, a loop with one cursor (R152).  `rl`, `rr` are the root's children; the cursor is the internal node with
children `l`, `r`; `mid` says that it has left the root.  At the end of the bits `mid` is TruncatedStream (R149). -/
def walk (rl rr : Tree) : Tree → Tree → Bool → Bits → List Symbol → Except Failure (List Symbol)
  | _, _, mid, [], out => if mid then .error (.truncatedStream out.length) else .ok out
  | l, r, _, b :: bits, out =>
    match (if b then r else l) with
    | .leaf _ s _ => walk rl rr rl rr false bits (out ++ [s])
    | .node _ _ l' r' => walk rl rr l' r' true bits out

/-- The decoding of a bitstring, before the capacity check (R148): with a single leaf every bit is that symbol, whatever its
value (R150). -/
def decodeBits : Tree → Bits → Except Failure (List Symbol)
  | .leaf _ s _, bits => .ok (List.replicate bits.length s)
  | .node _ _ l r, bits => walk l r l r false bits []

/-- DECODE's function (R148): "A TruncatedStream takes precedence" over CapacityExceeded (R151). -/
def decodeText (c : Config) (t : Tree) (bits : Bits) : Except Failure (List Symbol) :=
  match decodeBits t bits with
  | .error f => .error f
  | .ok out => if c.nMax < out.length then .error .capacityExceeded else .ok out

/-- DECODE on the state (R148). -/
def State.decode (c : Config) (s : State) : State :=
  match s.tree, s.bits with
  | none, _ => s.fail .decode (.operandNotReady .tree)
  | some _, none => s.fail .decode (.operandNotReady .bits)
  | some t, some b =>
    match decodeText c t b with
    | .error f => s.fail .decode f
    | .ok out => { s with dtext := some out }.succeed

/-- DECODE (R148). -/
def execDecode (s : State) : Host.Outcome State Fault Refusal := .next (s.decode s.config)

end Sys2Proof.Machine
end

