-- ==== Sys2Proof/Machine/BitPacker.lean ====
section
/-! DEFINITION. BitPacker, padder and bit-shifter: the PACK and UNPACK commands (spec/43_bit_packer.md). -/

namespace Sys2Proof.Machine

/-- `padding_count = (8 - len(bitstring) mod 8) mod 8` (R160). -/
def padCount (len : Nat) : Nat := (8 - len % 8) % 8

/-- The first `m` groups of eight bits, each as a byte (R161). -/
def groupBytes : Nat → Bits → List Byte
  | 0, _ => []
  | m + 1, x => byteOf (x.take 8) :: groupBytes m (x.drop 8)

/-- PACK's bytes (R161): the padding goes "at the front". -/
def packBits (b : Bits) : List Byte :=
  groupBytes ((b.length + padCount b.length) / 8) (List.replicate (padCount b.length) false ++ b)

/-- Every byte expanded, in order (R165). -/
def unpackBytes (bs : List Byte) : Bits := bs.flatMap bits8

/-- UNPACK's function (R166, R167): "drop exactly padding_count bits from the front", dropped unseen (R168). -/
def unpackBits (bs : List Byte) (p : Byte) : Except Failure Bits :=
  if 7 < p.toNat then .error (.invalidPadding p)
  else if 8 * bs.length < p.toNat then .error (.invalidPadding p)
  else .ok ((unpackBytes bs).drop p.toNat)

/-- PACK on the state (R161): PAD is always written together with BYTES (R162). -/
def State.pack (s : State) : State :=
  match s.bits with
  | none => s.fail .pack (.operandNotReady .bits)
  | some b => { s with bytes := some (packBits b), pad := some (BitVec.ofNat 8 (padCount b.length)) }.succeed

/-- PACK (R161). -/
def execPack (s : State) : Host.Outcome State Fault Refusal := .next s.pack

/-- UNPACK on the state (R166). -/
def State.unpack (s : State) : State :=
  match s.bytes, s.pad with
  | none, _ => s.fail .unpack (.operandNotReady .bytes)
  | some _, none => s.fail .unpack (.operandNotReady .pad)
  | some bs, some p =>
    match unpackBits bs p with
    | .error f => s.fail .unpack f
    | .ok b => { s with bits := some b }.succeed

/-- UNPACK (R166). -/
def execUnpack (s : State) : Host.Outcome State Fault Refusal := .next s.unpack

end Sys2Proof.Machine
end

