-- ==== Sys2Proof/Machine/Container.lean ====
section
/-! DEFINITION. BitPacker serializer and tree reconstructor: the SERIALIZE and DESERIALIZE commands (spec/44_container.md) over
the wire format of spec/30_encoding.md R88 to R97. -/

namespace Sys2Proof.Machine

/-! ### Writing the wire format -/

/-- `sym_bytes(sym) = be_SYMB(zext(sym))` (R93). -/
def symBytes (c : Config) (s : Symbol) : List Byte := beN c.symb s

/-- The record of a tree (R91, R92): 0x01 and the symbol for a Leaf; 0x00 and the two child records, left then right, for an
Internal; weights are not written. -/
def Tree.wire (c : Config) : Tree → List Byte
  | .leaf _ s _ => 0x01#8 :: symBytes c s
  | .node _ _ l r => 0x00#8 :: (l.wire c ++ r.wire c)

/-- `entry(sym, code)` (R95): the symbol, the 2-byte bit length, and the bytes PACK gives for the code. -/
def entryWire (c : Config) (e : CodeEntry) : List Byte :=
  symBytes c e.sym ++ beN 2 e.code.length ++ packBits e.code

/-- The blob of a container (R88, R177): ARITY 0x04, the packed bytes behind their length, the tree, the code table behind its
count, the padding count. -/
def Container.wire (c : Config) (k : Container) : List Byte :=
  [0x04#8] ++ beN 4 k.bytes.length ++ k.bytes ++ k.tree.wire c
    ++ beN 2 k.codes.length ++ k.codes.flatMap (entryWire c) ++ [k.pad]

/-- SERIALIZE's function: the blob, or InvalidPadding when PAD "has no serialized form" (R177, R178). -/
def serializeContainer (c : Config) (k : Container) : Except Failure (List Byte) :=
  if 7 < k.pad.toNat then .error (.invalidPadding k.pad) else .ok (k.wire c)

/-- SERIALIZE on the state (R177): the lowest invalid source id first, 2, 3, 5, 6. -/
def State.serialize (c : Config) (s : State) : State :=
  match s.tree, s.code, s.bytes, s.pad with
  | none, _, _, _ => s.fail .serialize (.operandNotReady .tree)
  | some _, none, _, _ => s.fail .serialize (.operandNotReady .code)
  | some _, some _, none, _ => s.fail .serialize (.operandNotReady .bytes)
  | some _, some _, some _, none => s.fail .serialize (.operandNotReady .pad)
  | some t, some table, some bs, some p =>
    match serializeContainer c ⟨bs, t, table, p⟩ with
    | .error f => s.fail .serialize f
    | .ok z => { s with blob := some z }.succeed

/-- SERIALIZE (R177). -/
def execSerialize (s : State) : Host.Outcome State Fault Refusal := .next (s.serialize s.config)

/-! ### Reading the wire format -/

/-- `take(n)` of R182 at offset `pos`: the next n bytes and the offset behind them, or "the blob ends early". -/
def takeBytes (blob : List Byte) (pos n : Nat) : Except Failure (List Byte × Nat) :=
  if blob.length < pos + n then .error (.corruptContainer blob.length) else .ok (memRead blob pos n, pos + n)

/-- `from_be(take(n))`. -/
def takeNat (blob : List Byte) (pos n : Nat) : Except Failure (Nat × Nat) :=
  match takeBytes blob pos n with
  | .error f => .error f
  | .ok (s, pos') => .ok (fromBe s, pos')

/-- `parse_sym()` (R182): a field of SYMB bytes; one with a bit set above SYM_W "names no Symbol" (R93). -/
def parseSym (c : Config) (blob : List Byte) (pos : Nat) : Except Failure (Symbol × Nat) :=
  match takeNat blob pos c.symb with
  | .error f => .error f
  | .ok (v, pos') => if 2 ^ c.symW ≤ v then .error (.corruptContainer pos) else .ok (v, pos')

/-- `parse_node()` (R182) at offset `pos`, the node's index in the pre-order arena being `i`: an internal node at i has
`left = i + 1` and `right = i + 1 + nodes(left subtree)`, and "Every record has w = 0" (R186).  `fuel` bounds the depth: each
level consumes a tag byte, so a blob's length and one more is enough and the first line is then never met. -/
def parseNode (c : Config) (blob : List Byte) : Nat → Nat → Nat → Except Failure (Tree × Nat)
  | 0, _, _ => .error (.corruptContainer blob.length)
  | fuel + 1, i, pos =>
    match takeNat blob pos 1 with
    | .error f => .error f
    | .ok (tag, p1) =>
      if tag = 0x01 then
        match parseSym c blob p1 with
        | .error f => .error f
        | .ok (s, p2) => .ok (.leaf i s 0, p2)
      else if tag = 0x00 then
        match parseNode c blob fuel (i + 1) p1 with
        | .error f => .error f
        | .ok (l, p2) =>
          match parseNode c blob fuel (i + 1 + l.size) p2 with
          | .error f => .error f
          | .ok (r, p3) => .ok (.node i 0 l r, p3)
      else .error (.corruptContainer pos)

/-- One code entry (R182, R95): c bits; the q front bits of its bytes are "dropped unseen". -/
def parseEntry (c : Config) (blob : List Byte) (pos : Nat) : Except Failure (CodeEntry × Nat) :=
  match parseSym c blob pos with
  | .error f => .error f
  | .ok (s, p1) =>
    match takeNat blob p1 2 with
    | .error f => .error f
    | .ok (len, p2) =>
      match takeBytes blob p2 ((len + 7) / 8) with
      | .error f => .error f
      | .ok (cb, p3) => .ok (⟨s, (unpackBytes cb).drop (8 * ((len + 7) / 8) - len)⟩, p3)

/-- "repeat K times" (R182). -/
def parseEntries (c : Config) (blob : List Byte) : Nat → Nat → Except Failure (List CodeEntry × Nat)
  | 0, pos => .ok ([], pos)
  | k + 1, pos =>
    match parseEntry c blob pos with
    | .error f => .error f
    | .ok (e, p1) =>
      match parseEntries c blob k p1 with
      | .error f => .error f
      | .ok (es, p2) => .ok (e :: es, p2)

/-- The structural part of DESERIALIZE (R182, R183): read from offset 0 upwards, "the first violation met ends the command". -/
def parseContainer (c : Config) (blob : List Byte) : Except Failure Container :=
  match takeNat blob 0 1 with
  | .error f => .error f
  | .ok (arity, p0) =>
    if arity ≠ 0x04 then .error (.corruptContainer 0)
    else
      match takeNat blob p0 4 with
      | .error f => .error f
      | .ok (len, p1) =>
        match takeBytes blob p1 len with
        | .error f => .error f
        | .ok (data, p2) =>
          match parseNode c blob (blob.length + 1) 0 p2 with
          | .error f => .error f
          | .ok (t, p3) =>
            match takeNat blob p3 2 with
            | .error f => .error f
            | .ok (k, p4) =>
              match parseEntries c blob k p4 with
              | .error f => .error f
              | .ok (es, p5) =>
                match takeNat blob p5 1 with
                | .error f => .error f
                | .ok (p, p6) =>
                  if 7 < p then .error (.corruptContainer p5)
                  else if p6 < blob.length then .error (.corruptContainer p6)
                  else .ok ⟨data, t, es, BitVec.ofNat 8 p⟩

/-- R187: some field "is larger than the block can hold". -/
def Container.tooLarge (c : Config) (k : Container) : Bool :=
  decide (c.bytesMax < k.bytes.length) || decide (c.nodeMax < k.tree.size) || decide (c.codeMax < k.codes.length)
    || k.codes.any fun e => decide (c.codelenMax < e.code.length)

/-- DESERIALIZE's function (R182): the capacities are looked at only when "the blob is structurally valid" (R187). -/
def deserializeBlob (c : Config) (blob : List Byte) : Except Failure Container :=
  match parseContainer c blob with
  | .error f => .error f
  | .ok k => if k.tooLarge c then .error .capacityExceeded else .ok k

/-- DESERIALIZE on the state (R182): all four destinations, or none (R181). -/
def State.deserialize (c : Config) (s : State) : State :=
  match s.blob with
  | none => s.fail .deserialize (.operandNotReady .blob)
  | some z =>
    match deserializeBlob c z with
    | .error f => s.fail .deserialize f
    | .ok k =>
      { s with bytes := some k.bytes, tree := some k.tree, treeKind := .recon,
               code := some k.codes, pad := some k.pad }.succeed

/-- DESERIALIZE (R182). -/
def execDeserialize (s : State) : Host.Outcome State Fault Refusal := .next (s.deserialize s.config)

end Sys2Proof.Machine
end

