-- ==== Sys2Proof/Machine/TreeBuilder.lean ====
section
/-! DEFINITION. TreeBuilder: the BUILD_TREE command (spec/41_tree_builder.md). -/

namespace Sys2Proof.Machine

/-- The priority order of R121: "lower weight first; among equal weights, the node inserted earlier first". -/
def Tree.before (a b : Tree) : Bool := decide (a.weight < b.weight ∨ (a.weight = b.weight ∧ a.idx < b.idx))

/-- `removemin(Q)` (R126): the node least by (weight, index) and the others.  The collection is a list; which node goes does
not depend on how it is arranged. -/
def removeMin : List Tree → Option (Tree × List Tree)
  | [] => none
  | x :: xs =>
    match removeMin xs with
    | none => some (x, [])
    | some (m, rest) => if m.before x then some (m, x :: rest) else some (x, xs)

/-- The leaves of R123, one per entry in FREQ order, their indices from `j` on (R122). -/
def leavesFrom : Nat → List FreqEntry → List Tree
  | _, [] => []
  | j, e :: f => .leaf j e.sym e.cnt :: leavesFrom (j + 1) f

/-- The merge loop of R123, `n` merges still to do and `next` the index of the node to be created: left is the node removed
first, right the one removed second (R127). -/
def mergeSteps : Nat → Nat → List Tree → List Tree
  | 0, _, q => q
  | n + 1, next, q =>
    match removeMin q with
    | none => q
    | some (a, q1) =>
      match removeMin q1 with
      | none => q
      | some (b, q2) => mergeSteps n (next + 1) (q2 ++ [.node next (a.weight + b.weight) a b])

/-- BUILD_TREE's function: the tree, or EmptyAlphabet on an empty table (R123, R124).  After k − 1 merges the collection "has
exactly one element", so the second failure is never met. -/
def buildTreeOf (f : List FreqEntry) : Except Failure Tree :=
  if f.length = 0 then .error .emptyAlphabet
  else
    match mergeSteps (f.length - 1) f.length (leavesFrom 0 f) with
    | [] => .error .emptyAlphabet
    | t :: _ => .ok t

/-- BUILD_TREE on the state (R123). -/
def State.buildTree (s : State) : State :=
  match s.freq with
  | none => s.fail .buildTree (.operandNotReady .freq)
  | some f =>
    match buildTreeOf f with
    | .error e => s.fail .buildTree e
    | .ok t => { s with tree := some t, treeKind := .built }.succeed

/-- BUILD_TREE (R123). -/
def execBuildTree (s : State) : Host.Outcome State Fault Refusal := .next s.buildTree

end Sys2Proof.Machine
end

