-- ==== Sys2Proof/Machine/System.lean ====
section
/-! DEFINITION. The composite and system commands: COMPRESS, DECOMPRESS, CLEAR (spec/45_composite_and_system.md). -/

namespace Sys2Proof.Machine

/-- COMPRESS on the state (R201): all destinations lose their value, then the six commands in order.  The first line writes VALID
bits alone, so TREE_KIND stays as it was when ANALYZE then fails (log 7). -/
def State.compress (c : Config) (s : State) : State :=
  runSteps [State.analyze, State.buildTree, State.deriveCodes, State.encode, State.pack, State.serialize c]
    (s.invalidateAll (destinations .compress))

/-- COMPRESS (R201). -/
def execCompress (s : State) : Host.Outcome State Fault Refusal := .next (s.compress s.config)

/-- DECOMPRESS on the state (R204): all destinations lose their value, then the three commands in order. -/
def State.decompress (c : Config) (s : State) : State :=
  runSteps [State.deserialize c, State.unpack, State.decode c] (s.invalidateAll (destinations .decompress))

/-- DECOMPRESS (R204). -/
def execDecompress (s : State) : Host.Outcome State Fault Refusal := .next (s.decompress s.config)

/-- CLEAR on the state (R207): VALID, NODE_CNT, ROOT and TREE_KIND become 0, and as a command's end STATUS and ERRINFO 0. -/
def State.clear (s : State) : State :=
  { s.invalidateAll (destinations .clear) with treeKind := .built }.succeed

/-- CLEAR (R207): it "cannot fail". -/
def execClear (s : State) : Host.Outcome State Fault Refusal := .next s.clear

end Sys2Proof.Machine
end

