-- ==== Sys2Proof/Machine/Dispatch.lean ====
section
/-! DEFINITION. One arm per command of spec/30_encoding.md R81. -/

namespace Sys2Proof.Machine

def exec (i : Instr) (s : State) : Host.Outcome State Fault Refusal :=
  match i with
  | .analyze => Sys2Proof.Machine.execAnalyze s
  | .buildTree => Sys2Proof.Machine.execBuildTree s
  | .deriveCodes => Sys2Proof.Machine.execDeriveCodes s
  | .encode => Sys2Proof.Machine.execEncode s
  | .pack => Sys2Proof.Machine.execPack s
  | .serialize => Sys2Proof.Machine.execSerialize s
  | .deserialize => Sys2Proof.Machine.execDeserialize s
  | .unpack => Sys2Proof.Machine.execUnpack s
  | .decode => Sys2Proof.Machine.execDecode s
  | .compress => Sys2Proof.Machine.execCompress s
  | .decompress => Sys2Proof.Machine.execDecompress s
  | .clear => Sys2Proof.Machine.execClear s

end Sys2Proof.Machine
end

