-- ==== Sys2Proof/Machine/Step.lean ====
section
/-! DEFINITION. One step of the whole system, "a host load, a host read, a register read, a command, a reset"
(spec/45_composite_and_system.md R213): the first of the host's actions still to come, taken off and performed. -/

namespace Sys2Proof.Machine

/-- One step.  With no action to come the block is idle (R261).  A byte written to CMD is decoded at that moment (R74): a command
runs start to end as one step (R213), any other byte is IllegalCommand (R83). -/
def step (s : State) : Host.Outcome State Fault Refusal :=
  match s.host with
  | [] => hostIdle s
  | .load v :: rest => hostLoad s.config v { s with host := rest }
  | .read b :: rest => hostRead b { s with host := rest }
  | .readReg r :: rest => hostReadReg r { s with host := rest }
  | .issue b :: rest =>
    match Sys2Proof.decode b with
    | .ok i => exec i { s with host := rest }
    | .error (.illegalCommand b') => hostIllegal b' { s with host := rest }
  | .reset :: rest => hostReset { s with host := rest }

/-- The state whose next step issues the command byte `w` (log 1): the block fetches nothing (R21), "The host issues a command by
writing its byte to CMD" (R213), so the byte becomes the host's next action and nothing else changes.  Every command has the same
eight bits (R80, R84), so the width says nothing more. -/
def State.withFetchWord (s : State) (_nbits w : Nat) : State := s.withAction (.issue (BitVec.ofNat 8 w))

end Sys2Proof.Machine
end

