-- ==== Sys2Proof/WellFormed.lean ====
section
/-! DEFINITION. What the spec says holds of every value the block holds: the ranges and capacities of spec/00_scope.md R6 and
spec/10_state.md R30 to R41, the tree's invariants (R33 to R36), and their conjunction over a state, `State.wf`.  A command has no
operand field (spec/30_encoding.md R80), so every instruction is well formed. -/

namespace Sys2Proof

/-- Every command is well formed: "There is no register field, no immediate, no mode bit" to check (R80). -/
def Instr.wellFormed (i : Instr) : Bool := Instr.all.contains i

namespace Machine

/-- The symbols of the leaves, left to right. -/
def Tree.leafSymbols : Tree → List Symbol
  | .leaf _ s _ => [s]
  | .node _ _ l r => l.leafSymbols ++ r.leafSymbols

/-- The arena indices of the nodes, root first, left before right. -/
def Tree.indices : Tree → List Nat
  | .leaf i _ _ => [i]
  | .node i _ l r => i :: (l.indices ++ r.indices)

/-- The weight invariant of R36: "every Internal node's weight equals the sum of its two children's weights". -/
def Tree.weighted : Tree → Bool
  | .leaf _ _ _ => true
  | .node _ w l r => decide (w = l.weight + r.weight) && l.weighted && r.weighted

/-- Every weight field is 0, as in a RECON tree (R36, R186). -/
def Tree.weightless : Tree → Bool
  | .leaf _ _ w => decide (w = 0)
  | .node _ w l r => decide (w = 0) && l.weightless && r.weightless

/-- Children stand before their parent and the left one is before the right one in the order of R121 (R127, R128 (f)). -/
def Tree.mergeOrdered : Tree → Bool
  | .leaf _ _ _ => true
  | .node i _ l r =>
    decide (l.idx < i ∧ r.idx < i) && decide (l.weight < r.weight ∨ (l.weight = r.weight ∧ l.idx < r.idx))
      && l.mergeOrdered && r.mergeOrdered

/-- Every weight is below 2^W_W (R7). -/
def Tree.weightsFit (c : Config) : Tree → Bool
  | .leaf _ _ w => decide (w < 2 ^ c.weightW)
  | .node _ w l r => decide (w < 2 ^ c.weightW) && l.weightsFit c && r.weightsFit c

/-- The tree without weights and indices: its shape and leaf symbols, all that any command depends on (R33). -/
def Tree.shape : Tree → Tree
  | .leaf _ s _ => .leaf 0 s 0
  | .node _ _ l r => .node 0 0 l.shape r.shape

/-- The tree as DESERIALIZE lays it out (R186): pre-order indices from `i` on, weights 0. -/
def Tree.recon : Nat → Tree → Tree
  | i, .leaf _ s _ => .leaf i s 0
  | i, .node _ _ l r => .node i 0 (l.recon (i + 1)) (r.recon (i + 1 + l.size))

/-- A tree within its capacity (R30, R33): at most NODE_MAX nodes, symbols of SYM_W bits, weights of W_W bits. -/
def fitsTree (c : Config) (t : Tree) : Bool :=
  decide (t.size ≤ c.nodeMax) && t.leafSymbols.all (fitsSymbol c) && t.weightsFit c

/-- The layout and weights the writer of a tree gives it (R34 to R36): every index 0 to NODE_CNT − 1 once; BUILT: root last, the
weight invariant; RECON: pre-order, weights 0. -/
def laidOut (k : TreeKind) (t : Tree) : Bool :=
  t.indices.isPerm (List.range t.size) &&
  match k with
  | .built => decide (t.idx = t.size - 1) && t.weighted && t.mergeOrdered
  | .recon => decide (t.indices = List.range t.size) && t.weightless

/-- What holds of every state of the block: its parameters are legal (R6), each buffer is without a value or within its type and
capacity, STATUS is one of the codes 0 to 9 ("Values 10 to 15 never occur", R23), ERRINFO within its bound (R26, log 6). -/
abbrev State.wf (s : State) : Prop :=
  s.config.legal = true
    ∧ s.text.all (fitsText s.config) = true ∧ s.freq.all (fitsFreq s.config) = true
    ∧ s.tree.all (fun t => fitsTree s.config t && laidOut s.treeKind t) = true
    ∧ s.code.all (fitsCode s.config) = true ∧ s.bits.all (fitsBits s.config) = true
    ∧ s.bytes.all (fitsBytes s.config) = true ∧ s.blob.all (fitsBlob s.config) = true
    ∧ s.dtext.all (fitsText s.config) = true ∧ s.status.toNat ≤ 9 ∧ s.errinfo < s.config.infoBound

/-- A container whose parts fit the fields of the wire format (spec/30_encoding.md R90, R93 to R96). -/
structure Container.Writable (c : Config) (k : Container) : Prop where
  bytes : k.bytes.length < 2 ^ 32
  symbols : ∀ s ∈ k.tree.leafSymbols, s < 2 ^ c.symW
  count : k.codes.length < 2 ^ 16
  entries : ∀ e ∈ k.codes, e.sym < 2 ^ c.symW ∧ e.code.length < 2 ^ 16
  pad : k.pad.toNat ≤ 7

end Machine

end Sys2Proof
end

