-- ==== Sys2Proof/Safety.lean ====
section
/-! DEFINITION. What a safe run is: the host keeps to the interface of spec/45_composite_and_system.md R210 to R213, and the block
then never stops and keeps the form of `State.wf`. -/

namespace Sys2Proof.Machine

/-- The actions the host has in a state (R210, R211, R43): loads of a writable buffer within its capacity, reads of a valid
buffer, reads of a register other than CMD, any command byte (R83), reset. -/
def HostAction.available (s : State) : HostAction → Bool
  | .load (.text t) => fitsText s.config t
  | .load (.freq f) => fitsFreq s.config f
  | .load (.tree _ _ _) => false
  | .load (.code t) => fitsCode s.config t
  | .load (.bits b) => fitsBits s.config b
  | .load (.bytes b) => fitsBytes s.config b
  | .load (.pad _) => true
  | .load (.blob z) => fitsBlob s.config z
  | .load (.dtext _) => false
  | .read b => s.isValid b
  | .readReg r => decide (r ≠ .cmd)
  | .issue _ => true
  | .reset => true

/-- A step is safe when the host's next action, if there is one, is an action the host has. -/
def State.safe (s : State) : Bool := s.host.head?.all (HostAction.available s)

/-- Two states hold the same contents, or both none, in a buffer. -/
def sameBuffer (s t : State) : BufId → Prop
  | .text => s.text = t.text
  | .freq => s.freq = t.freq
  | .tree => s.tree = t.tree
  | .code => s.code = t.code
  | .bits => s.bits = t.bits
  | .bytes => s.bytes = t.bytes
  | .pad => s.pad = t.pad
  | .blob => s.blob = t.blob
  | .dtext => s.dtext = t.dtext

/-! ### BUILD_TREE's pseudocode over the arena, as spec/41_tree_builder.md R123 writes it

A reference to hold the meaning against: a list of records and a collection of indices, where the meaning keeps a list of trees. -/

/-- The `w` field of a record (R34). -/
def NodeRec.weight : NodeRec → Nat
  | .leaf _ w => w
  | .internal w _ _ => w

/-- `T[i].w`, 0 beyond the arena's end, which the pseudocode never reads. -/
def arenaWeight (arena : List NodeRec) (i : Nat) : Nat := (arena[i]?).elim 0 NodeRec.weight

/-- `removemin(Q)` on indices: "the index i in Q for which the pair (T[i].w, i) is lexicographically least" (R126). -/
def arenaRemoveMin (arena : List NodeRec) : List Nat → Option (Nat × List Nat)
  | [] => none
  | i :: q =>
    match arenaRemoveMin arena q with
    | none => some (i, [])
    | some (j, rest) =>
      if arenaWeight arena j < arenaWeight arena i ∨ (arenaWeight arena j = arenaWeight arena i ∧ j < i)
      then some (j, i :: rest) else some (i, q)

/-- The merge loop of R123, with `n` merges to do: the new record goes to the arena's end and its index into the collection. -/
def arenaMerges : Nat → List NodeRec → List Nat → List NodeRec
  | 0, arena, _ => arena
  | n + 1, arena, q =>
    match arenaRemoveMin arena q with
    | none => arena
    | some (a, q1) =>
      match arenaRemoveMin arena q1 with
      | none => arena
      | some (b, q2) =>
        arenaMerges n (arena ++ [.internal (arenaWeight arena a + arenaWeight arena b) a b]) (q2 ++ [arena.length])

/-- The arena R123 builds from a frequency table: the leaves in FREQ order, then k − 1 merges. -/
def arenaOf (f : List FreqEntry) : List NodeRec :=
  arenaMerges (f.length - 1) (f.map fun e => .leaf e.sym e.cnt) (List.range f.length)

/-- The tree reached from a root by a bitstring, 0 left and 1 right (R87). -/
def Tree.follow : Tree → Bits → Option Tree
  | t, [] => some t
  | .leaf _ _ _, _ :: _ => none
  | .node _ _ l r, b :: bits => if b then r.follow bits else l.follow bits

/-- The leaves of a tree, left to right. -/
def Tree.leafNodes : Tree → List Tree
  | .leaf i s w => [.leaf i s w]
  | .node _ _ l r => l.leafNodes ++ r.leafNodes

/-- The sum of the weights of all internal nodes (R231). -/
def Tree.internalWeight : Tree → Nat
  | .leaf _ _ _ => 0
  | .node _ w l r => w + l.internalWeight + r.internalWeight

/-! ### Blobs, as spec/30_encoding.md R88 to R99 and spec/44_container.md R183 describe them

The readings to hold the parser against: which bytes are a blob of a container, and where the first violation of one that is none
stands. -/

/-- Bytes that are read as a code: as many as its length needs, the code's bits at their end, and in front of them fewer than eight
bits, "which may hold any value" (R95, R99). -/
def codeBytesFor (code : Bits) (cb : List Byte) : Prop :=
  cb.length = (code.length + 7) / 8 ∧ (unpackBytes cb).drop (8 * cb.length - code.length) = code

/-- The bytes are the entries, one after the other (R95). -/
def entriesForm (c : Config) : List CodeEntry → List Byte → Prop
  | [], z => z = []
  | e :: es, z => ∃ cb rest, codeBytesFor e.code cb ∧ z = symBytes c e.sym ++ beN 2 e.code.length ++ cb ++ rest ∧
      entriesForm c es rest

/-- Field 1 with the ARITY byte before it (R89, R90). -/
def headForm (d : List Byte) : List Byte := [0x04#8] ++ beN 4 d.length ++ d

/-- The blob is "of the form of rules R88 to R97" and its parts are the container's (R99).  The writer's blob of a container is one
such blob; another differs from it in dropped front bits alone (R102). -/
def IsBlobOf (c : Config) (k : Container) (z : List Byte) : Prop :=
  k.Writable c ∧ ∃ es, entriesForm c k.codes es ∧
    z = headForm k.bytes ++ k.tree.wire c ++ beN 2 k.codes.length ++ es ++ [k.pad]

/-- What a tree's record has before the record of the node a path leads to, 0 left and 1 right (R91); `none` for a path that leaves
the tree. -/
def Tree.wireBefore (c : Config) : Tree → Bits → Option (List Byte)
  | _, [] => some []
  | .leaf _ _ _, _ :: _ => none
  | .node _ _ l r, b :: p =>
    if b then (r.wireBefore c p).map fun w => 0x00#8 :: (l.wire c ++ w) else (l.wireBefore c p).map (0x00#8 :: ·)

/-- What a blob can hold up to a place "where a tag is expected" (R92). -/
def BeforeTag (c : Config) (p : List Byte) : Prop :=
  ∃ (d : List Byte) (t : Tree) (path : Bits) (w : List Byte), d.length < 2 ^ 32 ∧ (∀ a ∈ t.leafSymbols, a < 2 ^ c.symW) ∧
    t.wireBefore c path = some w ∧ p = headForm d ++ w

/-- What a blob can hold up to a symbol field, "in a Leaf record and in a code entry" (R93). -/
def BeforeSymbol (c : Config) (p : List Byte) : Prop :=
  (∃ q, BeforeTag c q ∧ p = q ++ [0x01#8]) ∨
    ∃ (d : List Byte) (t : Tree) (n : Nat) (es : List CodeEntry) (w : List Byte), d.length < 2 ^ 32 ∧
      (∀ a ∈ t.leafSymbols, a < 2 ^ c.symW) ∧ n < 2 ^ 16 ∧ es.length < n ∧
      (∀ e ∈ es, e.sym < 2 ^ c.symW ∧ e.code.length < 2 ^ 16) ∧ entriesForm c es w ∧
      p = headForm d ++ t.wire c ++ beN 2 n ++ w

/-- The table of causes of R183: the first violation met in a blob, and its ERRINFO.  "the blob ends before a part is complete" has two
constructors, since the bytes of a symbol field that is cut short are not looked at. -/
inductive Violation (c : Config) : List Byte → Nat → Prop where
  /-- "byte 0 is not 0x04". -/
  | arity (b : Byte) (y : List Byte) : b ≠ 0x04#8 → Violation c (b :: y) 0
  /-- "the blob ends before a part is complete": more bytes would make it a blob. -/
  | endsEarly (k : Container) (z y : List Byte) : y ≠ [] → IsBlobOf c k (z ++ y) → Violation c z z.length
  /-- "the blob ends before a part is complete": inside a symbol field. -/
  | endsInSymbol (p f : List Byte) : BeforeSymbol c p → f.length < c.symb → Violation c (p ++ f) (p ++ f).length
  /-- "a byte that should be a tag is 0x02 to 0xFF". -/
  | badTag (p : List Byte) (b : Byte) (y : List Byte) : BeforeTag c p → 1 < b.toNat → Violation c (p ++ b :: y) p.length
  /-- "a symbol field with a bit set above SYM_W". -/
  | badSymbol (p f y : List Byte) : BeforeSymbol c p → f.length = c.symb → 2 ^ c.symW ≤ fromBe f →
      Violation c (p ++ f ++ y) p.length
  /-- "the padding byte is 8 to 255". -/
  | badPadding (k : Container) (z : List Byte) (p : Byte) (y : List Byte) : IsBlobOf c k (z ++ [k.pad]) → 7 < p.toNat →
      Violation c (z ++ p :: y) z.length
  /-- "bytes remain after the padding byte". -/
  | trailing (k : Container) (z : List Byte) (b : Byte) (y : List Byte) : IsBlobOf c k z → Violation c (z ++ b :: y) z.length

end Sys2Proof.Machine
end

