-- ==== Sys2Proof/Certificates/Slice0/Obligations.lean ====
section
/-! DEFINITION. The statements for the provers.  Each says in its docstring which rule of spec/ it formalises.  They hold for a block
with any parameters: a state carries its own, `s.config` (R6, log 5). -/

open Sys2Proof Sys2Proof.Machine

/-! ### The command byte and one step of the system -/

/-- R80, R81: the twelve bytes of the command table decode to their commands, each command encodes to the byte that decodes to it,
and to no other. -/
def Obligations.CommandBytesDecode : Prop :=
  decode 0x01#8 = .ok .analyze ∧ decode 0x02#8 = .ok .buildTree ∧ decode 0x03#8 = .ok .deriveCodes ∧
    decode 0x04#8 = .ok .encode ∧ decode 0x05#8 = .ok .pack ∧ decode 0x06#8 = .ok .serialize ∧
    decode 0x07#8 = .ok .deserialize ∧ decode 0x08#8 = .ok .unpack ∧ decode 0x09#8 = .ok .decode ∧
    decode 0x0A#8 = .ok .compress ∧ decode 0x0B#8 = .ok .decompress ∧ decode 0x0C#8 = .ok .clear ∧
    ∀ (b : Byte) (i : Instr), decode b = .ok i ↔ b = encode i

/-- R83, R250: a byte 0x00 or 0x0D to 0xFF issued to CMD changes no buffer, no VALID bit and no tree register and ends with
STATUS 9 and ERRINFO the byte; of the 256 byte values twelve decode to commands and 244 do not.  (That the action is taken off the
host's queue, `host := rest`, is the model's own, log 1.) -/
def Obligations.IllegalByteEndsInIllegalCommand : Prop :=
  (((List.range 256).filter fun n => (decode (BitVec.ofNat 8 n)).toOption.isSome).length = 12 ∧
    ((List.range 256).filter fun n => (decode (BitVec.ofNat 8 n)).toOption.isNone).length = 244) ∧
  ∀ (s : State) (b : Byte) (rest : List HostAction), s.host = .issue b :: rest → (b.toNat = 0 ∨ 0x0D ≤ b.toNat) →
    step s = .next { s with host := rest, status := 9#4, errinfo := b.toNat }

/-- R82: the operand table, row by row, and that sources and destinations of one command never overlap. -/
def Obligations.OperandTable : Prop :=
  (sources .analyze = [.text] ∧ destinations .analyze = [.freq]) ∧
  (sources .buildTree = [.freq] ∧ destinations .buildTree = [.tree]) ∧
  (sources .deriveCodes = [.tree] ∧ destinations .deriveCodes = [.code]) ∧
  (sources .encode = [.text, .code] ∧ destinations .encode = [.bits]) ∧
  (sources .pack = [.bits] ∧ destinations .pack = [.bytes, .pad]) ∧
  (sources .serialize = [.tree, .code, .bytes, .pad] ∧ destinations .serialize = [.blob]) ∧
  (sources .deserialize = [.blob] ∧ destinations .deserialize = [.bytes, .tree, .code, .pad]) ∧
  (sources .unpack = [.bytes, .pad] ∧ destinations .unpack = [.bits]) ∧
  (sources .decode = [.tree, .bits] ∧ destinations .decode = [.dtext]) ∧
  (sources .compress = [.text] ∧ destinations .compress = [.freq, .tree, .code, .bits, .bytes, .pad, .blob]) ∧
  (sources .decompress = [.blob] ∧ destinations .decompress = [.bytes, .tree, .code, .pad, .bits, .dtext]) ∧
  (sources .clear = [] ∧ destinations .clear = [.text, .freq, .tree, .code, .bits, .bytes, .pad, .blob, .dtext]) ∧
  ∀ (i : Instr) (b : BufId), b ∈ sources i → b ∉ destinations i

/-- R241: the STATUS code and the ERRINFO value of each failure kind, and which command ends in which. -/
def Obligations.FailureCodeTable : Prop :=
  (Failure.emptyInput.code = 1#4 ∧ Failure.emptyInput.info = 0) ∧
  (Failure.emptyAlphabet.code = 2#4 ∧ Failure.emptyAlphabet.info = 0) ∧
  (∀ n, (Failure.unknownSymbol n).code = 3#4 ∧ (Failure.unknownSymbol n).info = n) ∧
  (∀ n, (Failure.truncatedStream n).code = 4#4 ∧ (Failure.truncatedStream n).info = n) ∧
  (∀ p, (Failure.invalidPadding p).code = 5#4 ∧ (Failure.invalidPadding p).info = p.toNat) ∧
  (∀ n, (Failure.corruptContainer n).code = 6#4 ∧ (Failure.corruptContainer n).info = n) ∧
  (Failure.capacityExceeded.code = 7#4 ∧ Failure.capacityExceeded.info = 0) ∧
  (∀ b, (Failure.operandNotReady b).code = 8#4 ∧ (Failure.operandNotReady b).info = b.id) ∧
  (∀ b, (Failure.illegalCommand b).code = 9#4 ∧ (Failure.illegalCommand b).info = b.toNat) ∧
  (BufId.text.id = 0 ∧ BufId.freq.id = 1 ∧ BufId.tree.id = 2 ∧ BufId.code.id = 3 ∧ BufId.bits.id = 4 ∧
    BufId.bytes.id = 5 ∧ BufId.pad.id = 6 ∧ BufId.blob.id = 7 ∧ BufId.dtext.id = 8) ∧
  ∀ p ∈ [(Instr.analyze, [0, 1, 8]), (.buildTree, [0, 2, 8]), (.deriveCodes, [0, 8]), (.encode, [0, 3, 8]), (.pack, [0, 8]),
      (.serialize, [0, 5, 8]), (.deserialize, [0, 6, 7, 8]), (.unpack, [0, 5, 8]), (.decode, [0, 4, 7, 8]),
      (.compress, [0, 1, 8]), (.decompress, [0, 4, 5, 6, 7, 8]), (.clear, [0])],
    ∀ s t : State, exec p.1 s = .next t → t.status.toNat ∈ p.2

/-- R213, R74: when the host's next action issues a byte that decodes to a command, the step is that command run on the state from
which the action has been taken off (the queue of the host's actions is the model's own, log 1). -/
def Obligations.StepRunsTheIssuedCommand : Prop :=
  ∀ (s : State) (b : Byte) (rest : List HostAction) (i : Instr), s.host = .issue b :: rest → decode b = .ok i →
    step s = exec i { s with host := rest }

/-- R261: with no host action to come the block holds its state (that this is a step is the model's choice, log 1). -/
def Obligations.StepIsIdleWithoutAction : Prop := ∀ s : State, s.host = [] → step s = .next s

/-- R210: a host load of each writable buffer: within the capacities of R6 the buffer gets the value and nothing else changes; beyond
them, and for TREE and DTEXT, there is no transition (a refusal by name, log 8; the queue of actions is the model's own, log 1). -/
def Obligations.StepLoadsBuffer : Prop :=
  ∀ (s : State) (rest : List HostAction),
    (∀ v, s.host = .load (.text v) :: rest →
      (v.length ≤ s.config.nMax ∧ (∀ x ∈ v, x < 2 ^ s.config.symW) → step s = .next { s with host := rest, text := some v }) ∧
      (¬ (v.length ≤ s.config.nMax ∧ ∀ x ∈ v, x < 2 ^ s.config.symW) → step s = .refused (.loadTooLarge .text))) ∧
    (∀ v, s.host = .load (.freq v) :: rest →
      (v.length ≤ s.config.kMax ∧ (∀ e ∈ v, e.sym < 2 ^ s.config.symW ∧ e.cnt < 2 ^ s.config.cntW) →
        step s = .next { s with host := rest, freq := some v }) ∧
      (¬ (v.length ≤ s.config.kMax ∧ ∀ e ∈ v, e.sym < 2 ^ s.config.symW ∧ e.cnt < 2 ^ s.config.cntW) →
        step s = .refused (.loadTooLarge .freq))) ∧
    (∀ v, s.host = .load (.code v) :: rest →
      (v.length ≤ s.config.codeMax ∧ (∀ e ∈ v, e.sym < 2 ^ s.config.symW ∧ e.code.length ≤ s.config.codelenMax) →
        step s = .next { s with host := rest, code := some v }) ∧
      (¬ (v.length ≤ s.config.codeMax ∧ ∀ e ∈ v, e.sym < 2 ^ s.config.symW ∧ e.code.length ≤ s.config.codelenMax) →
        step s = .refused (.loadTooLarge .code))) ∧
    (∀ v, s.host = .load (.bits v) :: rest →
      (v.length ≤ s.config.bitsMax → step s = .next { s with host := rest, bits := some v }) ∧
      (s.config.bitsMax < v.length → step s = .refused (.loadTooLarge .bits))) ∧
    (∀ v, s.host = .load (.bytes v) :: rest →
      (v.length ≤ s.config.bytesMax → step s = .next { s with host := rest, bytes := some v }) ∧
      (s.config.bytesMax < v.length → step s = .refused (.loadTooLarge .bytes))) ∧
    (∀ v, s.host = .load (.pad v) :: rest → step s = .next { s with host := rest, pad := some v }) ∧
    (∀ v, s.host = .load (.blob v) :: rest →
      (v.length ≤ s.config.blobMax → step s = .next { s with host := rest, blob := some v }) ∧
      (s.config.blobMax < v.length → step s = .refused (.loadTooLarge .blob))) ∧
    (∀ a r k, s.host = .load (.tree a r k) :: rest → step s = .refused (.loadClosed .tree)) ∧
    (∀ v, s.host = .load (.dtext v) :: rest → step s = .refused (.loadClosed .dtext))

/-- R211: a host read delivers the whole contents of a valid buffer and changes nothing of the block; for TREE the arena, ROOT,
NODE_CNT (its length) and TREE_KIND, from which the Tree reads back; of an invalid buffer there is no transition.  (`reply`, which
holds what was delivered, is the model's own, log 2, as the queue of actions is, log 1.) -/
def Obligations.StepReadsBuffer : Prop :=
  ∀ (s : State) (rest : List HostAction),
    (∀ b, s.host = .read b :: rest → s.isValid b = false → step s = .refused (.readInvalid b)) ∧
    (∀ v, s.host = .read .text :: rest → s.text = some v →
      step s = .next { s with host := rest, reply := some (.buffer (.text v)) }) ∧
    (∀ v, s.host = .read .freq :: rest → s.freq = some v →
      step s = .next { s with host := rest, reply := some (.buffer (.freq v)) }) ∧
    (∀ t, s.host = .read .tree :: rest → s.tree = some t → t.indices.Perm (List.range t.size) →
      ∃ arena, step s = .next { s with host := rest, reply := some (.buffer (.tree arena t.idx s.treeKind)) } ∧
        arena.length = t.size ∧ treeOf arena t.size t.idx = some t) ∧
    (∀ v, s.host = .read .code :: rest → s.code = some v →
      step s = .next { s with host := rest, reply := some (.buffer (.code v)) }) ∧
    (∀ v, s.host = .read .bits :: rest → s.bits = some v →
      step s = .next { s with host := rest, reply := some (.buffer (.bits v)) }) ∧
    (∀ v, s.host = .read .bytes :: rest → s.bytes = some v →
      step s = .next { s with host := rest, reply := some (.buffer (.bytes v)) }) ∧
    (∀ v, s.host = .read .pad :: rest → s.pad = some v →
      step s = .next { s with host := rest, reply := some (.buffer (.pad v)) }) ∧
    (∀ v, s.host = .read .blob :: rest → s.blob = some v →
      step s = .next { s with host := rest, reply := some (.buffer (.blob v)) }) ∧
    (∀ v, s.host = .read .dtext :: rest → s.dtext = some v →
      step s = .next { s with host := rest, reply := some (.buffer (.dtext v)) })

/-- R212, R28, R35: a register read delivers the register's number and changes nothing of the block; each length register is the
length of a valid buffer and 0 of an invalid one, ROOT and NODE_CNT read 0 when TREE is invalid; CMD has no read value (R27).
(`host` and `reply` are the model's own, log 1, log 2.) -/
def Obligations.StepReadsRegister : Prop :=
  ∀ (s : State) (r : RegId) (rest : List HostAction), s.host = .readReg r :: rest →
    (r = .cmd → step s = .refused .readCmd) ∧
    (r ≠ .cmd → ∃ n, step s = .next { s with host := rest, reply := some (.register r n) } ∧
      (r = .status → n = s.status.toNat) ∧ (r = .errinfo → n = s.errinfo) ∧ (r = .valid → n = s.validReg.toNat) ∧
      (r = .treeKind → (n = 0 ↔ s.treeKind = .built) ∧ (n = 1 ↔ s.treeKind = .recon)) ∧
      (r = .root → (s.tree = none → n = 0) ∧ ∀ t, s.tree = some t → n = t.idx) ∧
      (r = .nodeCnt → (s.tree = none → n = 0) ∧ ∀ t, s.tree = some t → n = t.size) ∧
      (r = .textLen → (s.text = none → n = 0) ∧ ∀ v, s.text = some v → n = v.length) ∧
      (r = .freqK → (s.freq = none → n = 0) ∧ ∀ v, s.freq = some v → n = v.length) ∧
      (r = .codeK → (s.code = none → n = 0) ∧ ∀ v, s.code = some v → n = v.length) ∧
      (r = .bitsLen → (s.bits = none → n = 0) ∧ ∀ v, s.bits = some v → n = v.length) ∧
      (r = .bytesLen → (s.bytes = none → n = 0) ∧ ∀ v, s.bytes = some v → n = v.length) ∧
      (r = .blobLen → (s.blob = none → n = 0) ∧ ∀ v, s.blob = some v → n = v.length) ∧
      (r = .dtextLen → (s.dtext = none → n = 0) ∧ ∀ v, s.dtext = some v → n = v.length) ∧
      (r = .pad → (s.pad = none → n = 0) ∧ ∀ v, s.pad = some v → n = v.toNat))

/-- R270: a reset takes every buffer's value and makes TREE_KIND, STATUS and ERRINFO 0; the block's parameters (log 5) stay, and so do
the model's own fields, what the host is about to do and what it has read (log 1, log 2). -/
def Obligations.StepResetsTheBlock : Prop :=
  ∀ (s : State) (rest : List HostAction), s.host = .reset :: rest →
    step s = .next { State.resetWith s.config with host := rest, reply := s.reply }

/-- R45: the reset state, read through every register and VALID bit. -/
def Obligations.ResetState : Prop :=
  State.reset.validReg = 0#9 ∧ (∀ b : BufId, State.reset.isValid b = false) ∧
    (∀ r ∈ [RegId.textLen, .freqK, .nodeCnt, .codeK, .bitsLen, .bytesLen, .blobLen, .dtextLen, .pad, .root, .treeKind,
      .status, .errinfo], State.reset.regRead r = some 0) ∧ State.reset.regRead .cmd = none

/-- R24: bit i of VALID belongs to the buffer with id i and is 1 exactly when that buffer holds a value. -/
def Obligations.ValidRegisterBits : Prop := ∀ (s : State) (b : BufId), s.validReg.getLsbD b.id = s.isValid b

/-- R14, R210 to R213: the block answers a next state exactly when the host's next action, if there is one, is an action the host
has; in particular no command stops it. -/
def Obligations.BlockStopsOnlyOutsideItsInterface : Prop :=
  ∀ s : State, s.safe = true ↔ ∃ t, step s = .next t

/-- R23: no step but a command or a reset changes STATUS or ERRINFO. -/
def Obligations.StatusChangesOnlyByCommandOrReset : Prop :=
  ∀ s t : State, step s = .next t → (t.status ≠ s.status ∨ t.errinfo ≠ s.errinfo) →
    ∃ rest, (∃ b, s.host = .issue b :: rest) ∨ s.host = .reset :: rest

/-- R31 "The block never writes TEXT": a step gives TEXT another value only where the host loads it; CLEAR and reset alone take
its value away. -/
def Obligations.TextChangesOnlyByTheHost : Prop :=
  ∀ s t : State, step s = .next t → t.text ≠ s.text →
    (∃ v rest, s.host = .load (.text v) :: rest ∧ t.text = some v) ∨
      (t.text = none ∧ ∃ rest, s.host = .issue 0x0C#8 :: rest ∨ s.host = .reset :: rest)

/-! ### What every command does -/

/-- R251, R252: every command that is not composite ends in a next state, and either with STATUS and ERRINFO 0 and every destination
valid, or with the code and the info of a failure kind and every destination invalid, ROOT, NODE_CNT and TREE_KIND 0 if TREE is a
destination.  (CLEAR succeeds, and its destinations are the buffers it makes invalid.) -/
def Obligations.CommandEndsInSuccessOrFailure : Prop :=
  ∀ (i : Instr) (s : State), i ≠ .compress → i ≠ .decompress → ∃ t, exec i s = .next t ∧
    ((t.status = 0#4 ∧ t.errinfo = 0 ∧ (i ≠ .clear → ∀ b ∈ destinations i, t.isValid b = true)) ∨
      (i ≠ .clear ∧ t.status ≠ 0#4 ∧ (∃ f : Failure, t.status = f.code ∧ t.errinfo = f.info) ∧
        (∀ b ∈ destinations i, t.isValid b = false) ∧
        (BufId.tree ∈ destinations i → t.root = 0 ∧ t.nodeCnt = 0 ∧ t.treeKind = .built)))

/-- R82, R68: the frame of every command.  No buffer that is not a destination changes, the sources among them; TREE_KIND changes
only where TREE is a destination; the parameters (log 5) and the model's own fields (log 1, log 2) never change. -/
def Obligations.CommandFrame : Prop :=
  ∀ (i : Instr) (s t : State), exec i s = .next t →
    (∀ b, b ∉ destinations i → sameBuffer s t b) ∧ (∀ b ∈ sources i, sameBuffer s t b) ∧
      (BufId.tree ∉ destinations i → t.treeKind = s.treeKind) ∧ t.config = s.config ∧ t.host = s.host ∧ t.reply = s.reply

/-- R249, R253: a command with an invalid source ends in OperandNotReady with the lowest invalid source's id, before anything else,
and with every destination invalid. -/
def Obligations.OperandNotReadyComesFirst : Prop :=
  ∀ (i : Instr) (s : State) (b : BufId), b ∈ sources i → s.isValid b = false →
    (∀ b' ∈ sources i, b'.id < b.id → s.isValid b' = true) →
    ∃ t, exec i s = .next t ∧ t.status = 8#4 ∧ t.errinfo = b.id ∧ ∀ d ∈ destinations i, t.isValid d = false

/-- R68: a command issued twice in a row ends the second time in the same state. -/
def Obligations.CommandIsIdempotent : Prop :=
  ∀ (i : Instr) (s t : State), exec i s = .next t → exec i t = .next t

/-- R11, R82, R230: what a command writes depends on its sources alone (in a block with the same parameters): from two states that
agree on them the destinations, STATUS and ERRINFO come out equal, and TREE_KIND wherever TREE is a destination, a COMPRESS that fails
apart, which leaves TREE_KIND as it was (log 7). -/
def Obligations.CommandReadsOnlyItsSources : Prop :=
  ∀ (i : Instr) (s s' t t' : State), s.config = s'.config → (∀ b ∈ sources i, sameBuffer s s' b) →
    exec i s = .next t → exec i s' = .next t' →
    (∀ b ∈ destinations i, sameBuffer t t' b) ∧ t.status = t'.status ∧ t.errinfo = t'.errinfo ∧
      (BufId.tree ∈ destinations i → (i = .compress → t.status = 0#4) → t.treeKind = t'.treeKind)

/-- R33: "Every command that reads TREE ... depends only on this value, and of it only on the shape and the leaf symbols": two states
that differ in the weights and the arena layout of TREE end in states that differ in TREE alone. -/
def Obligations.TreeReadersIgnoreWeightsAndLayout : Prop :=
  ∀ (s : State) (t t' : Tree), t.shape = t'.shape → ∀ i ∈ [Instr.deriveCodes, .decode, .serialize],
    ∃ u, exec i { s with tree := some t } = .next u ∧ exec i { s with tree := some t' } = .next { u with tree := some t' }

/-! ### ANALYZE -/

/-- R111, R113: ANALYZE, the whole next state.  FREQ lists the distinct symbols in order of first occurrence, each with its number of
occurrences; an invalid TEXT is OperandNotReady(0) and an empty one EmptyInput, and FREQ is then invalid. -/
def Obligations.AnalyzeCountsInFirstOccurrenceOrder : Prop :=
  ∀ s : State,
    (s.text = none → exec .analyze s = .next { s with freq := none, status := 8#4, errinfo := 0 }) ∧
    (s.text = some [] → exec .analyze s = .next { s with freq := none, status := 1#4, errinfo := 0 }) ∧
    ∀ t, s.text = some t → t ≠ [] →
      exec .analyze s = .next { s with
        freq := some (t.eraseDups.map fun x => ⟨x, t.count x⟩), status := 0#4, errinfo := 0 }

/-- R114: what holds of FREQ after a successful ANALYZE, (a) to (e), and that no capacity is exceeded. -/
def Obligations.AnalyzeTableInvariant : Prop :=
  ∀ (s : State) (t : List Symbol), s.text = some t → t ≠ [] → t.length ≤ s.config.nMax → (∀ x ∈ t, x < 2 ^ s.config.symW) →
    ∃ u f, exec .analyze s = .next u ∧ u.freq = some f ∧
      f.length = t.toFinset.card ∧ 1 ≤ f.length ∧ f.length ≤ min t.length s.config.kMax ∧
      (f.map FreqEntry.sym).Nodup ∧
      (∀ e ∈ f, 1 ≤ e.cnt ∧ e.cnt = t.count e.sym ∧ e.cnt ≤ s.config.nMax) ∧
      (f.map FreqEntry.cnt).sum = t.length ∧
      f.map FreqEntry.sym = t.eraseDups

/-- R112: an empty TEXT is EmptyInput, with FREQ invalid; ANALYZE never produces an empty FREQ. -/
def Obligations.AnalyzeRejectsEmptyText : Prop :=
  (∀ s : State, s.text = some [] → exec .analyze s = .next { s with freq := none, status := 1#4, errinfo := 0 }) ∧
    ∀ s t : State, exec .analyze s = .next t → t.freq ≠ some []

/-! ### BUILD_TREE -/

/-- R122, R127, R128: the tree BUILD_TREE makes of a table that is not empty.  It has k leaves and 2k − 1 nodes, root last; the arena
begins with the leaves in FREQ order; the weight invariant holds and the root weighs the sum of all counts; at every internal node
the children's indices are smaller and the left child is before the right one by (weight, index). -/
def Obligations.BuildTreeInvariant : Prop :=
  ∀ (s : State) (f : List FreqEntry), s.freq = some f → f ≠ [] →
    ∃ t, exec .buildTree s = .next { s with tree := some t, treeKind := .built, status := 0#4, errinfo := 0 } ∧
      t.leafSymbols.length = f.length ∧ t.size = 2 * f.length - 1 ∧ t.idx = 2 * f.length - 2 ∧
      t.indices.Perm (List.range t.size) ∧
      t.arena.take f.length = f.map (fun e => NodeRec.leaf e.sym e.cnt) ∧
      t.weighted = true ∧ t.weight = (f.map FreqEntry.cnt).sum ∧ t.mergeOrdered = true

/-- R123: BUILD_TREE gives the arena that the rule's own pseudocode gives over a list of records and a collection of indices, and
the tree is the one that arena holds at ROOT = 2k − 2; an invalid FREQ is OperandNotReady(1), an empty one EmptyAlphabet. -/
def Obligations.BuildTreeRunsTheArenaPseudocode : Prop :=
  ∀ s : State,
    (s.freq = none → exec .buildTree s = .next { s with tree := none, treeKind := .built, status := 8#4, errinfo := 1 }) ∧
    (s.freq = some [] → exec .buildTree s = .next { s with tree := none, treeKind := .built, status := 2#4, errinfo := 0 }) ∧
    ∀ f, s.freq = some f → f ≠ [] →
      ∃ t, exec .buildTree s = .next { s with tree := some t, treeKind := .built, status := 0#4, errinfo := 0 } ∧
        t.arena = arenaOf f ∧ t.size = 2 * f.length - 1 ∧ t.idx = 2 * f.length - 2 ∧
        treeOf (arenaOf f) (2 * f.length - 1) (2 * f.length - 2) = some t

/-- R124: an empty FREQ is EmptyAlphabet. -/
def Obligations.BuildTreeRejectsEmptyTable : Prop :=
  ∀ s : State, s.freq = some [] →
    exec .buildTree s = .next { s with tree := none, treeKind := .built, status := 2#4, errinfo := 0 }

/-- R126: `removemin` of a collection with distinct indices gives the one node that is before every other by (weight, index), leaves
the others, and gives the same node however the collection is arranged. -/
def Obligations.RemoveMinTakesTheLeast : Prop :=
  ∀ q : List Tree, q ≠ [] → (q.map Tree.idx).Nodup →
    ∃ m rest, removeMin q = some (m, rest) ∧ (m :: rest).Perm q ∧
      (∀ y ∈ rest, m.weight < y.weight ∨ (m.weight = y.weight ∧ m.idx < y.idx)) ∧
      ∀ q', q'.Perm q → ∃ rest', removeMin q' = some (m, rest')

/-! ### DERIVE_CODES -/

/-- R137, R139: DERIVE_CODES writes one entry a leaf, left to right, whose code leads from the root to that leaf, the codes in the
order of their first difference, 0 before 1; with a single leaf the one code is "0"; an invalid TREE is OperandNotReady(2); nothing
else changes. -/
def Obligations.DeriveCodesGivesTreePaths : Prop :=
  ∀ s : State,
    (s.tree = none → exec .deriveCodes s = .next { s with code := none, status := 8#4, errinfo := 2 }) ∧
    ∀ t, s.tree = some t →
      ∃ table, exec .deriveCodes s = .next { s with code := some table, status := 0#4, errinfo := 0 } ∧
        table.map CodeEntry.sym = t.leafSymbols ∧ (table.map CodeEntry.code).Pairwise (· < ·) ∧
        (∀ i w l r, t = .node i w l r → table.map (fun e => t.follow e.code) = t.leafNodes.map some) ∧
        (∀ i a w, t = .leaf i a w → table = [⟨a, [false]⟩])

/-- R224: after DERIVE_CODES no entry's code is a prefix of another entry's code. -/
def Obligations.DerivedCodesArePrefixFree : Prop :=
  ∀ (s t : State) (table : List CodeEntry), s.tree ≠ none → exec .deriveCodes s = .next t → t.code = some table →
    table.Pairwise fun a b => ¬ a.code <+: b.code ∧ ¬ b.code <+: a.code

/-- R232: for a tree with at least two leaves the sum of 2^(−length) over the derived codes is exactly 1, and DECODE of a bitstring
(short enough for DTEXT) with such a tree ends in success or in TruncatedStream. -/
def Obligations.DerivedCodesAreComplete : Prop :=
  ∀ (s : State) (i w : Nat) (l r : Tree), s.tree = some (.node i w l r) →
    (∃ t table, exec .deriveCodes s = .next t ∧ t.code = some table ∧
      (table.map fun e => (1 / 2 : ℚ) ^ e.code.length).sum = 1) ∧
    ∀ b, s.bits = some b → b.length ≤ s.config.nMax → ∃ t, exec .decode s = .next t ∧ (t.status = 0#4 ∨ t.status = 4#4)

/-! ### ENCODE -/

/-- R142, R143, R145: ENCODE, the whole next state.  If every symbol of TEXT has an entry, BITS is, in text order, the code of the
first entry that has the symbol; otherwise the index of the first symbol without an entry is reported and BITS becomes invalid; an
invalid TEXT is looked at before an invalid CODE. -/
def Obligations.EncodeConcatenatesCodes : Prop :=
  ∀ s : State,
    (s.text = none → exec .encode s = .next { s with bits := none, status := 8#4, errinfo := 0 }) ∧
    (s.text ≠ none → s.code = none → exec .encode s = .next { s with bits := none, status := 8#4, errinfo := 3 }) ∧
    (∀ x table, s.text = some x → s.code = some table → (∀ a ∈ x, a ∈ table.map CodeEntry.sym) →
      exec .encode s = .next { s with
        bits := some (x.flatMap fun a => ((table.find? fun e => e.sym == a).map CodeEntry.code).getD []),
        status := 0#4, errinfo := 0 }) ∧
    (∀ x a y table, s.text = some (x ++ a :: y) → s.code = some table → (∀ b ∈ x, b ∈ table.map CodeEntry.sym) →
      a ∉ table.map CodeEntry.sym →
      exec .encode s = .next { s with bits := none, status := 3#4, errinfo := x.length })

/-! ### DECODE -/

/-- R148, R149, R150, R151: DECODE, the whole next state.  With a single leaf every bit, whatever its value, is the lone symbol.  With
more leaves BITS is a sequence of root-to-leaf paths and a rest that leads from the root to an internal node: a rest that is not empty
is TruncatedStream with the number of symbols before it, first; then more than N_MAX symbols are CapacityExceeded; otherwise DTEXT is
the symbols of the leaves.  An invalid TREE is looked at before an invalid BITS. -/
def Obligations.DecodeReadsPathAfterPath : Prop :=
  ∀ s : State,
    (s.tree = none → exec .decode s = .next { s with dtext := none, status := 8#4, errinfo := 2 }) ∧
    (s.tree ≠ none → s.bits = none → exec .decode s = .next { s with dtext := none, status := 8#4, errinfo := 4 }) ∧
    (∀ i a w b, s.tree = some (.leaf i a w) → s.bits = some b →
      (b.length ≤ s.config.nMax →
        exec .decode s = .next { s with dtext := some (List.replicate b.length a), status := 0#4, errinfo := 0 }) ∧
      (s.config.nMax < b.length → exec .decode s = .next { s with dtext := none, status := 7#4, errinfo := 0 })) ∧
    (∀ t i w l r b, s.tree = some t → t = .node i w l r → s.bits = some b →
      ∃ (paths : List Bits) (x : List Symbol) (rest : Bits), b = paths.flatten ++ rest ∧
        List.Forall₂ (fun q a => ∃ j v, t.follow q = some (.leaf j a v)) paths x ∧
        (∃ j v l' r', t.follow rest = some (.node j v l' r')) ∧
        (rest ≠ [] → exec .decode s = .next { s with dtext := none, status := 4#4, errinfo := x.length }) ∧
        (rest = [] → s.config.nMax < x.length → exec .decode s = .next { s with dtext := none, status := 7#4, errinfo := 0 }) ∧
        (rest = [] → x.length ≤ s.config.nMax → exec .decode s = .next { s with dtext := some x, status := 0#4, errinfo := 0 }))

/-- R151: a decode that yields more than N_MAX symbols is CapacityExceeded: the codes of a longer text over the tree's symbols. -/
def Obligations.DecodeReportsCapacity : Prop :=
  ∀ (s : State) (t : Tree) (x : List Symbol), s.tree = some t → (∀ a ∈ x, a ∈ t.leafSymbols) →
    s.bits = some (x.flatMap fun a => (codeFor (codesOf t) a).getD []) → s.config.nMax < x.length →
    exec .decode s = .next { s with dtext := none, status := 7#4, errinfo := 0 }

/-- R149: bits that end inside a codeword, with the cursor at an internal node below the root, are TruncatedStream with the number of
symbols decoded before, and DTEXT becomes invalid; it takes precedence over CapacityExceeded (R151). -/
def Obligations.DecodeReportsTruncatedStream : Prop :=
  ∀ (s : State) (t : Tree) (x : List Symbol) (p : Bits) (i w : Nat) (l r : Tree), s.tree = some t →
    (∀ a ∈ x, a ∈ t.leafSymbols) → p ≠ [] → t.follow p = some (.node i w l r) →
    s.bits = some ((x.flatMap fun a => (codeFor (codesOf t) a).getD []) ++ p) →
    exec .decode s = .next { s with dtext := none, status := 4#4, errinfo := x.length }

/-- R233: with the table derived from the tree, ENCODE then DECODE gives back every text over the tree's symbols that DTEXT can hold,
the single-leaf tree included; the leaf symbols need not be distinct. -/
def Obligations.DecodeUndoesEncode : Prop :=
  ∀ (s : State) (t : Tree) (x : List Symbol), s.tree = some t → s.text = some x → (∀ a ∈ x, a ∈ t.leafSymbols) →
    x.length ≤ s.config.nMax →
    ∃ s1 s2 s3, exec .deriveCodes s = .next s1 ∧ exec .encode s1 = .next s2 ∧ exec .decode s2 = .next s3 ∧
      s1.status = 0#4 ∧ s2.status = 0#4 ∧ s3.status = 0#4 ∧ s3.dtext = some x

/-! ### PACK and UNPACK -/

/-- R161: PACK writes p = (8 − L mod 8) mod 8 and (L + p) / 8 bytes; bit i of BITS lies in byte (p + i) div 8 at bit position
7 − ((p + i) mod 8), and the p most significant bits of byte 0 are 0; an invalid BITS is OperandNotReady(4); nothing else changes. -/
def Obligations.PackPlacesBits : Prop :=
  ∀ s : State,
    (s.bits = none → exec .pack s = .next { s with bytes := none, pad := none, status := 8#4, errinfo := 4 }) ∧
    ∀ b, s.bits = some b →
      ∃ bytes, exec .pack s = .next { s with
          bytes := some bytes, pad := some (BitVec.ofNat 8 ((8 - b.length % 8) % 8)), status := 0#4, errinfo := 0 } ∧
        bytes.length = (b.length + (8 - b.length % 8) % 8) / 8 ∧
        (∀ i < b.length, (bytes[((8 - b.length % 8) % 8 + i) / 8]?).map
            (fun y => y.getLsbD (7 - ((8 - b.length % 8) % 8 + i) % 8)) = b[i]?) ∧
        (∀ i < (8 - b.length % 8) % 8, (bytes[0]?).map (fun y => y.getLsbD (7 - i)) = some false)

/-- R163: what holds after a successful PACK of a bitstring of length L, (a) to (f). -/
def Obligations.PackKeepsTheContainerInvariant : Prop :=
  ∀ (s : State) (b : Bits), s.bits = some b →
    ∃ t p bytes, exec .pack s = .next t ∧ t.pad = some p ∧ t.bytes = some bytes ∧
      p.toNat ≤ 7 ∧ (p.toNat + b.length) % 8 = 0 ∧ bytes.length = (b.length + 7) / 8 ∧
      bytes.length = (b.length + p.toNat) / 8 ∧ 8 * bytes.length - p.toNat = b.length ∧
      (∀ i < p.toNat, (bytes[0]?).map (fun y => y.getLsbD (7 - i)) = some false) ∧ (b.length % 8 = 0 → p = 0#8) ∧ (b.length = 1 → p = 7#8)

/-- R166, R167, R168: UNPACK, the whole next state.  With a padding count that can be dropped: 8 · BYTES_LEN − PAD bits, bit i the bit
of BYTES at place PAD + i, most significant bit of each byte first, the dropped bits not looked at.  A padding count above 7, or above
the number of bits there are, is InvalidPadding.  An invalid BYTES is looked at before an invalid PAD. -/
def Obligations.UnpackExpandsAndDrops : Prop :=
  ∀ s : State,
    (s.bytes = none → exec .unpack s = .next { s with bits := none, status := 8#4, errinfo := 5 }) ∧
    (s.bytes ≠ none → s.pad = none → exec .unpack s = .next { s with bits := none, status := 8#4, errinfo := 6 }) ∧
    ∀ bytes p, s.bytes = some bytes → s.pad = some p →
      (p.toNat ≤ 7 → p.toNat ≤ 8 * bytes.length →
        ∃ b, exec .unpack s = .next { s with bits := some b, status := 0#4, errinfo := 0 } ∧
          b.length = 8 * bytes.length - p.toNat ∧
          ∀ i, b[i]? = (bytes[(p.toNat + i) / 8]?).map fun y => y.getLsbD (7 - (p.toNat + i) % 8)) ∧
      (7 < p.toNat ∨ 8 * bytes.length < p.toNat →
        exec .unpack s = .next { s with bits := none, status := 5#4, errinfo := p.toNat })

/-- R222, R170: from any state with BITS valid, PACK then UNPACK end with both STATUS 0 and BITS unchanged. -/
def Obligations.UnpackUndoesPack : Prop :=
  ∀ (s : State) (b : Bits), s.bits = some b →
    ∃ t u, exec .pack s = .next t ∧ exec .unpack t = .next u ∧ t.status = 0#4 ∧ u.status = 0#4 ∧ u.bits = some b

/-! ### SERIALIZE and DESERIALIZE -/

/-- R177, R88 to R96, R98: SERIALIZE with a padding count of 0 to 7, the whole next state.  The blob is ARITY, the number of bytes in
four bytes and the bytes, the tree's record, the number of entries in two bytes and the entries in CODE order, PAD.  What the pieces
are: a record as in R91 and R93, an entry as in R95 (the q = (8 − c mod 8) mod 8 front bits 0 and the code behind them), numbers
big-endian (R64; of a number that does not fit its field the low bytes, which no run reaches, log 12); the length is that of R98 for
m leaves and code lengths c_1 to c_K. -/
def Obligations.SerializeWritesABlob : Prop :=
  ∀ (s : State) (t : Tree) (table : List CodeEntry) (bytes : List Byte) (p : Byte), s.tree = some t →
    s.code = some table → s.bytes = some bytes → s.pad = some p → p.toNat ≤ 7 →
    (∃ z, exec .serialize s = .next { s with blob := some z, status := 0#4, errinfo := 0 } ∧
      z = [0x04#8] ++ beN 4 bytes.length ++ bytes ++ t.wire s.config ++ beN 2 table.length ++
        table.flatMap (entryWire s.config) ++ [p] ∧
      z.length = 1 + 4 + bytes.length +
        (t.leafSymbols.length * (1 + s.config.symb) + (t.leafSymbols.length - 1)) + 2
        + (table.map fun e => s.config.symb + 2 + (e.code.length + 7) / 8).sum + 1) ∧
    (∀ i a w, (Machine.Tree.leaf i a w).wire s.config = 0x01#8 :: beN s.config.symb a) ∧
    (∀ i w l r, (Machine.Tree.node i w l r).wire s.config = 0x00#8 :: (l.wire s.config ++ r.wire s.config)) ∧
    (∀ e : CodeEntry, ∃ cb, entryWire s.config e = beN s.config.symb e.sym ++ beN 2 e.code.length ++ cb ∧
      cb.length = (e.code.length + 7) / 8 ∧
      ∀ j < 8 * cb.length, (cb[j / 8]?).map (fun y => y.getLsbD (7 - j % 8)) =
        (List.replicate ((8 - e.code.length % 8) % 8) false ++ e.code)[j]?) ∧
    ∀ n v, (beN n v).length = n ∧
      ∀ j < n, ((beN n v)[j]?).map BitVec.toNat = some (v / 256 ^ (n - 1 - j) % 256)

/-- R178: SERIALIZE with a padding count of 8 to 255 is InvalidPadding. -/
def Obligations.SerializeRejectsBadPadding : Prop :=
  ∀ (s : State) (t : Tree) (table : List CodeEntry) (bytes : List Byte) (p : Byte), s.tree = some t →
    s.code = some table → s.bytes = some bytes → s.pad = some p → 7 < p.toNat →
    exec .serialize s = .next { s with blob := none, status := 5#4, errinfo := p.toNat }

/-- R101, R229: the container of "abracadabra" is these 45 bytes, from three packed bytes, a padding count of 1 and 23 bits; the
frequencies are the source's, and DECOMPRESS of the container gives the text again. -/
def Obligations.AbracadabraContainer : Prop :=
  let x : List Symbol := [97, 98, 114, 97, 99, 97, 100, 97, 98, 114, 97]
  let z : List Byte :=
    [0x04, 0x00, 0x00, 0x00, 0x03, 0x37, 0x45, 0x6e, 0x00, 0x01, 0x61, 0x00, 0x00, 0x01, 0x63, 0x01, 0x64, 0x00, 0x01, 0x62,
     0x01, 0x72, 0x00, 0x05, 0x61, 0x00, 0x01, 0x00, 0x63, 0x00, 0x03, 0x04, 0x64, 0x00, 0x03, 0x05, 0x62, 0x00, 0x03, 0x06,
     0x72, 0x00, 0x03, 0x07, 0x01]
  ∃ t u, exec .compress { State.reset with text := some x } = .next t ∧ t.status = 0#4 ∧ t.blob = some z ∧
    t.freq = some [⟨97, 5⟩, ⟨98, 2⟩, ⟨114, 2⟩, ⟨99, 1⟩, ⟨100, 1⟩] ∧
    t.regRead .bytesLen = some 3 ∧ t.regRead .pad = some 1 ∧ t.regRead .bitsLen = some 23 ∧ 3 * 8 - 1 = 23 ∧
    exec .decompress { State.reset with blob := some z } = .next u ∧ u.status = 0#4 ∧ u.dtext = some x ∧
    u.bytes = t.bytes ∧ u.code = t.code ∧ u.pad = t.pad

/-- R226: the text "aaaa": a one-leaf tree, a one-entry code table, four bits, one byte, and the text again. -/
def Obligations.SingleSymbolInput : Prop :=
  ∃ t u, exec .compress { State.reset with text := some [97, 97, 97, 97] } = .next t ∧ exec .decompress t = .next u ∧
    t.freq = some [⟨97, 4⟩] ∧ t.tree = some (.leaf 0 97 4) ∧ t.code = some [⟨97, [false]⟩] ∧
    t.bits = some [false, false, false, false] ∧ t.bytes = some [0x00] ∧ t.pad = some 4#8 ∧
    t.status = 0#4 ∧ u.status = 0#4 ∧ u.dtext = some [97, 97, 97, 97]

/-- R99, R182, R184, R186, R187: DESERIALIZE of a valid BLOB, by what the blob is.  A blob "of the form of rules R88 to R97"
(`IsBlobOf`; the dropped front bits of its entries may hold any value, R95) whose bytes, nodes, entries or code bits are more than the
block can hold is CapacityExceeded, with all four destinations invalid; one within the capacities is accepted whatever else it says:
BYTES, CODE and PAD are the container's and TREE is its tree in pre-order with weights 0.  Every other byte sequence is
CorruptContainer at an offset of the blob (which one, `DeserializeNamesTheFirstViolation`). -/
def Obligations.DeserializeChecksCapacities : Prop :=
  ∀ (s : State) (z : List Byte), s.blob = some z →
    (∀ k, IsBlobOf s.config k z →
      (s.config.bytesMax < k.bytes.length ∨ s.config.nodeMax < k.tree.size ∨ s.config.codeMax < k.codes.length ∨
          (∃ e ∈ k.codes, s.config.codelenMax < e.code.length) →
        exec .deserialize s = .next { s with
          bytes := none, tree := none, code := none, pad := none, treeKind := .built, status := 7#4, errinfo := 0 }) ∧
      (k.bytes.length ≤ s.config.bytesMax → k.tree.size ≤ s.config.nodeMax → k.codes.length ≤ s.config.codeMax →
          (∀ e ∈ k.codes, e.code.length ≤ s.config.codelenMax) →
        ∃ t, exec .deserialize s = .next { s with
            bytes := some k.bytes, tree := some t, code := some k.codes, pad := some k.pad, treeKind := .recon,
            status := 0#4, errinfo := 0 } ∧
          t.shape = k.tree.shape ∧ t.indices = List.range t.size ∧ t.weightless = true)) ∧
    ((∀ k, ¬ IsBlobOf s.config k z) → ∃ off ≤ z.length, exec .deserialize s = .next { s with
      bytes := none, tree := none, code := none, pad := none, treeKind := .built, status := 6#4, errinfo := off })

/-- R223: from any state with BYTES, TREE, CODE, PAD valid and PAD ≤ 7, each within its capacity (`State.wf`, whose invariance is
`StepKeepsWellFormed`), SERIALIZE then DESERIALIZE end with both STATUS 0; BYTES, CODE and PAD are unchanged and TREE has the same
shape and leaf symbols, with weights 0, pre-order indices and TREE_KIND RECON (R186). -/
def Obligations.DeserializeUndoesSerialize : Prop :=
  ∀ (s : State) (t : Tree) (table : List CodeEntry) (bytes : List Byte) (p : Byte), s.wf →
    s.tree = some t → s.code = some table → s.bytes = some bytes → s.pad = some p → p.toNat ≤ 7 →
    ∃ s1 s2 t', exec .serialize s = .next s1 ∧ exec .deserialize s1 = .next s2 ∧ s1.status = 0#4 ∧ s2.status = 0#4 ∧
      s2.bytes = some bytes ∧ s2.code = some table ∧ s2.pad = some p ∧ s2.tree = some t' ∧ t'.shape = t.shape ∧
      t'.indices = List.range t'.size ∧ t'.weightless = true ∧ s2.treeKind = .recon

/-- R189: every proper prefix of a blob that DESERIALIZE accepts is CorruptContainer with ERRINFO its length, and leaves all four
destinations invalid. -/
def Obligations.DeserializeRejectsProperPrefixes : Prop :=
  ∀ (s t : State) (z : List Byte) (n : Nat), s.blob = some z → exec .deserialize s = .next t → t.status = 0#4 →
    n < z.length →
    exec .deserialize { s with blob := some (z.take n) } = .next { s with
      blob := some (z.take n), bytes := none, tree := none, code := none, pad := none, treeKind := .built,
      status := 6#4, errinfo := n }

/-- R183, R99: CorruptContainer, the complete list of causes with the ERRINFO of each.  `Violation` is the rule's table: byte 0 not
0x04 at 0; the blob ending before a part is complete (the empty blob, an L, a c, a tree or a symbol that asks for more bytes than are
left) at its length; a byte 0x02 to 0xFF for a tag at that byte; a symbol field with a bit set above SYM_W at the field's first byte;
a padding byte of 8 to 255 at that byte; bytes behind the padding byte at the first of them.  DESERIALIZE ends in CorruptContainer
with ERRINFO `off` and all four destinations invalid exactly where the blob has a violation at `off`, and a byte sequence has one
exactly when it is no blob. -/
def Obligations.DeserializeNamesTheFirstViolation : Prop :=
  ∀ (s : State) (z : List Byte), s.blob = some z →
    (∀ off, exec .deserialize s = .next { s with
        bytes := none, tree := none, code := none, pad := none, treeKind := .built, status := 6#4, errinfo := off } ↔
      Violation s.config z off) ∧
    ((∃ off, Violation s.config z off) ↔ ∀ k, ¬ IsBlobOf s.config k z)

/-! ### COMPRESS, DECOMPRESS, CLEAR -/

/-- R202: COMPRESS fails in exactly two ways, on an invalid and on an empty TEXT, and then leaves all seven destinations invalid; for
every other TEXT it succeeds and leaves all seven valid. -/
def Obligations.CompressSucceedsOnEveryText : Prop :=
  ∀ s : State, ∃ t, exec .compress s = .next t ∧
    (s.text = none → t.status = 8#4 ∧ t.errinfo = 0 ∧ ∀ b ∈ destinations .compress, t.isValid b = false) ∧
    (s.text = some [] → t.status = 1#4 ∧ t.errinfo = 0 ∧ ∀ b ∈ destinations .compress, t.isValid b = false) ∧
    (∀ x, s.text = some x → x ≠ [] → t.status = 0#4 ∧ t.errinfo = 0 ∧ t.treeKind = .built ∧
      ∀ b ∈ destinations .compress, t.isValid b = true)

/-- R201: on a text that is not empty COMPRESS ends in the state in which the six commands, issued one by one, end. -/
def Obligations.CompressIsTheSixCommands : Prop :=
  ∀ (s : State) (x : List Symbol), s.text = some x → x ≠ [] →
    ∃ s1 s2 s3 s4 s5 s6, exec .analyze s = .next s1 ∧ exec .buildTree s1 = .next s2 ∧ exec .deriveCodes s2 = .next s3 ∧
      exec .encode s3 = .next s4 ∧ exec .pack s4 = .next s5 ∧ exec .serialize s5 = .next s6 ∧
      exec .compress s = .next s6

/-- R231: after a COMPRESS BITS_LEN is the sum over FREQ of cnt · len(code of sym), and with at least two distinct symbols it is the
sum of the weights of all internal nodes of the tree. -/
def Obligations.PayloadLengthIsWeightedPathLength : Prop :=
  ∀ (s : State) (x : List Symbol), s.text = some x → x ≠ [] →
    ∃ t f table tree b, exec .compress s = .next t ∧ t.freq = some f ∧ t.code = some table ∧ t.tree = some tree ∧
      t.bits = some b ∧
      b.length = (f.map fun e => e.cnt * ((codeFor table e.sym).getD []).length).sum ∧
      (2 ≤ f.length → b.length = tree.internalWeight)

/-- R206: COMPRESS of a valid text that is not empty and then DECOMPRESS succeed, and DTEXT = TEXT; BYTES, CODE, PAD and BITS are what
COMPRESS had written; TREE has the same shape and leaf symbols, now RECON with weights 0.  (For a block with any legal parameters.) -/
def Obligations.DecompressUndoesCompress : Prop :=
  ∀ (s : State) (x : List Symbol), s.config.legal = true → s.text = some x → x ≠ [] → x.length ≤ s.config.nMax →
    (∀ a ∈ x, a < 2 ^ s.config.symW) →
    ∃ t u t' u', exec .compress s = .next t ∧ exec .decompress t = .next u ∧ t.status = 0#4 ∧ u.status = 0#4 ∧
      u.dtext = some x ∧ u.text = some x ∧ u.bytes = t.bytes ∧ u.code = t.code ∧ u.pad = t.pad ∧ u.bits = t.bits ∧
      t.tree = some t' ∧ u.tree = some u' ∧ u'.shape = t'.shape ∧ u'.weightless = true ∧ u.treeKind = .recon

/-- R220, R214: the blob alone restores the text, whatever legal parameters the blocks have: loaded into any block with the same
parameters ("a blob that DESERIALIZE of the same parameters accepts"), the BLOB of a COMPRESS makes DECOMPRESS end with DTEXT the text
that was compressed. -/
def Obligations.RoundTripForEveryLegalConfig : Prop :=
  ∀ (s u : State) (x : List Symbol), s.config.legal = true → u.config = s.config → s.text = some x → x ≠ [] →
    x.length ≤ s.config.nMax → (∀ a ∈ x, a < 2 ^ s.config.symW) →
    ∃ t z v, exec .compress s = .next t ∧ t.status = 0#4 ∧ t.blob = some z ∧ z.length ≤ s.config.blobMax ∧
      exec .decompress { u with blob := some z } = .next v ∧ v.status = 0#4 ∧ v.errinfo = 0 ∧ v.dtext = some x

/-- R221: from any state with TEXT valid and not empty (and short enough for DTEXT, as a valid TEXT is, R31) the sequence ANALYZE,
BUILD_TREE, DERIVE_CODES, ENCODE, DECODE ends with every STATUS along the way 0 and DTEXT = TEXT. -/
def Obligations.RoundTripBySingleCommands : Prop :=
  ∀ (s : State) (x : List Symbol), s.text = some x → x ≠ [] → x.length ≤ s.config.nMax →
    ∃ s1 s2 s3 s4 s5, exec .analyze s = .next s1 ∧ exec .buildTree s1 = .next s2 ∧ exec .deriveCodes s2 = .next s3 ∧
      exec .encode s3 = .next s4 ∧ exec .decode s4 = .next s5 ∧
      s1.status = 0#4 ∧ s2.status = 0#4 ∧ s3.status = 0#4 ∧ s4.status = 0#4 ∧ s5.status = 0#4 ∧ s5.dtext = some x

/-- R204, R205: DECOMPRESS on any blob, whoever wrote it.  It ends where DESERIALIZE, UNPACK and DECODE, issued one by one, end, the
first that fails ending it: the destinations of the steps that succeeded stay valid, those of the failed step and of the steps after it
are invalid.  It ends with STATUS 0, 4, 5, 6, 7 or 8, DTEXT valid exactly on success; after CorruptContainer or OperandNotReady all six
destinations are invalid; after TruncatedStream BYTES, TREE, CODE, PAD and BITS are valid; InvalidPadding comes only of an empty payload
with a padding count of 1 to 7, and then BYTES, TREE, CODE and PAD are valid. -/
def Obligations.DecompressFailureKinds : Prop :=
  ∀ s : State, ∃ s1 s2 s3 t, exec .deserialize s = .next s1 ∧ exec .unpack s1 = .next s2 ∧ exec .decode s2 = .next s3 ∧
    exec .decompress s = .next t ∧
    (s1.status ≠ 0#4 → t = { s1 with bits := none, dtext := none }) ∧
    (s1.status = 0#4 → s2.status ≠ 0#4 → t = { s2 with dtext := none }) ∧
    (s1.status = 0#4 → s2.status = 0#4 → t = s3) ∧
    (t.status = 0#4 ∨ t.status = 4#4 ∨ t.status = 5#4 ∨ t.status = 6#4 ∨ t.status = 7#4 ∨ t.status = 8#4) ∧
    (t.isValid .dtext = true ↔ t.status = 0#4) ∧
    (t.status = 6#4 ∨ t.status = 8#4 → ∀ b ∈ destinations .decompress, t.isValid b = false) ∧
    (t.status = 4#4 → ∀ b ∈ [BufId.bytes, .tree, .code, .pad, .bits], t.isValid b = true) ∧
    (t.status = 5#4 → t.bytes = some [] ∧ t.isValid .tree = true ∧ t.isValid .code = true ∧ t.isValid .bits = false ∧
      ∃ p : Byte, t.pad = some p ∧ 1 ≤ p.toNat ∧ p.toNat ≤ 7 ∧ t.errinfo = p.toNat)

/-- R228: a blob SERIALIZE wrote with its last byte removed makes DECOMPRESS end with STATUS 6, ERRINFO the shortened length and DTEXT
invalid. -/
def Obligations.DecompressRejectsATruncatedBlob : Prop :=
  ∀ (s t : State) (z : List Byte), s.wf → exec .serialize s = .next t → t.status = 0#4 → t.blob = some z →
    ∃ u, exec .decompress { t with blob := some z.dropLast } = .next u ∧ u.status = 6#4 ∧
      u.errinfo = z.dropLast.length ∧ u.isValid .dtext = false

/-- R207: CLEAR cannot fail: in any state it takes every buffer's value and makes TREE_KIND, STATUS and ERRINFO 0, as in the reset
state, and so VALID, NODE_CNT and ROOT 0. -/
def Obligations.ClearReturnsToReset : Prop :=
  ∀ s : State, ∃ t, exec .clear s = .next t ∧
    t = { s with text := none, freq := none, tree := none, code := none, bits := none, bytes := none, pad := none, blob := none,
                 dtext := none, treeKind := .built, status := 0#4, errinfo := 0 } ∧
    (∀ b, sameBuffer t State.reset b) ∧ t.treeKind = State.reset.treeKind ∧ t.status = State.reset.status ∧
    t.errinfo = State.reset.errinfo ∧ t.validReg = 0#9 ∧ t.nodeCnt = 0 ∧ t.root = 0

/-! ### Invariants of every step -/

/-- R6, R7, R23, R26, R30 to R41, R34 to R36: every step keeps every buffer within its type and capacity, the tree laid out and
weighted as its kind says, STATUS at most 9 and ERRINFO within its bound (log 6), whatever legal parameters the block has; and it never
changes them (log 5). -/
def Obligations.StepKeepsWellFormed : Prop := ∀ s t : State, s.wf → step s = .next t → t.wf ∧ t.config = s.config

/-- R6: the configuration record.  The derived parameters are the table's functions of SYM_W, N_MAX, CNT_W and INFO_W; a parameter set
is legal exactly when it meets the constraint column; the default set has the default column's values and is legal; and a block with
any legal parameters is well formed after reset (R45), the one of `State.reset` having the defaults (the model's choice, log 5). -/
def Obligations.ResetIsWellFormed : Prop :=
  (∀ c : Config, c.symb = (c.symW + 7) / 8 ∧ c.kMax = 2 ^ c.symW ∧ c.weightW = c.cntW + c.symW ∧ c.nodeMax = 2 * c.kMax - 1 ∧
    c.codeMax = c.kMax ∧ c.codelenMax = c.kMax - 1 ∧ c.bytesMax = (c.nMax * c.codelenMax + 7) / 8 ∧ c.bitsMax = 8 * c.bytesMax ∧
    c.blobMax = 1 + 4 + c.bytesMax + (c.kMax * (1 + c.symb) + c.kMax - 1) +
      (2 + c.codeMax * (c.symb + 2 + (c.codelenMax + 7) / 8)) + 1 ∧
    (c.legal = true ↔ 1 ≤ c.symW ∧ c.symW ≤ 32 ∧ 1 ≤ c.nMax ∧ c.nMax < 2 ^ 32 ∧ c.nMax < 2 ^ c.cntW ∧ c.codeMax < 2 ^ 16 ∧
      c.codelenMax < 2 ^ 16 ∧ c.bytesMax < 2 ^ 32 ∧ c.blobMax < 2 ^ c.infoW ∧ c.nMax < 2 ^ c.infoW) ∧
    (c.legal = true → (State.resetWith c).wf ∧ (State.resetWith c).config = c)) ∧
  (Config.huffcore.symW = 8 ∧ Config.huffcore.symb = 1 ∧ Config.huffcore.kMax = 256 ∧ Config.huffcore.nMax = 65535 ∧
    Config.huffcore.cntW = 16 ∧ Config.huffcore.weightW = 24 ∧ Config.huffcore.nodeMax = 511 ∧ Config.huffcore.codeMax = 256 ∧
    Config.huffcore.codelenMax = 255 ∧ Config.huffcore.bytesMax = 2088929 ∧ Config.huffcore.bitsMax = 16711432 ∧
    Config.huffcore.blobMax = 2098664 ∧ Config.huffcore.infoW = 32 ∧ Config.huffcore.infoBound = 2 ^ 32 ∧
    Config.huffcore.legal = true) ∧
  State.reset = State.resetWith Config.huffcore

/-- R34: a well-formed TREE read as an arena has NODE_CNT records and `tree_of(ROOT)` is the tree; NODE_CNT is odd (R35). -/
def Obligations.ArenaReadsBackAsTheTree : Prop :=
  ∀ (s : State) (t : Tree), s.wf → s.tree = some t →
    t.arena.length = s.nodeCnt ∧ treeOf t.arena s.nodeCnt s.root = some t ∧ s.nodeCnt % 2 = 1 ∧ s.nodeCnt ≤ s.config.nodeMax
end

