-- ==== Sys2Proof/Laws/Bits.lean ====
section
/-! SUPPORT. Numbers, bytes and bits: the laws of `beN`/`fromBe`, `bits8`/`byteOf` and of PACK and UNPACK on plain values
(spec/43_bit_packer.md R161 to R170). -/

namespace Sys2Proof.Machine

/-! ### Big-endian numbers -/

@[simp] theorem beN_length (n v : Nat) : (beN n v).length = n := by
  induction n with
  | zero => rfl
  | succ n ih => simp [beN, ih]

theorem foldl_be (s : List Byte) (a : Nat) :
    s.foldl (fun acc b => 256 * acc + b.toNat) a = a * 256 ^ s.length + fromBe s := by
  induction s generalizing a with
  | nil => simp [fromBe]
  | cons b s ih =>
    rw [List.foldl_cons, ih]
    simp only [fromBe, List.foldl_cons, List.length_cons]
    rw [ih (256 * 0 + b.toNat)]
    simp only [fromBe]; ring

theorem fromBe_cons (b : Byte) (s : List Byte) : fromBe (b :: s) = b.toNat * 256 ^ s.length + fromBe s := by
  rw [fromBe, List.foldl_cons, foldl_be]; simp

theorem fromBe_lt (s : List Byte) : fromBe s < 256 ^ s.length := by
  induction s with
  | nil => simp [fromBe]
  | cons b s ih =>
    rw [fromBe_cons, List.length_cons, pow_succ]
    have := b.isLt
    nlinarith [Nat.zero_le (256 ^ s.length)]

theorem fromBe_beN_mod (n v : Nat) : fromBe (beN n v) = v % 256 ^ n := by
  induction n generalizing v with
  | zero => simp [beN, fromBe, Nat.mod_one]
  | succ n ih =>
    rw [beN, fromBe_cons, ih, beN_length, BitVec.toNat_ofNat, pow_succ 256 n, Nat.mod_mul]
    norm_num; ring

/-- `from_be` is the inverse of `be_N` on numbers that fit N bytes (R10). -/
theorem fromBe_beN (n v : Nat) (h : v < 256 ^ n) : fromBe (beN n v) = v := by
  rw [fromBe_beN_mod, Nat.mod_eq_of_lt h]

/-! ### Bytes and their bits -/

@[simp] theorem bits8_length (b : Byte) : (bits8 b).length = 8 := rfl

/-- Bit `j` of a byte's expansion is its bit `7 − j` (R63). -/
theorem bits8_getElem (b : Byte) (j : Nat) (h : j < 8) : (bits8 b)[j]'(by simpa using h) = b.getLsbD (7 - j) := by
  interval_cases j <;> rfl

/-- `byte_of` is the inverse of `bits8` (R10). -/
theorem byteOf_bits8 (b : Byte) : byteOf (bits8 b) = b := by
  revert b; decide

theorem bits8_byteOf (s : Bits) (h : s.length = 8) : bits8 (byteOf s) = s := by
  match s, h with
  | [a, b, c, d, e, f, g, i], _ => revert a b c d e f g i; decide

/-! ### PACK -/

theorem padCount_lt (len : Nat) : padCount len < 8 := Nat.mod_lt _ (by decide)

theorem padCount_add (len : Nat) : (len + padCount len) % 8 = 0 := by
  unfold padCount; omega

theorem padCount_div (len : Nat) : (len + padCount len) / 8 = (len + 7) / 8 := by
  unfold padCount; omega

@[simp] theorem groupBytes_length (m : Nat) (x : Bits) : (groupBytes m x).length = m := by
  induction m generalizing x with
  | zero => rfl
  | succ m ih => simp [groupBytes, ih]

theorem unpackBytes_groupBytes (m : Nat) (x : Bits) (h : x.length = 8 * m) : unpackBytes (groupBytes m x) = x := by
  induction m generalizing x with
  | zero => simpa [groupBytes, unpackBytes] using h
  | succ m ih =>
    have h8 : (x.take 8).length = 8 := by simp; omega
    have ih' := ih (x.drop 8) (by simp; omega)
    unfold unpackBytes at ih' ⊢
    rw [groupBytes, List.flatMap_cons, ih', bits8_byteOf _ h8, List.take_append_drop]

@[simp] theorem packBits_length (b : Bits) : (packBits b).length = (b.length + 7) / 8 := by
  simp [packBits, padCount_div]

/-- Every byte gives eight bits. -/
@[simp] theorem unpackBytes_length (bs : List Byte) : (unpackBytes bs).length = 8 * bs.length := by
  induction bs with
  | nil => rfl
  | cons b bs ih =>
    have : unpackBytes (b :: bs) = bits8 b ++ unpackBytes bs := rfl
    rw [this, List.length_append, ih, bits8_length, List.length_cons]; omega

/-- The bits of PACK's bytes are the padding and then the bitstring (R161). -/
theorem unpackBytes_packBits (b : Bits) :
    unpackBytes (packBits b) = List.replicate (padCount b.length) false ++ b := by
  apply unpackBytes_groupBytes
  have := padCount_add b.length
  simp; omega

/-- Bit `j` of an unpacked byte sequence is bit `7 − j mod 8` of byte `j div 8` (R63). -/
theorem unpackBytes_getElem? (bs : List Byte) (j : Nat) :
    (unpackBytes bs)[j]? = (bs[j / 8]?).map fun b => b.getLsbD (7 - j % 8) := by
  induction bs generalizing j with
  | nil => simp [unpackBytes]
  | cons b bs ih =>
    have hb : unpackBytes (b :: bs) = bits8 b ++ unpackBytes bs := rfl
    rw [hb]
    by_cases h : j < 8
    · rw [List.getElem?_append_left (by simpa using h), Nat.div_eq_of_lt h, Nat.mod_eq_of_lt h,
        List.getElem?_eq_getElem (by simpa using h), bits8_getElem b j h]
      rfl
    · obtain ⟨i, rfl⟩ : ∃ i, j = i + 8 := ⟨j - 8, by omega⟩
      rw [List.getElem?_append_right (by simp), bits8_length, Nat.add_sub_cancel, ih i,
        Nat.add_div_right i (by decide), Nat.add_mod_right]
      simp

/-- PACK then dropping the padding count gives the bitstring back (R170, R222). -/
theorem drop_unpackBytes_packBits (b : Bits) : (unpackBytes (packBits b)).drop (padCount b.length) = b := by
  rw [unpackBytes_packBits, List.drop_append_of_le_length (by simp)]; simp

/-- UNPACK's function after PACK's (R170). -/
theorem unpackBits_packBits (b : Bits) : unpackBits (packBits b) (BitVec.ofNat 8 (padCount b.length)) = .ok b := by
  have hp := padCount_lt b.length
  have hn : (BitVec.ofNat 8 (padCount b.length)).toNat = padCount b.length := by
    rw [BitVec.toNat_ofNat, Nat.mod_eq_of_lt (by omega)]
  have hl : padCount b.length ≤ 8 * ((b.length + 7) / 8) := by unfold padCount; omega
  unfold unpackBits
  rw [hn, packBits_length, if_neg (by omega), if_neg (by omega), drop_unpackBytes_packBits]

/-- Everything UNPACK's function can do (R166, R167). -/
theorem unpackBits_spec (bs : List Byte) (p : Byte) :
    (p.toNat ≤ 7 ∧ p.toNat ≤ 8 * bs.length ∧ unpackBits bs p = .ok ((unpackBytes bs).drop p.toNat)) ∨
      ((7 < p.toNat ∨ 8 * bs.length < p.toNat) ∧ unpackBits bs p = .error (.invalidPadding p)) := by
  unfold unpackBits
  by_cases h1 : 7 < p.toNat
  · exact .inr ⟨.inl h1, by rw [if_pos h1]⟩
  · by_cases h2 : 8 * bs.length < p.toNat
    · exact .inr ⟨.inr h2, by rw [if_neg h1, if_pos h2]⟩
    · exact .inl ⟨by omega, by omega, by rw [if_neg h1, if_neg h2]⟩

end Sys2Proof.Machine
end

