-- ==== Sys2Proof/Laws/Build.lean ====
section
/-! SUPPORT. What BUILD_TREE's tree is (spec/41_tree_builder.md R121 to R128). -/

namespace Sys2Proof.Machine

/-! ### Trees and their arena -/

@[simp] theorem Tree.idx_leaf (i s w : Nat) : (Tree.leaf i s w).idx = i := rfl
@[simp] theorem Tree.idx_node (i w : Nat) (l r : Tree) : (Tree.node i w l r).idx = i := rfl
@[simp] theorem Tree.weight_leaf (i s w : Nat) : (Tree.leaf i s w).weight = w := rfl
@[simp] theorem Tree.weight_node (i w : Nat) (l r : Tree) : (Tree.node i w l r).weight = w := rfl
@[simp] theorem Tree.size_leaf (i s w : Nat) : (Tree.leaf i s w).size = 1 := rfl
@[simp] theorem Tree.size_node (i w : Nat) (l r : Tree) : (Tree.node i w l r).size = 1 + l.size + r.size := rfl

theorem Tree.size_pos (t : Tree) : 0 < t.size := by cases t <;> simp [Nat.add_assoc]

theorem Tree.indices_length (t : Tree) : t.indices.length = t.size := by
  induction t with
  | leaf => rfl
  | node i w l r hl hr => simp [Tree.indices, Tree.size, hl, hr]; omega

theorem Tree.records_fst (t : Tree) : t.records.map Prod.fst = t.indices := by
  induction t with
  | leaf => rfl
  | node i w l r hl hr => simp [Tree.records, Tree.indices, hl, hr]

theorem Tree.idx_mem_indices (t : Tree) : t.idx ∈ t.indices := by cases t <;> simp [Tree.idx, Tree.indices]

theorem lookup_of_mem {α : Type} (l : List (Nat × α)) (h : (l.map Prod.fst).Nodup) {i : Nat} {x : α} (hx : (i, x) ∈ l) :
    l.lookup i = some x := by
  induction l with
  | nil => simp at hx
  | cons p l ih =>
    obtain ⟨j, y⟩ := p
    rw [List.map_cons, List.nodup_cons] at h
    rcases List.mem_cons.1 hx with e | e
    · cases e; simp
    · have : i ≠ j := fun hij => h.1 (hij ▸ List.mem_map.2 ⟨(i, x), e, rfl⟩)
      rw [List.lookup_cons]
      simp [beq_false_of_ne this, ih h.2 e]

theorem getElem?_filterMap_range {α : Type} (f : Nat → Option α) (n : Nat) (h : ∀ i < n, (f i).isSome) (i : Nat) (hi : i < n) :
    ((List.range n).filterMap f)[i]? = f i ∧ ((List.range n).filterMap f).length = n := by
  induction n generalizing i with
  | zero => omega
  | succ n ih =>
    obtain ⟨x, hx⟩ := Option.isSome_iff_exists.1 (h n (by omega))
    have hlen : ((List.range n).filterMap f).length = n := by
      cases n with
      | zero => rfl
      | succ m => exact (ih (fun i hi => h i (by omega)) m (by omega)).2
    rw [List.range_succ, List.filterMap_append]
    simp only [List.filterMap_cons, hx, List.filterMap_nil, List.length_append, hlen, List.length_singleton, and_true]
    by_cases hin : i < n
    · rw [List.getElem?_append_left (by omega)]
      exact (ih (fun i hi => h i (by omega)) i hin).1
    · have : i = n := by omega
      subst this
      rw [List.getElem?_append_right (by omega), hlen]; simp [hx]

/-- A tree whose indices are 0 to NODE_CNT − 1 each once: its arena has NODE_CNT records, each node's at its index (R34). -/
theorem Tree.arena_spec (t : Tree) (h : t.indices.Perm (List.range t.size)) :
    t.arena.length = t.size ∧ ∀ p ∈ t.records, t.arena[p.1]? = some p.2 := by
  have hnd : (t.records.map Prod.fst).Nodup := by rw [t.records_fst]; exact h.nodup_iff.2 List.nodup_range
  have hall : ∀ i < t.size, (t.records.lookup i).isSome := by
    intro i hi
    have : i ∈ t.records.map Prod.fst := by rw [t.records_fst, h.mem_iff]; simpa using hi
    obtain ⟨⟨j, x⟩, hm, rfl⟩ := List.mem_map.1 this
    rw [lookup_of_mem _ hnd hm]; rfl
  refine ⟨(getElem?_filterMap_range _ _ hall 0 t.size_pos).2, ?_⟩
  rintro ⟨i, x⟩ hm
  have hi : i < t.size := by
    have : i ∈ t.indices := by rw [← t.records_fst]; exact List.mem_map.2 ⟨(i, x), hm, rfl⟩
    simpa [h.mem_iff] using this
  rw [Tree.arena, (getElem?_filterMap_range _ _ hall i hi).1, lookup_of_mem _ hnd hm]

/-- An arena that holds a tree's records at their indices reads back as the tree (R34). -/
theorem treeOf_of_records (arena : List NodeRec) (t : Tree) (h : ∀ p ∈ t.records, arena[p.1]? = some p.2) (fuel : Nat)
    (hf : t.size ≤ fuel) : treeOf arena fuel t.idx = some t := by
  induction t generalizing fuel with
  | leaf i s w =>
    obtain ⟨n, rfl⟩ : ∃ n, fuel = n + 1 := ⟨fuel - 1, by simp [Tree.size] at hf; omega⟩
    have := h (i, .leaf s w) (by simp [Tree.records])
    simp only at this
    simp [treeOf, Tree.idx, this]
  | node i w l r hl hr =>
    simp only [Tree.size] at hf
    obtain ⟨n, rfl⟩ : ∃ n, fuel = n + 1 := ⟨fuel - 1, by omega⟩
    have h0 := h (i, .internal w l.idx r.idx) (by simp [Tree.records])
    have h1 := hl (fun p hp => h p (by simp [Tree.records, hp])) n (by omega)
    have h2 := hr (fun p hp => h p (by simp [Tree.records, hp])) n (by omega)
    simp only at h0
    simp [treeOf, h0, h1, h2]

/-! ### The priority collection -/

/-- The order of R121 on pairs (weight, index). -/
theorem before_iff (a b : Tree) :
    a.before b = true ↔ a.weight < b.weight ∨ (a.weight = b.weight ∧ a.idx < b.idx) := by simp [Tree.before]

/-- Everything `removemin` can do (R126): of a collection that is not empty it gives a node that no other is before, and the
others. -/
theorem removeMin_spec (q : List Tree) :
    (q = [] ∧ removeMin q = none) ∨
      ∃ m rest, removeMin q = some (m, rest) ∧ (m :: rest).Perm q ∧ ∀ y ∈ rest, ¬ y.before m = true := by
  induction q with
  | nil => exact .inl ⟨rfl, rfl⟩
  | cons x xs ih =>
    right
    rcases ih with ⟨rfl, h⟩ | ⟨m, rest, h, hp, hl⟩
    · exact ⟨x, [], by simp [removeMin], List.Perm.refl _, by simp⟩
    · by_cases hb : m.before x = true
      · refine ⟨m, x :: rest, by simp [removeMin, h, hb], ?_, ?_⟩
        · exact (List.Perm.swap x m rest).trans (hp.cons x)
        · intro y hy
          rcases List.mem_cons.1 hy with rfl | hy
          · rw [before_iff] at hb ⊢; omega
          · exact hl y hy
      · refine ⟨x, xs, by simp [removeMin, h, hb], List.Perm.refl _, ?_⟩
        intro y hy
        rcases List.mem_cons.1 (hp.mem_iff.2 hy) with rfl | hy
        · exact hb
        · have := hl y hy
          rw [before_iff] at hb this ⊢; omega

/-- One merge of R123: two nodes leave the collection, the least and the least of the others, and one comes. -/
theorem mergeSteps_succ (n next : Nat) (q : List Tree) (hq : 2 ≤ q.length) :
    ∃ a b q2, (a :: b :: q2).Perm q ∧ (∀ y ∈ b :: q2, ¬ y.before a = true) ∧ (∀ y ∈ q2, ¬ y.before b = true) ∧
      mergeSteps (n + 1) next q = mergeSteps n (next + 1) (q2 ++ [.node next (a.weight + b.weight) a b]) := by
  rcases removeMin_spec q with ⟨rfl, -⟩ | ⟨a, q1, h1, p1, l1⟩
  · simp at hq
  rcases removeMin_spec q1 with ⟨rfl, -⟩ | ⟨b, q2, h2, p2, l2⟩
  · have := p1.length_eq; simp at this; omega
  refine ⟨a, b, q2, (p2.cons a).trans p1, fun y hy => l1 y (p2.mem_iff.1 hy), l2, ?_⟩
  simp [mergeSteps, h1, h2]

/-- The induction over the merges, once: what one merge keeps, all keep. -/
theorem mergeSteps_induct (P : Nat → List Tree → Prop)
    (hstep : ∀ next q a b q2, P next q → (a :: b :: q2).Perm q → (∀ y ∈ b :: q2, ¬ y.before a = true) →
      (∀ y ∈ q2, ¬ y.before b = true) → P (next + 1) (q2 ++ [.node next (a.weight + b.weight) a b]))
    (n next : Nat) (q : List Tree) (hq : n < q.length) (h : P next q) : P (next + n) (mergeSteps n next q) := by
  induction n generalizing next q with
  | zero => exact h
  | succ n ih =>
    obtain ⟨a, b, q2, hp, ha, hb, e⟩ := mergeSteps_succ n next q (by omega)
    have hl := hp.length_eq
    rw [e, show next + (n + 1) = next + 1 + n by omega]
    exact ih (next + 1) _ (by simp at hl ⊢; omega) (hstep next q a b q2 h hp ha hb)

/-- After the k − 1 merges "Q has exactly one element" (R123). -/
theorem mergeSteps_length (n next : Nat) (q : List Tree) (hq : n < q.length) :
    (mergeSteps n next q).length = q.length - n := by
  induction n generalizing next q with
  | zero => rfl
  | succ n ih =>
    obtain ⟨a, b, q2, hp, -, -, e⟩ := mergeSteps_succ n next q (by omega)
    have hl := hp.length_eq
    simp at hl
    rw [e, ih _ _ (by simp; omega)]
    simp; omega

/-! ### What holds of the collection all along -/

/-- A leaf of a tree with its index, symbol and weight, left to right. -/
def Tree.leaves : Tree → List (Nat × Symbol × Nat)
  | .leaf i s w => [(i, s, w)]
  | .node _ _ l r => l.leaves ++ r.leaves

theorem Tree.leaves_length (t : Tree) : t.size + 1 = 2 * t.leaves.length := by
  induction t with
  | leaf => rfl
  | node i w l r hl hr => simp [Tree.size, Tree.leaves]; omega

theorem Tree.leafSymbols_eq (t : Tree) : t.leafSymbols = t.leaves.map fun p => p.2.1 := by
  induction t with
  | leaf => rfl
  | node i w l r hl hr => simp [Tree.leafSymbols, Tree.leaves, hl, hr]

theorem Tree.leaf_mem_records (t : Tree) {i : Nat} {s : Symbol} {w : Nat} (h : (i, s, w) ∈ t.leaves) :
    (i, NodeRec.leaf s w) ∈ t.records := by
  induction t with
  | leaf => simpa [Tree.leaves, Tree.records, Prod.ext_iff] using h
  | node j v l r hl hr =>
    rcases List.mem_append.1 h with h | h
    · simp [Tree.records, hl h]
    · simp [Tree.records, hr h]

/-- The collection's invariant in BUILD_TREE on table `f`, with `next` the index of the next node. -/
structure Forest (f : List FreqEntry) (next : Nat) (q : List Tree) : Prop where
  indices : (q.flatMap Tree.indices).Perm (List.range next)
  leaves : (q.flatMap Tree.leaves).Perm ((leavesFrom 0 f).flatMap Tree.leaves)
  weight : (q.map Tree.weight).sum = (f.map FreqEntry.cnt).sum
  weighted : ∀ t ∈ q, t.weighted = true
  ordered : ∀ t ∈ q, t.mergeOrdered = true

theorem flatMap_leavesFrom_indices (j : Nat) (f : List FreqEntry) :
    (leavesFrom j f).flatMap Tree.indices = List.range' j f.length := by
  induction f generalizing j with
  | nil => rfl
  | cons e f ih => simp [leavesFrom, Tree.indices, ih, List.range'_succ]

theorem leavesFrom_length (j : Nat) (f : List FreqEntry) : (leavesFrom j f).length = f.length := by
  induction f generalizing j with
  | nil => rfl
  | cons e f ih => simp [leavesFrom, ih]

theorem leavesFrom_mem {j : Nat} {f : List FreqEntry} {t : Tree} (h : t ∈ leavesFrom j f) :
    ∃ i s w, t = .leaf i s w ∧ j ≤ i ∧ f[i - j]? = some ⟨s, w⟩ := by
  induction f generalizing j with
  | nil => simp [leavesFrom] at h
  | cons e f ih =>
    rcases List.mem_cons.1 h with rfl | h
    · exact ⟨j, e.sym, e.cnt, rfl, le_refl _, by simp⟩
    · obtain ⟨i, s, w, rfl, hi, he⟩ := ih h
      refine ⟨i, s, w, rfl, by omega, ?_⟩
      rw [show i - j = (i - (j + 1)) + 1 by omega]; simpa using he

theorem leavesFrom_leaves (j : Nat) (f : List FreqEntry) :
    (leavesFrom j f).flatMap Tree.leaves = (List.range' j f.length).zip (f.map fun e => (e.sym, e.cnt)) := by
  induction f generalizing j with
  | nil => rfl
  | cons e f ih => simp [leavesFrom, Tree.leaves, ih, List.range'_succ]

theorem Forest.start (f : List FreqEntry) : Forest f f.length (leavesFrom 0 f) where
  indices := by rw [flatMap_leavesFrom_indices, List.range_eq_range']
  leaves := List.Perm.refl _
  weight := by
    generalize 0 = j
    induction f generalizing j with
    | nil => rfl
    | cons e f ih => simp [leavesFrom, Tree.weight, ih]
  weighted := fun t h => by obtain ⟨i, s, w, rfl, -⟩ := leavesFrom_mem h; rfl
  ordered := fun t h => by obtain ⟨i, s, w, rfl, -⟩ := leavesFrom_mem h; rfl

theorem Forest.idx_lt {f : List FreqEntry} {next : Nat} {q : List Tree} (h : Forest f next q) {t : Tree} (ht : t ∈ q) :
    t.idx < next := by
  have : t.idx ∈ q.flatMap Tree.indices := List.mem_flatMap.2 ⟨t, ht, t.idx_mem_indices⟩
  simpa [h.indices.mem_iff] using this

theorem Forest.step {f : List FreqEntry} (next : Nat) (q : List Tree) (a b : Tree) (q2 : List Tree) (h : Forest f next q)
    (hp : (a :: b :: q2).Perm q) (ha : ∀ y ∈ b :: q2, ¬ y.before a = true) (_hb : ∀ y ∈ q2, ¬ y.before b = true) :
    Forest f (next + 1) (q2 ++ [.node next (a.weight + b.weight) a b]) := by
  have hA : a ∈ q := hp.mem_iff.1 (by simp)
  have hB : b ∈ q := hp.mem_iff.1 (by simp)
  have hI : ((a :: b :: q2).flatMap Tree.indices).Perm (List.range next) :=
    (hp.flatMap_right Tree.indices).trans h.indices
  have hne : a.idx ≠ b.idx := by
    have hnd := hI.nodup_iff.2 List.nodup_range
    simp only [List.flatMap_cons] at hnd
    intro e
    exact (List.nodup_append.1 hnd).2.2 a.idx a.idx_mem_indices b.idx (by simp [b.idx_mem_indices]) e
  refine ⟨?_, ?_, ?_, ?_, ?_⟩
  · rw [List.range_succ, List.flatMap_append]
    simp only [List.flatMap_cons, List.flatMap_nil, List.append_nil, Tree.indices] at hI ⊢
    have e : (q2.flatMap Tree.indices ++ next :: (a.indices ++ b.indices)).Perm
        ((a.indices ++ (b.indices ++ q2.flatMap Tree.indices)) ++ [next]) := by
      have p1 : (q2.flatMap Tree.indices ++ next :: (a.indices ++ b.indices)).Perm
          (next :: (q2.flatMap Tree.indices ++ (a.indices ++ b.indices))) := List.perm_middle
      refine p1.trans ((List.Perm.cons next ?_).trans (List.perm_append_singleton _ _).symm)
      rw [← List.append_assoc a.indices]
      exact List.perm_append_comm
    exact e.trans (hI.append_right [next])
  · refine List.Perm.trans ?_ ((hp.flatMap_right Tree.leaves).trans h.leaves)
    simp only [List.flatMap_append, List.flatMap_cons, List.flatMap_nil, List.append_nil, Tree.leaves]
    rw [← List.append_assoc a.leaves]
    exact List.perm_append_comm
  · rw [← h.weight, ← (hp.map Tree.weight).sum_eq]
    simp [Tree.weight]; omega
  · intro t ht
    rcases List.mem_append.1 ht with ht | ht
    · exact h.weighted t (hp.mem_iff.1 (by simp [ht]))
    · have := List.mem_singleton.1 ht; subst this
      simp [Tree.weighted, h.weighted a hA, h.weighted b hB]
  · intro t ht
    rcases List.mem_append.1 ht with ht | ht
    · exact h.ordered t (hp.mem_iff.1 (by simp [ht]))
    · have := List.mem_singleton.1 ht; subst this
      have h1 := h.idx_lt hA
      have h2 := h.idx_lt hB
      have h3 := ha b (by simp)
      rw [before_iff] at h3
      simp only [Tree.mergeOrdered, h.ordered a hA, h.ordered b hB, Bool.and_true, Bool.and_eq_true, decide_eq_true_eq]
      exact ⟨⟨h1, h2⟩, by omega⟩

/-- The last node created is the only one left (R122, R123). -/
theorem mergeSteps_last (n next : Nat) (q : List Tree) (hq : q.length = n + 2) :
    ∃ w a b, mergeSteps (n + 1) next q = [.node (next + n) w a b] := by
  induction n generalizing next q with
  | zero =>
    obtain ⟨a, b, q2, hp, -, -, e⟩ := mergeSteps_succ 0 next q (by omega)
    have hl := hp.length_eq
    have : q2 = [] := List.length_eq_zero_iff.1 (by simp at hl; omega)
    subst this
    exact ⟨_, a, b, by rw [e]; rfl⟩
  | succ n ih =>
    obtain ⟨a, b, q2, hp, -, -, e⟩ := mergeSteps_succ (n + 1) next q (by omega)
    have hl := hp.length_eq
    obtain ⟨w, a', b', e'⟩ := ih (next + 1) (q2 ++ [.node next (a.weight + b.weight) a b]) (by simp at hl ⊢; omega)
    exact ⟨w, a', b', by rw [e, e', show next + 1 + n = next + (n + 1) by omega]⟩

/-- Everything BUILD_TREE's function can do (R123, R124, R128). -/
theorem buildTreeOf_spec (f : List FreqEntry) :
    (f = [] ∧ buildTreeOf f = .error .emptyAlphabet) ∨
      (f ≠ [] ∧ ∃ t, buildTreeOf f = .ok t ∧ mergeSteps (f.length - 1) f.length (leavesFrom 0 f) = [t] ∧
        t.idx = t.size - 1 ∧ t.size = 2 * f.length - 1 ∧ Forest f (2 * f.length - 1) [t]) := by
  by_cases hf : f = []
  · subst hf; exact .inl ⟨rfl, rfl⟩
  right
  refine ⟨hf, ?_⟩
  have hk : 0 < f.length := List.length_pos_iff.2 hf
  have hlen := mergeSteps_length (f.length - 1) f.length (leavesFrom 0 f) (by rw [leavesFrom_length]; omega)
  rw [leavesFrom_length, show f.length - (f.length - 1) = 1 by omega] at hlen
  obtain ⟨t, ht⟩ := List.length_eq_one_iff.1 hlen
  have hF := mergeSteps_induct (Forest f) (fun next q a b q2 => Forest.step next q a b q2) (f.length - 1) f.length
    (leavesFrom 0 f) (by rw [leavesFrom_length]; omega) (Forest.start f)
  rw [ht, show f.length + (f.length - 1) = 2 * f.length - 1 by omega] at hF
  have hsize : t.size = 2 * f.length - 1 := by
    have := hF.indices.length_eq
    simpa [Tree.indices_length] using this
  refine ⟨t, ?_, ht, ?_, hsize, hF⟩
  · rw [buildTreeOf, if_neg (by omega), ht]
  · by_cases h1 : f.length = 1
    · obtain ⟨e, rfl⟩ := List.length_eq_one_iff.1 h1
      have : leavesFrom 0 [e] = [t] := ht
      simp only [leavesFrom, List.cons.injEq, and_true] at this
      subst this; rfl
    · obtain ⟨w, a, b, e⟩ := mergeSteps_last (f.length - 2) f.length (leavesFrom 0 f) (by rw [leavesFrom_length]; omega)
      rw [show f.length - 2 + 1 = f.length - 1 by omega, ht] at e
      simp only [List.cons.injEq, and_true] at e
      rw [hsize, e, Tree.idx]; omega

/-! ### The arena pseudocode gives the same tree -/

/-- The collection of trees and the collection of indices over an arena stand for each other. -/
structure Mirrors (arena : List NodeRec) (q : List Tree) : Prop where
  records : ∀ t ∈ q, ∀ p ∈ t.records, arena[p.1]? = some p.2

theorem Tree.idx_weight_record (t : Tree) : ∃ r, (t.idx, r) ∈ t.records ∧ r.weight = t.weight := by
  cases t with
  | leaf i s w => exact ⟨.leaf s w, by simp [Tree.records, Tree.idx], rfl⟩
  | node i w l r => exact ⟨.internal w l.idx r.idx, by simp [Tree.records, Tree.idx], rfl⟩

theorem Mirrors.weight {arena : List NodeRec} {q : List Tree} (h : Mirrors arena q) {t : Tree} (ht : t ∈ q) :
    arenaWeight arena t.idx = t.weight := by
  obtain ⟨r, hr, hw⟩ := t.idx_weight_record
  rw [arenaWeight, h.records t ht _ hr]; exact hw

theorem arenaRemoveMin_eq {arena : List NodeRec} (q : List Tree) (h : Mirrors arena q) :
    arenaRemoveMin arena (q.map Tree.idx) = (removeMin q).map fun p => (p.1.idx, p.2.map Tree.idx) := by
  induction q with
  | nil => rfl
  | cons x xs ih =>
    have ih := ih ⟨fun t ht => h.records t (by simp [ht])⟩
    rw [List.map_cons, arenaRemoveMin, ih, removeMin]
    rcases removeMin_spec xs with ⟨rfl, e⟩ | ⟨m, rest, e, hp, -⟩
    · simp [e]
    · have hm : m ∈ x :: xs := by simp [hp.mem_iff.1 (List.mem_cons_self)]
      simp only [e, Option.map_some, h.weight hm, h.weight (List.mem_cons_self)]
      by_cases hb : m.before x = true
      · rw [if_pos ((before_iff m x).1 hb), if_pos hb]; rfl
      · rw [if_neg (fun h' => hb ((before_iff m x).2 h')), if_neg hb]; rfl

theorem arenaMerges_eq (n : Nat) (arena : List NodeRec) (q : List Tree) (hq : n < q.length) (h : Mirrors arena q) :
    Mirrors (arenaMerges n arena (q.map Tree.idx)) (mergeSteps n arena.length q) ∧
      (arenaMerges n arena (q.map Tree.idx)).length = arena.length + n := by
  induction n generalizing arena q with
  | zero => exact ⟨h, rfl⟩
  | succ n ih =>
    rcases removeMin_spec q with ⟨rfl, -⟩ | ⟨a, q1, e1, p1, -⟩
    · simp at hq
    rcases removeMin_spec q1 with ⟨rfl, -⟩ | ⟨b, q2, e2, p2, -⟩
    · have := p1.length_eq; simp at this; omega
    have hsub1 : ∀ t ∈ q1, t ∈ q := fun t ht => p1.mem_iff.1 (by simp [ht])
    have hsub2 : ∀ t ∈ q2, t ∈ q := fun t ht => hsub1 t (p2.mem_iff.1 (by simp [ht]))
    have hA : a ∈ q := p1.mem_iff.1 (by simp)
    have hB : b ∈ q := hsub1 b (p2.mem_iff.1 (by simp))
    have h1 : Mirrors arena q1 := ⟨fun t ht => h.records t (hsub1 t ht)⟩
    have hl := p1.length_eq
    have hl2 := p2.length_eq
    simp only [List.length_cons] at hl hl2
    rw [arenaMerges, arenaRemoveMin_eq q h, e1]
    simp only [Option.map_some]
    rw [arenaRemoveMin_eq q1 h1, e2]
    simp only [Option.map_some, h.weight hA, h.weight hB, mergeSteps, e1, e2]
    have key := ih (arena ++ [.internal (a.weight + b.weight) a.idx b.idx])
      (q2 ++ [.node arena.length (a.weight + b.weight) a b]) (by simp; omega) ?_
    · simp only [List.map_append, List.map_cons, List.map_nil, List.length_append, List.length_singleton, Tree.idx_node] at key
      exact ⟨key.1, by rw [key.2]; omega⟩
    · have old : ∀ t ∈ q, ∀ p ∈ t.records,
          (arena ++ [NodeRec.internal (a.weight + b.weight) a.idx b.idx])[p.1]? = some p.2 := by
        intro t ht p hp
        have := h.records t ht p hp
        have hlt : p.1 < arena.length := by
          by_contra hc
          rw [List.getElem?_eq_none (by omega)] at this
          exact absurd this (by simp)
        rwa [List.getElem?_append_left hlt]
      refine ⟨fun t ht p hp => ?_⟩
      rcases List.mem_append.1 ht with ht | ht
      · exact old t (hsub2 t ht) p hp
      · have := List.mem_singleton.1 ht; subst this
        simp only [Tree.records, List.mem_cons, List.mem_append] at hp
        rcases hp with rfl | hp | hp
        · simp
        · exact old a hA p hp
        · exact old b hB p hp

theorem leavesFrom_mirrors (f : List FreqEntry) :
    Mirrors (f.map fun e => .leaf e.sym e.cnt) (leavesFrom 0 f) := by
  refine ⟨fun t ht p hp => ?_⟩
  obtain ⟨i, s, w, rfl, -, he⟩ := leavesFrom_mem ht
  simp only [Tree.records, List.mem_singleton] at hp
  subst hp
  rw [Nat.sub_zero] at he
  simp [he]

theorem leavesFrom_idx (j : Nat) (f : List FreqEntry) : (leavesFrom j f).map Tree.idx = List.range' j f.length := by
  induction f generalizing j with
  | nil => rfl
  | cons e f ih => simp [leavesFrom, Tree.idx, ih, List.range'_succ]

/-- The tree BUILD_TREE makes has the arena that the pseudocode of R123 makes (R122). -/
theorem buildTreeOf_arena (f : List FreqEntry) (t : Tree) (h : buildTreeOf f = .ok t) : t.arena = arenaOf f := by
  rcases buildTreeOf_spec f with ⟨-, e⟩ | ⟨hf, t', e, hm, -, hsize, hF⟩
  · rw [h] at e; cases e
  · rw [h] at e; cases e
    have hk : 0 < f.length := List.length_pos_iff.2 hf
    have key := arenaMerges_eq (f.length - 1) (f.map fun e => .leaf e.sym e.cnt) (leavesFrom 0 f)
      (by rw [leavesFrom_length]; omega) (leavesFrom_mirrors f)
    rw [leavesFrom_idx, ← List.range_eq_range'] at key
    simp only [List.length_map] at key
    rw [hm] at key
    have hperm : t.indices.Perm (List.range t.size) := by
      have := hF.indices
      rw [hsize]; simpa using this
    have harena := t.arena_spec hperm
    apply List.ext_getElem?
    intro i
    by_cases hi : i < t.size
    · have : i ∈ t.records.map Prod.fst := by rw [t.records_fst, hperm.mem_iff]; simpa using hi
      obtain ⟨p, hp, rfl⟩ := List.mem_map.1 this
      rw [harena.2 p hp]
      exact (key.1.records t (by simp) p hp).symm
    · rw [List.getElem?_eq_none (by omega), List.getElem?_eq_none]
      have := key.2
      unfold arenaOf; omega

end Sys2Proof.Machine
end

