-- ==== Sys2Proof/Laws/Wire.lean ====
section
/-! SUPPORT. The container's wire format: DESERIALIZE's parser undoes SERIALIZE's writer, rejects every proper beginning of what it
accepts, and what a parsed tree looks like (spec/44_container.md R182 to R189; spec/46_laws.md R223, R228). -/

namespace Sys2Proof.Machine

/-! ### Taking bytes -/

theorem takeBytes_append (p x q : List Byte) : takeBytes (p ++ (x ++ q)) p.length x.length = .ok (x, p.length + x.length) := by
  rw [takeBytes, if_neg (by simp)]
  simp [memRead]

theorem takeNat_append (p x q : List Byte) :
    takeNat (p ++ (x ++ q)) p.length x.length = .ok (fromBe x, p.length + x.length) := by
  simp [takeNat, takeBytes_append]

/-- A big-endian number written in `n` bytes is read back (R64). -/
theorem takeNat_beN (p q : List Byte) (n v : Nat) (hv : v < 256 ^ n) :
    takeNat (p ++ (beN n v ++ q)) p.length n = .ok (v, p.length + n) := by
  have := takeNat_append p (beN n v) q
  rwa [beN_length, fromBe_beN n v hv] at this

theorem takeNat_byte (p q : List Byte) (b : Byte) :
    takeNat (p ++ (b :: q)) p.length 1 = .ok (b.toNat, p.length + 1) := by
  have := takeNat_append p [b] q
  simpa [fromBe] using this

/-- Everything `take` can do (R182). -/
theorem takeBytes_spec (blob : List Byte) (pos n : Nat) :
    (pos + n ≤ blob.length ∧ takeBytes blob pos n = .ok (memRead blob pos n, pos + n) ∧ (memRead blob pos n).length = n) ∨
      (blob.length < pos + n ∧ takeBytes blob pos n = .error (.corruptContainer blob.length)) := by
  by_cases h : blob.length < pos + n
  · exact .inr ⟨h, by rw [takeBytes, if_pos h]⟩
  · refine .inl ⟨by omega, by rw [takeBytes, if_neg h], ?_⟩
    simp [memRead]; omega

theorem takeNat_spec (blob : List Byte) (pos n : Nat) :
    (pos + n ≤ blob.length ∧ takeNat blob pos n = .ok (fromBe (memRead blob pos n), pos + n) ∧
        fromBe (memRead blob pos n) < 256 ^ n) ∨
      (blob.length < pos + n ∧ takeNat blob pos n = .error (.corruptContainer blob.length)) := by
  rcases takeBytes_spec blob pos n with ⟨h, e, hl⟩ | ⟨h, e⟩
  · refine .inl ⟨h, by rw [takeNat, e], ?_⟩
    have := fromBe_lt (memRead blob pos n)
    rwa [hl] at this
  · exact .inr ⟨h, by rw [takeNat, e]⟩

/-! ### The parser undoes the writer -/

theorem symBytes_fits (c : Config) {s : Symbol} (h : s < 2 ^ c.symW) : s < 256 ^ c.symb := by
  refine lt_of_lt_of_le h ?_
  rw [show (256 : Nat) = 2 ^ 8 by norm_num, ← pow_mul]
  exact Nat.pow_le_pow_right (by decide) (by unfold Config.symb; omega)

@[simp] theorem symBytes_length (c : Config) (s : Symbol) : (symBytes c s).length = c.symb := beN_length _ _

theorem parseSym_symBytes (c : Config) (p q : List Byte) (s : Symbol) (h : s < 2 ^ c.symW) :
    parseSym c (p ++ (symBytes c s ++ q)) p.length = .ok (s, p.length + c.symb) := by
  rw [parseSym, symBytes, takeNat_beN p q c.symb s (symBytes_fits c h)]
  simp only
  rw [if_neg (Nat.not_le.2 h)]

@[simp] theorem Tree.recon_size (t : Tree) (i : Nat) : (t.recon i).size = t.size := by
  induction t generalizing i with
  | leaf => rfl
  | node j w l r hl hr => simp [Tree.recon, hl, hr]

/-- `parse_node` on the record of a tree gives the tree as DESERIALIZE lays it out (R91, R182, R186). -/
theorem parseNode_wire (c : Config) (t : Tree) (hs : ∀ s ∈ t.leafSymbols, s < 2 ^ c.symW) (fuel i : Nat)
    (hf : t.size ≤ fuel) (p q : List Byte) :
    parseNode c (p ++ (t.wire c ++ q)) fuel i p.length = .ok (t.recon i, p.length + (t.wire c).length) := by
  induction t generalizing fuel i p q with
  | leaf j s w =>
    obtain ⟨n, rfl⟩ : ∃ n, fuel = n + 1 := ⟨fuel - 1, by simp at hf; omega⟩
    have h1 := takeNat_byte p (symBytes c s ++ q) 0x01#8
    have h2 := parseSym_symBytes c (p ++ [0x01#8]) q s (hs s (by simp [Tree.leafSymbols]))
    simp only [List.append_assoc, List.singleton_append, List.length_append, List.length_singleton] at h2
    simp only [Tree.wire, List.cons_append, parseNode, h1, h2]
    simp [Tree.recon]; omega
  | node j w l r hl hr =>
    simp only [Tree.size_node] at hf
    obtain ⟨n, rfl⟩ : ∃ n, fuel = n + 1 := ⟨fuel - 1, by omega⟩
    have h1 := takeNat_byte p (l.wire c ++ (r.wire c ++ q)) 0x00#8
    have h2 := hl (fun s h => hs s (by simp [Tree.leafSymbols, h])) n (i + 1) (by omega) (p ++ [0x00#8]) (r.wire c ++ q)
    have h3 := hr (fun s h => hs s (by simp [Tree.leafSymbols, h])) n (i + 1 + l.size) (by omega)
      (p ++ [0x00#8] ++ l.wire c) q
    simp only [List.append_assoc, List.length_append, List.length_cons, List.length_nil, List.cons_append,
      List.nil_append, Nat.zero_add] at h2 h3
    rw [Nat.add_comm (l.wire c).length 1] at h3
    rw [← Nat.add_assoc p.length 1] at h3
    simp only [Tree.wire, List.cons_append, List.append_assoc, parseNode, h1, h2, Tree.recon_size, h3]
    simp [Tree.recon]; omega

theorem entryWire_length (c : Config) (e : CodeEntry) :
    (entryWire c e).length = c.symb + 2 + (e.code.length + 7) / 8 := by simp [entryWire]; omega

/-- PACK's bytes of a code are read as the code (R95). -/
theorem codeBytesFor_packBits (code : Bits) : codeBytesFor code (packBits code) := by
  have hd : 8 * ((code.length + 7) / 8) - code.length = padCount code.length := by unfold padCount; omega
  exact ⟨packBits_length code, by rw [packBits_length, hd, drop_unpackBytes_packBits]⟩

/-- What SERIALIZE writes of a code table is its entries one after the other (R95, R177). -/
theorem entriesForm_wire (c : Config) (es : List CodeEntry) : entriesForm c es (es.flatMap (entryWire c)) := by
  induction es with
  | nil => rfl
  | cons e es ih => exact ⟨packBits e.code, _, codeBytesFor_packBits e.code, by simp [entryWire], ih⟩

/-- One code entry is read back, whatever the bits in front of its code (R95). -/
theorem parseEntry_form (c : Config) (e : CodeEntry) (hs : e.sym < 2 ^ c.symW) (hc : e.code.length < 2 ^ 16) (cb : List Byte)
    (hcb : codeBytesFor e.code cb) (p q : List Byte) :
    parseEntry c (p ++ (symBytes c e.sym ++ (beN 2 e.code.length ++ (cb ++ q)))) p.length
      = .ok (e, p.length + (c.symb + 2 + cb.length)) := by
  have h1 := parseSym_symBytes c p (beN 2 e.code.length ++ (cb ++ q)) e.sym hs
  have h2 := takeNat_beN (p ++ symBytes c e.sym) (cb ++ q) 2 e.code.length (by norm_num at hc ⊢; exact hc)
  have h3 := takeBytes_append (p ++ symBytes c e.sym ++ beN 2 e.code.length) cb q
  obtain ⟨hl, hd⟩ := hcb
  simp only [List.append_assoc, List.length_append, symBytes_length, beN_length] at h2 h3
  rw [← Nat.add_assoc] at h3
  rw [hl] at h3 hd
  simp only [parseEntry, h1, h2, h3, hd, hl]
  congr 2; omega

theorem parseEntries_form (c : Config) (es : List CodeEntry) (h : ∀ e ∈ es, e.sym < 2 ^ c.symW ∧ e.code.length < 2 ^ 16)
    (w : List Byte) (hw : entriesForm c es w) (p q : List Byte) :
    parseEntries c (p ++ (w ++ q)) es.length p.length = .ok (es, p.length + w.length) := by
  induction es generalizing p w with
  | nil => cases hw; simp [parseEntries]
  | cons e es ih =>
    obtain ⟨cb, rest, hcb, rfl, hr⟩ := hw
    have h1 := parseEntry_form c e (h e (by simp)).1 (h e (by simp)).2 cb hcb p (rest ++ q)
    have h2 := ih (fun e' he => h e' (by simp [he])) rest hr (p ++ (symBytes c e.sym ++ (beN 2 e.code.length ++ cb)))
    simp only [List.append_assoc, List.length_append, symBytes_length, beN_length] at h2
    rw [show p.length + (c.symb + (2 + cb.length)) = p.length + (c.symb + 2 + cb.length) by omega] at h2
    simp only [List.append_assoc, List.length_cons, parseEntries, h1, h2, List.length_append, symBytes_length, beN_length]
    congr 2; omega

theorem Tree.size_le_wire (c : Config) (t : Tree) : t.size ≤ (t.wire c).length := by
  induction t with
  | leaf => simp [Tree.wire]
  | node i w l r hl hr => simp [Tree.wire]; omega

/-- The writer's blob of a container is a blob of it (R88, R177). -/
theorem isBlobOf_wire (c : Config) (k : Container) (h : k.Writable c) : IsBlobOf c k (k.wire c) :=
  ⟨h, _, entriesForm_wire c k.codes, by simp [Container.wire, headForm]⟩

/-- The part of the parser before the tree, on a blob that has its first field (R89, R90, R182). -/
theorem head_read (d rest : List Byte) (hd : d.length < 2 ^ 32) :
    takeNat (headForm d ++ rest) 0 1 = .ok (4, 1) ∧ takeNat (headForm d ++ rest) 1 4 = .ok (d.length, 5) ∧
      takeBytes (headForm d ++ rest) 5 d.length = .ok (d, 5 + d.length) := by
  have e : headForm d ++ rest = 0x04#8 :: (beN 4 d.length ++ (d ++ rest)) := by simp [headForm]
  rw [e]
  exact ⟨takeNat_byte [] _ 0x04#8, takeNat_beN [0x04#8] _ 4 d.length (by norm_num at hd ⊢; exact hd),
    by simpa using takeBytes_append (0x04#8 :: beN 4 d.length) d rest⟩

@[simp] theorem headForm_length (d : List Byte) : (headForm d).length = 5 + d.length := by simp [headForm]; omega

/-- DESERIALIZE's parser gives the container of every blob, with the tree as it lays it out (R95, R182, R186). -/
theorem parseContainer_blob (c : Config) (k : Container) (z : List Byte) (h : IsBlobOf c k z) :
    parseContainer c z = .ok { k with tree := k.tree.recon 0 } := by
  obtain ⟨bs, t, es, p⟩ := k
  obtain ⟨⟨hb, hsym, hn, he, hp⟩, w, hw, hz⟩ := h
  simp only at hb hsym hn he hp hw hz
  obtain ⟨e1, e2, e3⟩ := head_read bs (t.wire c ++ (beN 2 es.length ++ (w ++ [p]))) hb
  have e4 := parseNode_wire c t hsym (z.length + 1) 0 (by have := t.size_le_wire c; simp [hz]; omega) (headForm bs)
    (beN 2 es.length ++ (w ++ [p]))
  have e5 := takeNat_beN (headForm bs ++ t.wire c) (w ++ [p]) 2 es.length (by norm_num at hn ⊢; exact hn)
  have e6 := parseEntries_form c es he w hw (headForm bs ++ t.wire c ++ beN 2 es.length) [p]
  have e7 := takeNat_byte (headForm bs ++ t.wire c ++ beN 2 es.length ++ w) [] p
  have hl : z.length = 5 + bs.length + (t.wire c).length + 2 + w.length + 1 := by simp [hz]; omega
  simp only [List.append_assoc] at hz e1 e2 e3 e4 e5 e6 e7
  rw [← hz] at e1 e2 e3 e4 e5 e6 e7
  simp only [List.length_append, headForm_length, beN_length, ← Nat.add_assoc] at e4 e5 e6 e7
  simp only [parseContainer, e1, e2, e3, e4, e5, e6, e7]
  rw [if_neg (by simp), if_neg (by omega), if_neg (by omega)]
  simp

/-- DESERIALIZE's parser is the left inverse of SERIALIZE's writer (R102, R223). -/
theorem parseContainer_wire (c : Config) (k : Container) (h : k.Writable c) :
    parseContainer c (k.wire c) = .ok { k with tree := k.tree.recon 0 } :=
  parseContainer_blob c k _ (isBlobOf_wire c k h)

/-! ### Lengths -/

/-- The length of a tree's record: a Leaf record is 1 + SYMB bytes, an Internal one a tag (R98, R100). -/
theorem Tree.wire_length (c : Config) (t : Tree) :
    (t.wire c).length + 1 = t.leafSymbols.length * (1 + c.symb) + t.leafSymbols.length := by
  induction t with
  | leaf i s w => simp [Tree.wire, Tree.leafSymbols]; omega
  | node i w l r hl hr =>
    simp only [Tree.wire, Tree.leafSymbols, List.length_cons, List.length_append, Nat.add_mul]
    omega

/-- The length of a blob (R98). -/
theorem Container.wire_length (c : Config) (k : Container) :
    (k.wire c).length = 1 + 4 + k.bytes.length + (k.tree.wire c).length + 2
      + (k.codes.map fun e => c.symb + 2 + (e.code.length + 7) / 8).sum + 1 := by
  have : (k.codes.flatMap (entryWire c)).length = (k.codes.map fun e => c.symb + 2 + (e.code.length + 7) / 8).sum := by
    rw [List.length_flatMap]; congr 1; apply List.map_congr_left; intro e _; exact entryWire_length c e
  simp [Container.wire, this]; omega

/-! ### What a parse gives -/

/-- Everything `parse_sym` can do (R93, R182). -/
theorem parseSym_spec (c : Config) (blob : List Byte) (pos : Nat) :
    (∃ s, parseSym c blob pos = .ok (s, pos + c.symb) ∧ pos + c.symb ≤ blob.length ∧ s < 2 ^ c.symW) ∨
      ∃ off, parseSym c blob pos = .error (.corruptContainer off) ∧ off ≤ blob.length := by
  unfold parseSym
  rcases takeNat_spec blob pos c.symb with ⟨h, e, -⟩ | ⟨-, e⟩
  · rw [e]; simp only
    split
    · exact .inr ⟨pos, rfl, by omega⟩
    · rename_i hs
      exact .inl ⟨_, rfl, h, Nat.not_le.1 hs⟩
  · rw [e]; exact .inr ⟨_, rfl, le_refl _⟩

/-- Everything `parse_node` can do (R182, R186): a tree numbered in pre-order from `i`, weights 0, symbols of SYM_W bits; or
CorruptContainer at an offset of the blob. -/
theorem parseNode_spec (c : Config) (blob : List Byte) (fuel i pos : Nat) :
    (∃ t p, parseNode c blob fuel i pos = .ok (t, p) ∧ pos < p ∧ p ≤ blob.length ∧ t.indices = List.range' i t.size ∧
        t.weightless = true ∧ ∀ s ∈ t.leafSymbols, s < 2 ^ c.symW) ∨
      ∃ off, parseNode c blob fuel i pos = .error (.corruptContainer off) ∧ off ≤ blob.length := by
  induction fuel generalizing i pos with
  | zero => exact .inr ⟨_, rfl, le_refl _⟩
  | succ fuel ih =>
    rw [parseNode]
    rcases takeNat_spec blob pos 1 with ⟨h, e, -⟩ | ⟨-, e⟩
    · rw [e]; simp only
      split
      · rcases parseSym_spec c blob (pos + 1) with ⟨s, e', h', hs⟩ | ⟨off, e', h'⟩
        · rw [e']
          exact .inl ⟨_, _, rfl, by omega, h', by simp [Tree.indices], by simp [Tree.weightless],
            by simpa [Tree.leafSymbols] using hs⟩
        · rw [e']; exact .inr ⟨off, rfl, h'⟩
      · split
        · rcases ih (i + 1) (pos + 1) with ⟨l, p, e', h1, h2, h3, h4, h5⟩ | ⟨off, e', h'⟩
          · rw [e']; simp only
            rcases ih (i + 1 + l.size) p with ⟨r, q, e'', g1, g2, g3, g4, g5⟩ | ⟨off, e'', h'⟩
            · rw [e'']
              refine .inl ⟨_, _, rfl, by omega, g2, ?_, ?_, ?_⟩
              · simp only [Tree.indices, Tree.size_node, h3, g3]
                rw [show 1 + l.size + r.size = (l.size + r.size) + 1 by omega, List.range'_succ, List.range'_append_1]
              · simp [Tree.weightless, h4, g4]
              · intro s hs
                rcases List.mem_append.1 (by simpa [Tree.leafSymbols] using hs) with hs | hs
                · exact h5 s hs
                · exact g5 s hs
            · rw [e'']; exact .inr ⟨off, rfl, h'⟩
          · rw [e']; exact .inr ⟨off, rfl, h'⟩
        · exact .inr ⟨pos, rfl, by omega⟩
    · rw [e]; exact .inr ⟨_, rfl, le_refl _⟩

theorem parseEntry_spec (c : Config) (blob : List Byte) (pos : Nat) :
    (∃ e p, parseEntry c blob pos = .ok (e, p) ∧ pos ≤ p ∧ p ≤ blob.length ∧ e.sym < 2 ^ c.symW) ∨
      ∃ off, parseEntry c blob pos = .error (.corruptContainer off) ∧ off ≤ blob.length := by
  unfold parseEntry
  rcases parseSym_spec c blob pos with ⟨s, e1, h1, hs⟩ | ⟨off, e1, h1⟩
  · rw [e1]; simp only
    rcases takeNat_spec blob (pos + c.symb) 2 with ⟨h2, e2, -⟩ | ⟨-, e2⟩
    · rw [e2]; simp only
      rcases takeBytes_spec blob (pos + c.symb + 2) ((fromBe (memRead blob (pos + c.symb) 2) + 7) / 8)
        with ⟨h3, e3, -⟩ | ⟨-, e3⟩
      · rw [e3]; exact .inl ⟨_, _, rfl, by omega, h3, hs⟩
      · rw [e3]; exact .inr ⟨_, rfl, le_refl _⟩
    · rw [e2]; exact .inr ⟨_, rfl, le_refl _⟩
  · rw [e1]; exact .inr ⟨off, rfl, h1⟩

theorem parseEntries_spec (c : Config) (blob : List Byte) (n pos : Nat) (hpos : pos ≤ blob.length) :
    (∃ es p, parseEntries c blob n pos = .ok (es, p) ∧ pos ≤ p ∧ p ≤ blob.length ∧ ∀ e ∈ es, e.sym < 2 ^ c.symW) ∨
      ∃ off, parseEntries c blob n pos = .error (.corruptContainer off) ∧ off ≤ blob.length := by
  induction n generalizing pos with
  | zero => exact .inl ⟨[], pos, rfl, le_refl _, hpos, by simp⟩
  | succ n ih =>
    rw [parseEntries]
    rcases parseEntry_spec c blob pos with ⟨e, p, e1, h1, h2, hs⟩ | ⟨off, e1, h1⟩
    · rw [e1]; simp only
      rcases ih p h2 with ⟨es, q, e2, g1, g2, gs⟩ | ⟨off, e2, g1⟩
      · rw [e2]
        refine .inl ⟨_, _, rfl, by omega, g2, ?_⟩
        intro a ha
        rcases List.mem_cons.1 ha with rfl | ha
        · exact hs
        · exact gs a ha
      · rw [e2]; exact .inr ⟨off, rfl, g1⟩
    · rw [e1]; exact .inr ⟨off, rfl, h1⟩

/-- What DESERIALIZE's parser accepts: the reads of R182, in order, every byte of the blob consumed. -/
structure Parsed (c : Config) (blob : List Byte) (k : Container) where
  (len p2 p3 n p4 p5 p : Nat)
  arity : takeNat blob 0 1 = .ok (4, 1)
  length : takeNat blob 1 4 = .ok (len, 5)
  data : takeBytes blob 5 len = .ok (k.bytes, p2)
  tree : parseNode c blob (blob.length + 1) 0 p2 = .ok (k.tree, p3)
  count : takeNat blob p3 2 = .ok (n, p4)
  entries : parseEntries c blob n p4 = .ok (k.codes, p5)
  padding : takeNat blob p5 1 = .ok (p, blob.length)
  small : p ≤ 7
  pad : k.pad = BitVec.ofNat 8 p

/-- Everything the parser can do (R182, R183): a container, every field read in order; or CorruptContainer at an offset of the
blob. -/
theorem parseContainer_spec (c : Config) (blob : List Byte) :
    (∃ k, parseContainer c blob = .ok k ∧ Nonempty (Parsed c blob k)) ∨
      ∃ off, parseContainer c blob = .error (.corruptContainer off) ∧ off ≤ blob.length := by
  unfold parseContainer
  rcases takeNat_spec blob 0 1 with ⟨h0, e0, -⟩ | ⟨-, e0⟩
  swap
  · rw [e0]; exact .inr ⟨_, rfl, le_refl _⟩
  rw [e0]; simp only
  split
  · exact .inr ⟨0, rfl, Nat.zero_le _⟩
  rename_i harity
  rcases takeNat_spec blob (0 + 1) 4 with ⟨h1, e1, -⟩ | ⟨-, e1⟩
  swap
  · rw [e1]; exact .inr ⟨_, rfl, le_refl _⟩
  rw [e1]; simp only
  generalize hlen : fromBe (memRead blob (0 + 1) 4) = len at e1 ⊢
  rcases takeBytes_spec blob (0 + 1 + 4) len with ⟨h2, e2, -⟩ | ⟨-, e2⟩
  swap
  · rw [e2]; exact .inr ⟨_, rfl, le_refl _⟩
  rw [e2]; simp only
  rcases parseNode_spec c blob (blob.length + 1) 0 (0 + 1 + 4 + len) with ⟨t, p3, e3, h3, h3', -⟩ | ⟨off, e3, h3⟩
  swap
  · rw [e3]; exact .inr ⟨off, rfl, h3⟩
  rw [e3]; simp only
  rcases takeNat_spec blob p3 2 with ⟨h4, e4, -⟩ | ⟨-, e4⟩
  swap
  · rw [e4]; exact .inr ⟨_, rfl, le_refl _⟩
  rw [e4]; simp only
  rcases parseEntries_spec c blob (fromBe (memRead blob p3 2)) (p3 + 2) h4 with ⟨es, p5, e5, h5, h5', -⟩ | ⟨off, e5, h5⟩
  swap
  · rw [e5]; exact .inr ⟨off, rfl, h5⟩
  rw [e5]; simp only
  rcases takeNat_spec blob p5 1 with ⟨h6, e6, -⟩ | ⟨-, e6⟩
  swap
  · rw [e6]; exact .inr ⟨_, rfl, le_refl _⟩
  rw [e6]; simp only
  split
  · exact .inr ⟨p5, rfl, by omega⟩
  split
  · exact .inr ⟨p5 + 1, rfl, by omega⟩
  rename_i hp hend
  have hend' : p5 + 1 = blob.length := by omega
  refine .inl ⟨_, rfl, ⟨?_⟩⟩
  refine { len := len, p2 := 5 + len, p3 := p3, n := _, p4 := p3 + 2, p5 := p5, p := _, arity := ?_, length := ?_,
           data := ?_, tree := ?_, count := e4, entries := e5, padding := ?_, small := ?_, pad := rfl }
  · rw [e0]; congr 2; exact of_not_not harity
  · simpa using e1
  · simpa using e2
  · simpa [Nat.add_comm] using e3
  · rw [e6, hend']
  · omega

/-! ### Proper beginnings of a blob -/

/-- On the first `n` bytes of a blob a parser that succeeded on the blob either gives the same without reaching past them, or
reports that the blob ends early (R189). -/
def CutsTo {α : Type} (n : Nat) (whole cut : Except Failure (α × Nat)) : Prop :=
  ∀ v p, whole = .ok (v, p) → cut = .error (.corruptContainer n) ∨ (cut = .ok (v, p) ∧ p ≤ n)

section
variable (c : Config) (z : List Byte) (n : Nat) (hn : n < z.length)
include hn

theorem takeBytes_cut (pos k : Nat) : CutsTo n (takeBytes z pos k) (takeBytes (z.take n) pos k) := by
  intro v p h
  have hl : (z.take n).length = n := by simp; omega
  by_cases hk : n < pos + k
  · left; rw [takeBytes, hl, if_pos hk]
  · right
    rw [takeBytes, if_neg (by omega)] at h
    rw [takeBytes, hl, if_neg hk]
    simp only [Except.ok.injEq, Prod.mk.injEq] at h ⊢
    refine ⟨⟨?_, h.2⟩, by omega⟩
    rw [← h.1, memRead, memRead, List.drop_take, List.take_take, Nat.min_eq_left (by omega)]

theorem takeNat_cut (pos k : Nat) : CutsTo n (takeNat z pos k) (takeNat (z.take n) pos k) := by
  intro v p h
  unfold takeNat at h ⊢
  cases e : takeBytes z pos k with
  | error f => rw [e] at h; cases h
  | ok a =>
    obtain ⟨s, q⟩ := a
    rw [e] at h
    rcases takeBytes_cut z n hn pos k s q e with e' | ⟨e', hq⟩
    · left; rw [e']
    · simp only [Except.ok.injEq, Prod.mk.injEq] at h
      right; rw [e']; simp only [Except.ok.injEq, Prod.mk.injEq]
      exact ⟨h, by omega⟩

theorem parseSym_cut (pos : Nat) : CutsTo n (parseSym c z pos) (parseSym c (z.take n) pos) := by
  intro v p h
  unfold parseSym at h ⊢
  cases e : takeNat z pos c.symb with
  | error f => rw [e] at h; cases h
  | ok a =>
    obtain ⟨s, q⟩ := a
    rw [e] at h
    rcases takeNat_cut z n hn pos c.symb s q e with e' | ⟨e', hq⟩
    · left; rw [e']
    · rw [e']; simp only at h ⊢
      split at h
      · cases h
      · rename_i hs
        rw [if_neg hs]
        simp only [Except.ok.injEq, Prod.mk.injEq] at h ⊢
        exact .inr ⟨h, by omega⟩

theorem parseNode_cut (fuel fuel' i pos : Nat) (hf : n < pos + fuel') :
    CutsTo n (parseNode c z fuel i pos) (parseNode c (z.take n) fuel' i pos) := by
  have hl : (z.take n).length = n := by simp; omega
  induction fuel' generalizing fuel i pos with
  | zero => intro v p _; left; rw [parseNode, hl]
  | succ fuel' ih =>
    intro v p h
    cases fuel with
    | zero => cases h
    | succ fuel =>
      rw [parseNode] at h ⊢
      cases e : takeNat z pos 1 with
      | error f => rw [e] at h; cases h
      | ok a =>
        obtain ⟨tag, p1⟩ := a
        rw [e] at h
        rcases takeNat_cut z n hn pos 1 tag p1 e with e' | ⟨e', h1⟩
        · left; rw [e']
        rw [e']; simp only at h ⊢
        have hp1 : p1 = pos + 1 := by
          rcases takeNat_spec z pos 1 with ⟨-, e2, -⟩ | ⟨-, e2⟩ <;> rw [e2] at e <;> cases e; rfl
        split at h
        · rename_i htag
          rw [if_pos htag]
          cases e2 : parseSym c z p1 with
          | error f => rw [e2] at h; cases h
          | ok a =>
            obtain ⟨s, p2⟩ := a
            rw [e2] at h
            rcases parseSym_cut c z n hn p1 s p2 e2 with e3 | ⟨e3, h3⟩
            · left; rw [e3]
            · rw [e3]; simp only [Except.ok.injEq, Prod.mk.injEq] at h ⊢
              exact .inr ⟨h, by omega⟩
        · rename_i htag
          rw [if_neg htag]
          split at h
          · rename_i htag'
            rw [if_pos htag']
            cases e2 : parseNode c z fuel (i + 1) p1 with
            | error f => rw [e2] at h; cases h
            | ok a =>
              obtain ⟨l, p2⟩ := a
              rw [e2] at h; simp only at h
              have hp2 : p1 < p2 := by
                rcases parseNode_spec c z fuel (i + 1) p1 with ⟨t', q', e4, h4, -⟩ | ⟨off, e4, -⟩ <;> rw [e4] at e2 <;> cases e2
                exact h4
              rcases ih fuel (i + 1) p1 (by omega) l p2 e2 with e3 | ⟨e3, h3⟩
              · left; rw [e3]
              rw [e3]; simp only
              cases e4 : parseNode c z fuel (i + 1 + l.size) p2 with
              | error f => rw [e4] at h; cases h
              | ok a =>
                obtain ⟨r, p3⟩ := a
                rw [e4] at h
                rcases ih fuel (i + 1 + l.size) p2 (by omega) r p3 e4 with e5 | ⟨e5, h5⟩
                · left; rw [e5]
                · rw [e5]; simp only [Except.ok.injEq, Prod.mk.injEq] at h ⊢
                  exact .inr ⟨h, by omega⟩
          · cases h

theorem parseEntry_cut (pos : Nat) : CutsTo n (parseEntry c z pos) (parseEntry c (z.take n) pos) := by
  intro v p h
  unfold parseEntry at h ⊢
  cases e1 : parseSym c z pos with
  | error f => rw [e1] at h; cases h
  | ok a =>
    obtain ⟨s, p1⟩ := a
    rw [e1] at h; simp only at h
    rcases parseSym_cut c z n hn pos s p1 e1 with e1' | ⟨e1', -⟩
    · left; rw [e1']
    rw [e1']; simp only
    cases e2 : takeNat z p1 2 with
    | error f => rw [e2] at h; cases h
    | ok a =>
      obtain ⟨len, p2⟩ := a
      rw [e2] at h; simp only at h
      rcases takeNat_cut z n hn p1 2 len p2 e2 with e2' | ⟨e2', -⟩
      · left; rw [e2']
      rw [e2']; simp only
      cases e3 : takeBytes z p2 ((len + 7) / 8) with
      | error f => rw [e3] at h; cases h
      | ok a =>
        obtain ⟨cb, p3⟩ := a
        rw [e3] at h
        rcases takeBytes_cut z n hn p2 ((len + 7) / 8) cb p3 e3 with e3' | ⟨e3', h3⟩
        · left; rw [e3']
        · rw [e3']; simp only [Except.ok.injEq, Prod.mk.injEq] at h ⊢
          exact .inr ⟨h, by omega⟩

theorem parseEntries_cut (m pos : Nat) (hpos : pos ≤ n) :
    CutsTo n (parseEntries c z m pos) (parseEntries c (z.take n) m pos) := by
  induction m generalizing pos with
  | zero =>
    intro v p h
    simp only [parseEntries, Except.ok.injEq, Prod.mk.injEq] at h ⊢
    exact .inr ⟨h, by omega⟩
  | succ m ih =>
    intro v p h
    rw [parseEntries] at h ⊢
    cases e1 : parseEntry c z pos with
    | error f => rw [e1] at h; cases h
    | ok a =>
      obtain ⟨e, p1⟩ := a
      rw [e1] at h; simp only at h
      rcases parseEntry_cut c z n hn pos e p1 e1 with e1' | ⟨e1', h1⟩
      · left; rw [e1']
      rw [e1']; simp only
      cases e2 : parseEntries c z m p1 with
      | error f => rw [e2] at h; cases h
      | ok a =>
        obtain ⟨es, p2⟩ := a
        rw [e2] at h
        rcases ih p1 h1 es p2 e2 with e2' | ⟨e2', h2⟩
        · left; rw [e2']
        · rw [e2']; simp only [Except.ok.injEq, Prod.mk.injEq] at h ⊢
          exact .inr ⟨h, by omega⟩

/-- "Every proper prefix of a blob that DESERIALIZE accepts is rejected with CorruptContainer", at its own length (R189). -/
theorem parseContainer_cut (k : Container) (h : Parsed c z k) :
    parseContainer c (z.take n) = .error (.corruptContainer n) := by
  have hl : (z.take n).length = n := by simp; omega
  unfold parseContainer
  rcases takeNat_cut z n hn 0 1 _ _ h.arity with e | ⟨e, -⟩ <;> rw [e]
  simp only
  rw [if_neg (by simp)]
  rcases takeNat_cut z n hn 1 4 _ _ h.length with e | ⟨e, -⟩ <;> rw [e]
  simp only
  rcases takeBytes_cut z n hn 5 _ _ _ h.data with e | ⟨e, -⟩ <;> rw [e]
  simp only
  rw [hl]
  rcases parseNode_cut c z n hn _ (n + 1) 0 _ (by omega) _ _ h.tree with e | ⟨e, -⟩ <;> rw [e]
  simp only
  rcases takeNat_cut z n hn _ 2 _ _ h.count with e | ⟨e, h4⟩ <;> rw [e]
  simp only
  rcases parseEntries_cut c z n hn _ _ h4 _ _ h.entries with e | ⟨e, -⟩ <;> rw [e]
  simp only
  rcases takeNat_cut z n hn _ 1 _ _ h.padding with e | ⟨e, h6⟩ <;> rw [e]
  simp only
  omega

end

/-! ### Blobs that begin alike -/

/-- A parser that succeeded on `z` without reaching past the first `n` bytes gives the same on the other blob. -/
def ReadsSame {α : Type} (n : Nat) (whole other : Except Failure (α × Nat)) : Prop :=
  ∀ v p, whole = .ok (v, p) → p ≤ n → other = .ok (v, p)

theorem takeBytes_le {z : List Byte} {pos k : Nat} {v : List Byte} {p : Nat} (h : takeBytes z pos k = .ok (v, p)) :
    p = pos + k ∧ pos + k ≤ z.length := by
  rcases takeBytes_spec z pos k with ⟨h1, e, -⟩ | ⟨-, e⟩ <;> rw [h] at e
  · simp only [Except.ok.injEq, Prod.mk.injEq] at e; exact ⟨e.2, h1⟩
  · cases e

theorem takeNat_le {z : List Byte} {pos k v p : Nat} (h : takeNat z pos k = .ok (v, p)) :
    p = pos + k ∧ pos + k ≤ z.length := by
  rcases takeNat_spec z pos k with ⟨h1, e, -⟩ | ⟨-, e⟩ <;> rw [h] at e
  · simp only [Except.ok.injEq, Prod.mk.injEq] at e; exact ⟨e.2, h1⟩
  · cases e

theorem parseSym_le {c : Config} {z : List Byte} {pos v p : Nat} (h : parseSym c z pos = .ok (v, p)) : pos ≤ p := by
  rcases parseSym_spec c z pos with ⟨s, e, -⟩ | ⟨off, e, -⟩ <;> rw [h] at e
  · simp only [Except.ok.injEq, Prod.mk.injEq] at e; omega
  · cases e

theorem parseNode_le {c : Config} {z : List Byte} {fuel i pos p : Nat} {t : Tree} (h : parseNode c z fuel i pos = .ok (t, p)) :
    pos < p := by
  rcases parseNode_spec c z fuel i pos with ⟨t', p', e, h1, -⟩ | ⟨off, e, -⟩ <;> rw [h] at e
  · simp only [Except.ok.injEq, Prod.mk.injEq] at e; omega
  · cases e

theorem parseEntries_le {c : Config} {z : List Byte} {m pos p : Nat} {es : List CodeEntry} (hpos : pos ≤ z.length)
    (h : parseEntries c z m pos = .ok (es, p)) : pos ≤ p := by
  rcases parseEntries_spec c z m pos hpos with ⟨t', p', e, h1, -⟩ | ⟨off, e, -⟩ <;> rw [h] at e
  · simp only [Except.ok.injEq, Prod.mk.injEq] at e; omega
  · cases e

section
variable (c : Config) (z z' : List Byte) (n : Nat) (hz : z.take n = z'.take n) (hn' : n ≤ z'.length)
include hz hn'

theorem takeBytes_same (pos k : Nat) : ReadsSame n (takeBytes z pos k) (takeBytes z' pos k) := by
  intro v p h hp
  have hle := takeBytes_le h
  rw [takeBytes, if_neg (by omega)] at h
  rw [takeBytes, if_neg (by omega)]
  have : memRead z pos k = memRead z' pos k := by
    have e (y : List Byte) : memRead y pos k = memRead (y.take n) pos k := by
      rw [memRead, memRead, List.drop_take, List.take_take, Nat.min_eq_left (by omega)]
    rw [e z, e z', hz]
  rw [← this]; exact h

theorem takeNat_same (pos k : Nat) : ReadsSame n (takeNat z pos k) (takeNat z' pos k) := by
  intro v p h hp
  have hle := takeNat_le h
  unfold takeNat at h ⊢
  cases e : takeBytes z pos k with
  | error f => rw [e] at h; cases h
  | ok a =>
    obtain ⟨s, q⟩ := a
    rw [e] at h
    rw [takeBytes_same z z' n hz hn' pos k s q e (by have := (takeBytes_le e).1; omega)]
    exact h

theorem parseSym_same (pos : Nat) : ReadsSame n (parseSym c z pos) (parseSym c z' pos) := by
  intro v p h hp
  unfold parseSym at h ⊢
  cases e : takeNat z pos c.symb with
  | error f => rw [e] at h; cases h
  | ok a =>
    obtain ⟨s, q⟩ := a
    rw [e] at h; simp only at h
    split at h
    · cases h
    · rename_i hs
      simp only [Except.ok.injEq, Prod.mk.injEq] at h
      rw [takeNat_same z z' n hz hn' pos _ s q e (by omega)]
      simp only [if_neg hs, Except.ok.injEq, Prod.mk.injEq]; exact h

theorem parseNode_same (fuel fuel' i pos : Nat) (hf : n < pos + fuel') :
    ReadsSame n (parseNode c z fuel i pos) (parseNode c z' fuel' i pos) := by
  induction fuel' generalizing fuel i pos with
  | zero => intro v p h hp; have := parseNode_le h; omega
  | succ fuel' ih =>
    intro v p h hp
    cases fuel with
    | zero => cases h
    | succ fuel =>
      rw [parseNode] at h ⊢
      cases e : takeNat z pos 1 with
      | error f => rw [e] at h; cases h
      | ok a =>
        obtain ⟨tag, p1⟩ := a
        rw [e] at h; simp only at h
        have hp1 := (takeNat_le e).1
        split at h
        · rename_i htag
          cases e2 : parseSym c z p1 with
          | error f => rw [e2] at h; cases h
          | ok a =>
            obtain ⟨s, p2⟩ := a
            rw [e2] at h; simp only [Except.ok.injEq, Prod.mk.injEq] at h
            have := parseSym_le e2
            rw [takeNat_same z z' n hz hn' pos 1 tag p1 e (by omega)]
            simp only [if_pos htag]
            rw [parseSym_same c z z' n hz hn' p1 s p2 e2 (by omega)]
            simp only [Except.ok.injEq, Prod.mk.injEq]; exact h
        · rename_i htag
          split at h
          · rename_i htag'
            cases e2 : parseNode c z fuel (i + 1) p1 with
            | error f => rw [e2] at h; cases h
            | ok a =>
              obtain ⟨l, p2⟩ := a
              rw [e2] at h; simp only at h
              have h2 := parseNode_le e2
              cases e4 : parseNode c z fuel (i + 1 + l.size) p2 with
              | error f => rw [e4] at h; cases h
              | ok a =>
                obtain ⟨r, p3⟩ := a
                rw [e4] at h; simp only [Except.ok.injEq, Prod.mk.injEq] at h
                have h4 := parseNode_le e4
                rw [takeNat_same z z' n hz hn' pos 1 tag p1 e (by omega)]
                simp only [if_neg htag, if_pos htag']
                rw [ih fuel (i + 1) p1 (by omega) l p2 e2 (by omega)]
                simp only
                rw [ih fuel (i + 1 + l.size) p2 (by omega) r p3 e4 (by omega)]
                simp only [Except.ok.injEq, Prod.mk.injEq]; exact h
          · cases h

theorem parseEntry_same (pos : Nat) : ReadsSame n (parseEntry c z pos) (parseEntry c z' pos) := by
  intro v p h hp
  unfold parseEntry at h ⊢
  cases e1 : parseSym c z pos with
  | error f => rw [e1] at h; cases h
  | ok a =>
    obtain ⟨s, p1⟩ := a
    rw [e1] at h; simp only at h
    cases e2 : takeNat z p1 2 with
    | error f => rw [e2] at h; cases h
    | ok a =>
      obtain ⟨len, p2⟩ := a
      rw [e2] at h; simp only at h
      cases e3 : takeBytes z p2 ((len + 7) / 8) with
      | error f => rw [e3] at h; cases h
      | ok a =>
        obtain ⟨cb, p3⟩ := a
        rw [e3] at h; simp only [Except.ok.injEq, Prod.mk.injEq] at h
        have h2 := takeNat_le e2
        have h3 := takeBytes_le e3
        rw [parseSym_same c z z' n hz hn' pos s p1 e1 (by omega)]
        simp only
        rw [takeNat_same z z' n hz hn' p1 2 len p2 e2 (by omega)]
        simp only
        rw [takeBytes_same z z' n hz hn' p2 _ cb p3 e3 (by omega)]
        simp only [Except.ok.injEq, Prod.mk.injEq]; exact h

theorem parseEntries_same (m pos : Nat) : ReadsSame n (parseEntries c z m pos) (parseEntries c z' m pos) := by
  induction m generalizing pos with
  | zero => intro v p h _; exact h
  | succ m ih =>
    intro v p h hp
    rw [parseEntries] at h ⊢
    cases e1 : parseEntry c z pos with
    | error f => rw [e1] at h; cases h
    | ok a =>
      obtain ⟨e, p1⟩ := a
      rw [e1] at h; simp only at h
      have hp1 : p1 ≤ z.length := by
        rcases parseEntry_spec c z pos with ⟨e', p', e2, -, h2, -⟩ | ⟨off, e2, -⟩ <;> rw [e1] at e2
        · simp only [Except.ok.injEq, Prod.mk.injEq] at e2; omega
        · cases e2
      cases e2 : parseEntries c z m p1 with
      | error f => rw [e2] at h; cases h
      | ok a =>
        obtain ⟨es, p2⟩ := a
        rw [e2] at h; simp only [Except.ok.injEq, Prod.mk.injEq] at h
        have := parseEntries_le hp1 e2
        rw [parseEntry_same c z z' n hz hn' pos e p1 e1 (by omega)]
        simp only
        rw [ih p1 es p2 e2 (by omega)]
        simp only [Except.ok.injEq, Prod.mk.injEq]; exact h

/-- All of an accepted blob but its padding byte reads the same in a blob that begins alike, so what comes of that blob depends on
what stands at the padding byte's place and after it (R183). -/
theorem parseContainer_same (k : Container) (P : Parsed c z k) (hn : n + 1 = z.length) :
    parseContainer c z' = match takeNat z' n 1 with
      | .error f => .error f
      | .ok (p, p6) =>
        if 7 < p then .error (.corruptContainer n)
        else if p6 < z'.length then .error (.corruptContainer p6)
        else .ok { k with pad := BitVec.ofNat 8 p } := by
  have h5 := takeNat_le P.padding
  have hp5 : P.p5 = n := by omega
  have h4 := takeNat_le P.count
  have h45 := parseEntries_le (by omega) P.entries
  have h3 := parseNode_le P.tree
  have h2 := takeBytes_le P.data
  unfold parseContainer
  rw [takeNat_same z z' n hz hn' 0 1 _ _ P.arity (by omega)]
  simp only
  rw [if_neg (by simp), takeNat_same z z' n hz hn' 1 4 _ _ P.length (by omega)]
  simp only
  rw [takeBytes_same z z' n hz hn' 5 _ _ _ P.data (by omega)]
  simp only
  rw [parseNode_same c z z' n hz hn' _ (z'.length + 1) 0 _ (by omega) _ _ P.tree (by omega)]
  simp only
  rw [takeNat_same z z' n hz hn' _ 2 _ _ P.count (by omega)]
  simp only
  rw [parseEntries_same c z z' n hz hn' _ _ _ _ P.entries (by omega), hp5]
  all_goals rfl

end

/-- Bytes after field 4 are rejected at the first of them (R183: "wrong arity (more than four fields)"). -/
theorem parseContainer_trailing (c : Config) (z : List Byte) (k : Container) (P : Parsed c z k) (b : Byte) (y : List Byte) :
    parseContainer c (z ++ b :: y) = .error (.corruptContainer z.length) := by
  have h5 := takeNat_le P.padding
  rw [parseContainer_same c z (z ++ b :: y) (z.length - 1) (by rw [List.take_append_of_le_length (by omega)])
    (by simp; omega) k P (by omega)]
  have e := takeNat_same z (z ++ b :: y) z.length (by simp) (by simp) P.p5 1 _ _ P.padding (le_refl _)
  rw [show z.length - 1 = P.p5 by omega, e]
  simp only
  have := P.small
  rw [if_neg (by omega), if_pos (by simp)]

/-- A padding byte above 7 is rejected at its offset (R183: "out-of-range padding"). -/
theorem parseContainer_badPadding (c : Config) (z : List Byte) (k : Container) (P : Parsed c z k) (p : Byte) (y : List Byte)
    (hp : 7 < p.toNat) : parseContainer c (z.dropLast ++ p :: y) = .error (.corruptContainer (z.length - 1)) := by
  have h5 := takeNat_le P.padding
  have hl : z.dropLast.length = z.length - 1 := by simp
  rw [parseContainer_same c z (z.dropLast ++ p :: y) (z.length - 1) (by
    rw [← hl, List.take_left', hl, List.dropLast_eq_take]; rfl) (by simp) k P (by omega)]
  have e := takeNat_byte z.dropLast y p
  rw [hl] at e
  rw [e]; simp only
  rw [if_pos hp]

end Sys2Proof.Machine
end

