-- ==== Sys2Proof/Laws/Blob.lean ====
section
/-! SUPPORT. DESERIALIZE's parser against the wire format of spec/30_encoding.md R88 to R99 and the causes of spec/44_container.md
R183: it gives a container exactly of the blobs of one (`IsBlobOf`), and of every other byte sequence the offset of its first
violation (`Violation`). -/

namespace Sys2Proof.Machine

/-! ### What was read stands in the blob -/

theorem fromBe_inj (s t : List Byte) (hl : s.length = t.length) (h : fromBe s = fromBe t) : s = t := by
  induction s generalizing t with
  | nil => exact (List.length_eq_zero_iff.1 hl.symm).symm
  | cons a s ih =>
    cases t with
    | nil => cases hl
    | cons b t =>
      simp only [List.length_cons, Nat.add_right_cancel_iff] at hl
      rw [fromBe_cons, fromBe_cons, hl] at h
      have hs := fromBe_lt s
      have ht := fromBe_lt t
      rw [hl] at hs
      have hpos : 0 < 256 ^ t.length := by positivity
      have e1 : a.toNat = b.toNat := by
        have := congrArg (· / 256 ^ t.length) h
        simp only [Nat.add_comm (_ * _), Nat.add_mul_div_right _ _ hpos, Nat.div_eq_of_lt hs, Nat.div_eq_of_lt ht,
          Nat.zero_add] at this
        exact this
      have e2 : fromBe s = fromBe t := by rw [e1] at h; omega
      rw [ih t hl e2, BitVec.eq_of_toNat_eq e1]

/-- `be_N` is the inverse of `from_be` on N bytes (R10). -/
theorem beN_fromBe (s : List Byte) : beN s.length (fromBe s) = s :=
  fromBe_inj _ _ (by simp) (fromBe_beN _ _ (fromBe_lt s))

theorem takeBytes_drop {z x : List Byte} {pos n p : Nat} (h : takeBytes z pos n = .ok (x, p)) :
    z.take p = z.take pos ++ x ∧ x.length = n ∧ p = pos + n ∧ p ≤ z.length := by
  rcases takeBytes_spec z pos n with ⟨h1, e, e'⟩ | ⟨-, e⟩ <;> rw [h] at e
  · simp only [Except.ok.injEq, Prod.mk.injEq] at e
    obtain ⟨rfl, rfl⟩ := e
    exact ⟨by rw [memRead, List.take_add], e', rfl, h1⟩
  · cases e

theorem takeNat_drop {z : List Byte} {pos n v p : Nat} (h : takeNat z pos n = .ok (v, p)) :
    z.take p = z.take pos ++ beN n v ∧ v < 256 ^ n ∧ p = pos + n ∧ p ≤ z.length := by
  unfold takeNat at h
  cases e : takeBytes z pos n with
  | error f => rw [e] at h; cases h
  | ok a =>
    rw [e] at h
    simp only [Except.ok.injEq, Prod.mk.injEq] at h
    obtain ⟨h1, h2, h3, h4⟩ := takeBytes_drop e
    obtain ⟨rfl, rfl⟩ := h
    rw [← h2]
    exact ⟨by rw [beN_fromBe, h1], fromBe_lt _, by rw [h2]; exact h3, h4⟩

theorem parseSym_drop {c : Config} {z : List Byte} {pos s p : Nat} (h : parseSym c z pos = .ok (s, p)) :
    z.take p = z.take pos ++ symBytes c s ∧ s < 2 ^ c.symW ∧ p ≤ z.length := by
  unfold parseSym at h
  cases e : takeNat z pos c.symb with
  | error f => rw [e] at h; cases h
  | ok a =>
    rw [e] at h; simp only at h
    split at h
    · cases h
    · rename_i hs
      simp only [Except.ok.injEq, Prod.mk.injEq] at h
      obtain ⟨h1, -, -, h4⟩ := takeNat_drop e
      obtain ⟨rfl, rfl⟩ := h
      exact ⟨h1, Nat.not_le.1 hs, h4⟩

theorem parseNode_drop {c : Config} {z : List Byte} {fuel i pos p : Nat} {t : Tree} (h : parseNode c z fuel i pos = .ok (t, p)) :
    z.take p = z.take pos ++ t.wire c ∧ (∀ a ∈ t.leafSymbols, a < 2 ^ c.symW) ∧ p ≤ z.length := by
  induction fuel generalizing i pos t p with
  | zero => cases h
  | succ fuel ih =>
    rw [parseNode] at h
    cases e : takeNat z pos 1 with
    | error f => rw [e] at h; cases h
    | ok a =>
      obtain ⟨tag, p1⟩ := a
      rw [e] at h; simp only at h
      obtain ⟨h1, -, -, -⟩ := takeNat_drop e
      split at h
      · rename_i htag
        cases e2 : parseSym c z p1 with
        | error f => rw [e2] at h; cases h
        | ok a =>
          obtain ⟨s, p2⟩ := a
          rw [e2] at h; simp only [Except.ok.injEq, Prod.mk.injEq] at h
          obtain ⟨rfl, rfl⟩ := h
          obtain ⟨g1, g2, g3⟩ := parseSym_drop e2
          refine ⟨by rw [g1, h1, htag]; simp [Tree.wire, beN], by simpa [Tree.leafSymbols] using g2, g3⟩
      · split at h
        · rename_i htag
          cases e2 : parseNode c z fuel (i + 1) p1 with
          | error f => rw [e2] at h; cases h
          | ok a =>
            obtain ⟨l, p2⟩ := a
            rw [e2] at h; simp only at h
            cases e4 : parseNode c z fuel (i + 1 + l.size) p2 with
            | error f => rw [e4] at h; cases h
            | ok a =>
              obtain ⟨r, p3⟩ := a
              rw [e4] at h; simp only [Except.ok.injEq, Prod.mk.injEq] at h
              obtain ⟨rfl, rfl⟩ := h
              obtain ⟨g1, g2, -⟩ := ih e2
              obtain ⟨k1, k2, k3⟩ := ih e4
              refine ⟨by rw [k1, g1, h1, htag]; simp [Tree.wire, beN], ?_, k3⟩
              intro a ha
              rcases List.mem_append.1 (by simpa [Tree.leafSymbols] using ha) with ha | ha
              · exact g2 a ha
              · exact k2 a ha
        · cases h

theorem parseEntry_drop {c : Config} {z : List Byte} {pos p : Nat} {e : CodeEntry} (h : parseEntry c z pos = .ok (e, p)) :
    (∃ cb, codeBytesFor e.code cb ∧ z.take p = z.take pos ++ (symBytes c e.sym ++ beN 2 e.code.length ++ cb)) ∧
      e.sym < 2 ^ c.symW ∧ e.code.length < 2 ^ 16 ∧ p ≤ z.length := by
  unfold parseEntry at h
  cases e1 : parseSym c z pos with
  | error f => rw [e1] at h; cases h
  | ok a =>
    obtain ⟨s, p1⟩ := a
    rw [e1] at h; simp only at h
    cases e2 : takeNat z p1 2 with
    | error f => rw [e2] at h; cases h
    | ok a =>
      obtain ⟨len, p2⟩ := a
      rw [e2] at h; simp only at h
      cases e3 : takeBytes z p2 ((len + 7) / 8) with
      | error f => rw [e3] at h; cases h
      | ok a =>
        obtain ⟨cb, p3⟩ := a
        rw [e3] at h; simp only [Except.ok.injEq, Prod.mk.injEq] at h
        obtain ⟨rfl, rfl⟩ := h
        obtain ⟨h1, h2, -⟩ := parseSym_drop e1
        obtain ⟨g1, g2, -, -⟩ := takeNat_drop e2
        obtain ⟨k1, k2, -, k4⟩ := takeBytes_drop e3
        have hl : ((unpackBytes cb).drop (8 * ((len + 7) / 8) - len)).length = len := by simp [k2]; omega
        simp only [hl]
        refine ⟨⟨cb, ⟨?_, ?_⟩, by rw [k1, g1, h1]; simp⟩, h2, by norm_num at g2 ⊢; exact g2, k4⟩
        · rw [hl, k2]
        · rw [hl, k2]

theorem parseEntries_drop {c : Config} {z : List Byte} {n pos p : Nat} {es : List CodeEntry} (hpos : pos ≤ z.length)
    (h : parseEntries c z n pos = .ok (es, p)) :
    (∃ w, entriesForm c es w ∧ z.take p = z.take pos ++ w) ∧ es.length = n ∧
      (∀ e ∈ es, e.sym < 2 ^ c.symW ∧ e.code.length < 2 ^ 16) ∧ p ≤ z.length := by
  induction n generalizing pos es with
  | zero => cases h; exact ⟨⟨[], rfl, by simp⟩, rfl, by simp, hpos⟩
  | succ n ih =>
    rw [parseEntries] at h
    cases e1 : parseEntry c z pos with
    | error f => rw [e1] at h; cases h
    | ok a =>
      obtain ⟨e, p1⟩ := a
      rw [e1] at h; simp only at h
      cases e2 : parseEntries c z n p1 with
      | error f => rw [e2] at h; cases h
      | ok a =>
        obtain ⟨es', p2⟩ := a
        rw [e2] at h; simp only [Except.ok.injEq, Prod.mk.injEq] at h
        obtain ⟨rfl, rfl⟩ := h
        obtain ⟨⟨cb, hcb, h1⟩, h2, h3, h4⟩ := parseEntry_drop e1
        obtain ⟨⟨w, hw, g1⟩, g2, g3, g4⟩ := ih h4 e2
        refine ⟨⟨_, ⟨cb, w, hcb, rfl, hw⟩, by rw [g1, h1]; simp⟩, by simp [g2], ?_, g4⟩
        intro a ha
        rcases List.mem_cons.1 ha with rfl | ha
        · exact ⟨h2, h3⟩
        · exact g3 a ha

/-- What the parser accepts is a blob of the container it gives (R99). -/
theorem isBlobOf_of_parsed {c : Config} {z : List Byte} {k : Container} (P : Parsed c z k) : IsBlobOf c k z := by
  obtain ⟨h1, -, -, -⟩ := takeNat_drop P.arity
  obtain ⟨h2, h2', -, -⟩ := takeNat_drop P.length
  obtain ⟨h3, h3', -, h3''⟩ := takeBytes_drop P.data
  obtain ⟨h4, h4', h4''⟩ := parseNode_drop P.tree
  obtain ⟨h5, h5', -, h5''⟩ := takeNat_drop P.count
  obtain ⟨⟨w, hw, h6⟩, h6', h6'', -⟩ := parseEntries_drop h5'' P.entries
  obtain ⟨h7, -, -, -⟩ := takeNat_drop P.padding
  have hp := P.small
  have hpad : k.pad.toNat = P.p := by rw [P.pad, BitVec.toNat_ofNat]; omega
  refine ⟨⟨by rw [h3']; norm_num at h2' ⊢; exact h2', h4', by rw [h6']; norm_num at h5' ⊢; exact h5', h6'', by omega⟩, w, hw, ?_⟩
  rw [List.take_of_length_le (le_refl z.length)] at h7
  rw [h7, h6, h5, h4, h3, h2, h1, h6', P.pad]
  simp [headForm, beN, h3']

/-- The parser gives a container exactly of the blobs of one (R99): of a blob, the container's tree is the one it lays out. -/
theorem parseContainer_ok_iff (c : Config) (z : List Byte) :
    (∃ k, parseContainer c z = .ok k) ↔ ∃ k, IsBlobOf c k z := by
  constructor
  · rintro ⟨k, h⟩
    rcases parseContainer_spec c z with ⟨k', e, ⟨P⟩⟩ | ⟨off, e, -⟩
    · exact ⟨k', isBlobOf_of_parsed P⟩
    · rw [h] at e; cases e
  · rintro ⟨k, h⟩
    exact ⟨_, parseContainer_blob c k z h⟩

/-- A blob of a container is parsed, field by field. -/
theorem parsed_of_blob {c : Config} {z : List Byte} {k : Container} (h : IsBlobOf c k z) :
    Nonempty (Parsed c z { k with tree := k.tree.recon 0 }) := by
  rcases parseContainer_spec c z with ⟨k', e, P⟩ | ⟨off, e, -⟩ <;> rw [parseContainer_blob c k z h] at e
  · cases e; exact P
  · cases e

/-! ### Each violation is met where it stands -/

/-- A fault at the place a path leads to in a tree's record ends the reading of the tree. -/
theorem parseNode_before (c : Config) (z : List Byte) (f : Failure) (t : Tree) (path : Bits) (w p rest : List Byte) (fuel i : Nat)
    (hw : t.wireBefore c path = some w) (hs : ∀ a ∈ t.leafSymbols, a < 2 ^ c.symW) (hz : z = p ++ (w ++ rest))
    (hf : z.length < p.length + fuel)
    (hbad : ∀ fuel i, z.length < p.length + w.length + fuel → parseNode c z fuel i (p.length + w.length) = .error f) :
    parseNode c z fuel i p.length = .error f := by
  induction t generalizing path w p fuel i with
  | leaf j a v =>
    cases path with
    | nil => cases hw; exact hbad fuel i hf
    | cons b q => cases hw
  | node j v l r hl hr =>
    cases path with
    | nil => cases hw; exact hbad fuel i hf
    | cons b q =>
      have hsl : ∀ a ∈ l.leafSymbols, a < 2 ^ c.symW := fun a h => hs a (by simp [Tree.leafSymbols, h])
      have hsr : ∀ a ∈ r.leafSymbols, a < 2 ^ c.symW := fun a h => hs a (by simp [Tree.leafSymbols, h])
      have hlen : z.length = p.length + w.length + rest.length := by rw [hz]; simp; omega
      obtain ⟨n, rfl⟩ : ∃ n, fuel = n + 1 := ⟨fuel - 1, by omega⟩
      cases b with
      | false =>
        obtain ⟨w', hw', rfl⟩ := Option.map_eq_some_iff.1 (by simpa [Tree.wireBefore] using hw)
        have h1 := takeNat_byte p (w' ++ rest) 0x00#8
        rw [show p ++ (0x00#8 :: (w' ++ rest)) = z by rw [hz]; rfl] at h1
        have h2 := hl q w' (p ++ [0x00#8]) n (i + 1) hw' hsl (by simp [hz]) (by simp; omega) (by
          intro fuel i hf
          have := hbad fuel i (by simp at hf ⊢; omega)
          simpa [Nat.add_assoc, Nat.add_comm, Nat.add_left_comm] using this)
        simp only [List.length_append, List.length_singleton] at h2
        simp [parseNode, h1, h2]
      | true =>
        obtain ⟨w', hw', rfl⟩ := Option.map_eq_some_iff.1 (by simpa [Tree.wireBefore] using hw)
        have h1 := takeNat_byte p (l.wire c ++ (w' ++ rest)) 0x00#8
        rw [show p ++ (0x00#8 :: (l.wire c ++ (w' ++ rest))) = z by rw [hz]; simp] at h1
        simp only [List.length_cons, List.length_append] at hlen
        have h2 := parseNode_wire c l hsl n (i + 1) (by have := l.size_le_wire c; omega) (p ++ [0x00#8]) (w' ++ rest)
        rw [show p ++ [0x00#8] ++ (l.wire c ++ (w' ++ rest)) = z by rw [hz]; simp] at h2
        have h3 := hr q w' (p ++ [0x00#8] ++ l.wire c) n (i + 1 + l.size) hw' hsr (by simp [hz]) (by simp; omega) (by
          intro fuel i hf
          have := hbad fuel i (by simp at hf ⊢; omega)
          simpa [Nat.add_assoc, Nat.add_comm, Nat.add_left_comm] using this)
        simp only [List.length_append, List.length_singleton] at h2 h3
        simp [parseNode, h1, h2, h3]

/-- A fault in an entry ends the reading of the entries. -/
theorem parseEntries_before (c : Config) (z : List Byte) (f : Failure) (es : List CodeEntry) (w p rest : List Byte) (n : Nat)
    (hw : entriesForm c es w) (hs : ∀ e ∈ es, e.sym < 2 ^ c.symW ∧ e.code.length < 2 ^ 16) (hz : z = p ++ (w ++ rest))
    (hn : es.length < n) (hbad : parseEntry c z (p.length + w.length) = .error f) :
    parseEntries c z n p.length = .error f := by
  induction es generalizing w p n with
  | nil =>
    cases hw
    obtain ⟨m, rfl⟩ : ∃ m, n = m + 1 := ⟨n - 1, by simp at hn; omega⟩
    simp only [List.length_nil, Nat.add_zero] at hbad
    simp [parseEntries, hbad]
  | cons e es ih =>
    obtain ⟨cb, w', hcb, rfl, hr⟩ := hw
    obtain ⟨m, rfl⟩ : ∃ m, n = m + 1 := ⟨n - 1, by simp at hn; omega⟩
    have h1 := parseEntry_form c e (hs e (by simp)).1 (hs e (by simp)).2 cb hcb p (w' ++ rest)
    rw [show p ++ (symBytes c e.sym ++ (beN 2 e.code.length ++ (cb ++ (w' ++ rest)))) = z by rw [hz]; simp] at h1
    have h2 := ih w' (p ++ (symBytes c e.sym ++ beN 2 e.code.length ++ cb)) m hr (fun e' h => hs e' (by simp [h]))
      (by rw [hz]; simp) (by simpa using hn)
      (by simpa [Nat.add_assoc] using hbad)
    simp only [List.length_append, symBytes_length, beN_length] at h2
    simp [parseEntries, h1, h2]

theorem parseContainer_tree_error (c : Config) (d rest : List Byte) (f : Failure) (hd : d.length < 2 ^ 32)
    (h : parseNode c (headForm d ++ rest) ((headForm d ++ rest).length + 1) 0 (headForm d).length = .error f) :
    parseContainer c (headForm d ++ rest) = .error f := by
  obtain ⟨e1, e2, e3⟩ := head_read d rest hd
  rw [headForm_length] at h
  simp only [parseContainer, e1, e2, e3, h]
  rw [if_neg (by simp)]

theorem parseContainer_entries_error (c : Config) (d rest : List Byte) (t : Tree) (n : Nat) (f : Failure) (hd : d.length < 2 ^ 32)
    (hs : ∀ a ∈ t.leafSymbols, a < 2 ^ c.symW) (hn : n < 2 ^ 16)
    (h : parseEntries c (headForm d ++ (t.wire c ++ (beN 2 n ++ rest))) n (headForm d ++ t.wire c ++ beN 2 n).length = .error f) :
    parseContainer c (headForm d ++ (t.wire c ++ (beN 2 n ++ rest))) = .error f := by
  obtain ⟨e1, e2, e3⟩ := head_read d (t.wire c ++ (beN 2 n ++ rest)) hd
  have e4 := parseNode_wire c t hs ((headForm d ++ (t.wire c ++ (beN 2 n ++ rest))).length + 1) 0
    (by have := t.size_le_wire c; simp; omega) (headForm d) (beN 2 n ++ rest)
  have e5 := takeNat_beN (headForm d ++ t.wire c) rest 2 n (by norm_num at hn ⊢; exact hn)
  rw [List.append_assoc] at e5
  rw [headForm_length] at e4
  simp only [List.length_append, headForm_length, beN_length] at e4 e5 h
  simp only [parseContainer, e1, e2, e3]
  rw [if_neg (by simp)]
  simp only [List.length_append, headForm_length, beN_length, e4, e5, h]

/-- A fault where a tag is expected ends the parse (R92, R183). -/
theorem parseContainer_of_tag {c : Config} {p : List Byte} (hp : BeforeTag c p) (rest : List Byte) (f : Failure)
    (hbad : ∀ fuel i, (p ++ rest).length < p.length + fuel → parseNode c (p ++ rest) fuel i p.length = .error f) :
    parseContainer c (p ++ rest) = .error f := by
  obtain ⟨d, t, path, w, hd, hs, hw, rfl⟩ := hp
  rw [List.append_assoc] at hbad ⊢
  apply parseContainer_tree_error c d _ f hd
  apply parseNode_before c _ f t path w (headForm d) rest _ 0 hw hs rfl (by omega)
  intro fuel i hf
  have := hbad fuel i (by simp only [List.length_append] at hf ⊢; omega)
  simpa only [List.length_append] using this

/-- A fault in a symbol field ends the parse (R93, R183). -/
theorem parseContainer_of_symbol {c : Config} {p : List Byte} (hp : BeforeSymbol c p) (rest : List Byte) (f : Failure)
    (hbad : parseSym c (p ++ rest) p.length = .error f) : parseContainer c (p ++ rest) = .error f := by
  rcases hp with ⟨q, hq, rfl⟩ | ⟨d, t, n, es, w, hd, hs, hn, hlt, he, hw, rfl⟩
  · rw [List.append_assoc] at hbad ⊢
    apply parseContainer_of_tag hq
    intro fuel i hf
    obtain ⟨m, rfl⟩ : ∃ m, fuel = m + 1 := ⟨fuel - 1, by simp at hf; omega⟩
    have h1 := takeNat_byte q rest 0x01#8
    simp only [List.length_append, List.length_singleton, List.singleton_append] at hbad h1 ⊢
    simp [parseNode, h1, hbad]
  · have hz : headForm d ++ t.wire c ++ beN 2 n ++ w ++ rest = headForm d ++ (t.wire c ++ (beN 2 n ++ (w ++ rest))) := by simp
    rw [hz] at hbad ⊢
    apply parseContainer_entries_error c d _ t n f hd hs hn
    apply parseEntries_before c _ f es w _ rest n hw he (by simp) hlt
    simp only [List.length_append] at hbad ⊢
    simp only [parseEntry, hbad]

theorem parseSym_short (c : Config) (p f : List Byte) (hf : f.length < c.symb) :
    parseSym c (p ++ f) p.length = .error (.corruptContainer (p ++ f).length) := by
  rcases takeNat_spec (p ++ f) p.length c.symb with ⟨h, -, -⟩ | ⟨-, e⟩
  · simp at h; omega
  · simp [parseSym, e]

theorem parseSym_bad (c : Config) (p f y : List Byte) (hf : f.length = c.symb) (hv : 2 ^ c.symW ≤ fromBe f) :
    parseSym c (p ++ (f ++ y)) p.length = .error (.corruptContainer p.length) := by
  have := takeNat_append p f y
  rw [hf] at this
  simp [parseSym, this, hv]

/-- Every violation is reported at its place (R183). -/
theorem parseContainer_of_violation {c : Config} {z : List Byte} {off : Nat} (h : Violation c z off) :
    parseContainer c z = .error (.corruptContainer off) := by
  cases h with
  | arity b y hb =>
    have h1 := takeNat_byte [] y b
    simp only [List.nil_append, List.length_nil] at h1
    simp only [parseContainer, h1]
    rw [if_pos]
    intro hn
    exact hb (BitVec.eq_of_toNat_eq hn)
  | endsEarly k z y hy hk =>
    obtain ⟨P⟩ := parsed_of_blob hk
    have hl : 0 < y.length := List.length_pos_iff.2 hy
    have := parseContainer_cut c (z ++ y) z.length (by simp; omega) _ P
    simpa using this
  | endsInSymbol p f hp hf => exact parseContainer_of_symbol hp f _ (parseSym_short c p f hf)
  | badTag p b y hp hb =>
    apply parseContainer_of_tag hp
    intro fuel i hf
    obtain ⟨m, rfl⟩ : ∃ m, fuel = m + 1 := ⟨fuel - 1, by simp at hf; omega⟩
    rw [parseNode, takeNat_byte p y b]
    simp only
    rw [if_neg (by omega), if_neg (by omega)]
  | badSymbol p f y hp hf hv =>
    rw [List.append_assoc]
    exact parseContainer_of_symbol hp _ _ (parseSym_bad c p f y hf hv)
  | badPadding k z p y hk hp =>
    obtain ⟨P⟩ := parsed_of_blob hk
    have := parseContainer_badPadding c _ _ P p y hp
    simpa using this
  | trailing k z b y hk =>
    obtain ⟨P⟩ := parsed_of_blob hk
    exact parseContainer_trailing c z _ P b y

/-! ### What is rejected has a violation -/

theorem codeBytesFor_drop (cb : List Byte) (n : Nat) (h : cb.length = (n + 7) / 8) :
    codeBytesFor ((unpackBytes cb).drop (8 * cb.length - n)) cb ∧ ((unpackBytes cb).drop (8 * cb.length - n)).length = n := by
  have hl : ((unpackBytes cb).drop (8 * cb.length - n)).length = n := by simp; omega
  exact ⟨⟨by rw [hl, h], by rw [hl]⟩, hl⟩

/-- Bytes that are too few for a field, and what makes them one. -/
theorem take_short {z : List Byte} {pos n : Nat} (hpos : pos ≤ z.length) (h : z.length < pos + n) :
    ∃ f y, z = z.take pos ++ f ∧ y ≠ [] ∧ (f ++ y).length = n := by
  refine ⟨z.drop pos, List.replicate (n - (z.length - pos)) 0, by simp, ?_, by simp; omega⟩
  simp; omega

/-- A symbol field that is not read is a violation. -/
theorem violation_of_sym {c : Config} {z : List Byte} {pos : Nat} {f : Failure} (hpos : pos ≤ z.length)
    (hp : BeforeSymbol c (z.take pos)) (h : parseSym c z pos = .error f) : ∃ off, f = .corruptContainer off ∧ Violation c z off := by
  unfold parseSym at h
  rcases takeNat_spec z pos c.symb with ⟨h1, e, -⟩ | ⟨h1, e⟩ <;> rw [e] at h
  · simp only at h
    split at h
    · rename_i hv
      cases h
      refine ⟨pos, rfl, ?_⟩
      have := Violation.badSymbol (c := c) _ (memRead z pos c.symb) (z.drop (pos + c.symb)) hp (by simp [memRead]; omega) hv
      rw [memRead, List.append_assoc, ← List.drop_drop, List.take_append_drop, List.take_append_drop, List.length_take,
        Nat.min_eq_left hpos] at this
      exact this
    · cases h
  · cases h
    refine ⟨z.length, rfl, ?_⟩
    have := Violation.endsInSymbol _ (z.drop pos) hp (by simp; omega)
    rwa [List.take_append_drop] at this

/-- Places in a blob from which a tree's record is to be read: a tag is expected there, at every place the record goes on to, and
behind the record something is missing. -/
def TreePlace (c : Config) (p : List Byte) : Prop :=
  ∀ t : Tree, (∀ a ∈ t.leafSymbols, a < 2 ^ c.symW) →
    (∀ path w, t.wireBefore c path = some w → BeforeTag c (p ++ w)) ∧
      ∃ k y, y ≠ [] ∧ IsBlobOf c k (p ++ t.wire c ++ y)

theorem leaf_zero_ok (c : Config) : ∀ a ∈ (Tree.leaf 0 0 0).leafSymbols, a < 2 ^ c.symW := by
  simp [Tree.leafSymbols]

theorem leafSymbols_node_ok {c : Config} {l r : Tree} (i w : Nat) (hl : ∀ a ∈ l.leafSymbols, a < 2 ^ c.symW)
    (hr : ∀ a ∈ r.leafSymbols, a < 2 ^ c.symW) : ∀ a ∈ (Tree.node i w l r).leafSymbols, a < 2 ^ c.symW := by
  intro a ha
  rcases List.mem_append.1 ha with ha | ha
  · exact hl a ha
  · exact hr a ha

theorem violation_of_node {c : Config} {z : List Byte} {fuel i pos : Nat} {f : Failure} (hpos : pos ≤ z.length)
    (hf : z.length < pos + fuel) (hp : TreePlace c (z.take pos)) (h : parseNode c z fuel i pos = .error f) :
    ∃ off, f = .corruptContainer off ∧ Violation c z off := by
  induction fuel generalizing i pos with
  | zero => omega
  | succ fuel ih =>
    rw [parseNode] at h
    cases e : takeNat z pos 1 with
    | error g =>
      rw [e] at h; cases h
      rcases takeNat_spec z pos 1 with ⟨-, e', -⟩ | ⟨hl, e'⟩ <;> rw [e] at e' <;> cases e'
      obtain ⟨-, k, y, hy, hk⟩ := hp (.leaf 0 0 0) (leaf_zero_ok c)
      rw [List.take_of_length_le (by omega), List.append_assoc] at hk
      exact ⟨_, rfl, .endsEarly k z _ (by simp [hy]) hk⟩
    | ok a =>
      obtain ⟨tag, p1⟩ := a
      rw [e] at h; simp only at h
      obtain ⟨h1, htag, hp1, hp1'⟩ := takeNat_drop e
      have htake : z.take p1 = z.take pos ++ [BitVec.ofNat 8 tag] := by simpa [beN] using h1
      split at h
      · rename_i htag'
        cases e2 : parseSym c z p1 with
        | error g =>
          rw [e2] at h; cases h
          refine violation_of_sym hp1' ?_ e2
          refine .inl ⟨_, ?_, by rw [htake, htag']⟩
          simpa using (hp (.leaf 0 0 0) (leaf_zero_ok c)).1 [] [] rfl
        | ok a => rw [e2] at h; cases h
      · rename_i hnl
        split at h
        · rename_i htag'
          rw [htag'] at htake
          cases e2 : parseNode c z fuel (i + 1) p1 with
          | error g =>
            rw [e2] at h; cases h
            refine ih hp1' (by omega) ?_ e2
            intro t ht
            obtain ⟨g1, k, y, hy, hk⟩ := hp (.node 0 0 t (.leaf 0 0 0)) (leafSymbols_node_ok 0 0 ht (leaf_zero_ok c))
            rw [htake]
            refine ⟨fun path w hw => ?_, k, (Tree.leaf 0 0 0).wire c ++ y, by simp [hy], ?_⟩
            · simpa using g1 (false :: path) (0x00#8 :: w) (by simp [Tree.wireBefore, hw])
            · simpa [Tree.wire] using hk
          | ok a =>
            obtain ⟨l, p2⟩ := a
            rw [e2] at h; simp only at h
            obtain ⟨k1, k2, k3⟩ := parseNode_drop e2
            have k4 := parseNode_le e2
            cases e4 : parseNode c z fuel (i + 1 + l.size) p2 with
            | error g =>
              rw [e4] at h; cases h
              refine ih k3 (by omega) ?_ e4
              intro t ht
              obtain ⟨g1, k, y, hy, hk⟩ := hp (.node 0 0 l t) (leafSymbols_node_ok 0 0 k2 ht)
              rw [k1, htake]
              refine ⟨fun path w hw => ?_, k, y, hy, ?_⟩
              · simpa using g1 (true :: path) (0x00#8 :: (l.wire c ++ w)) (by simp [Tree.wireBefore, hw])
              · simpa [Tree.wire] using hk
            | ok a => rw [e4] at h; cases h
        · rename_i hni
          cases h
          refine ⟨pos, rfl, ?_⟩
          have hb := (hp (.leaf 0 0 0) (leaf_zero_ok c)).1 [] [] rfl
          rw [List.append_nil] at hb
          have hz : z = z.take pos ++ BitVec.ofNat 8 tag :: z.drop p1 := by
            conv_lhs => rw [← List.take_append_drop p1 z, htake]
            simp
          have := Violation.badTag _ (BitVec.ofNat 8 tag) (z.drop p1) hb (by
            rw [BitVec.toNat_ofNat, Nat.mod_eq_of_lt (by norm_num at htag ⊢; exact htag)]; omega)
          rw [← hz, List.length_take, Nat.min_eq_left hpos] at this
          exact this

/-- Places in a blob from which `n` code entries are to be read. -/
def EntryPlace (c : Config) (n : Nat) (p : List Byte) : Prop :=
  ∀ (es : List CodeEntry) (w : List Byte), (∀ e ∈ es, e.sym < 2 ^ c.symW ∧ e.code.length < 2 ^ 16) → entriesForm c es w →
    (es.length < n → BeforeSymbol c (p ++ w)) ∧ (es.length = n → ∃ k y, y ≠ [] ∧ IsBlobOf c k (p ++ w ++ y))

theorem EntryPlace.tail {c : Config} {n : Nat} {p cb : List Byte} (hp : EntryPlace c (n + 1) p) (e : CodeEntry)
    (h : e.sym < 2 ^ c.symW ∧ e.code.length < 2 ^ 16) (hcb : codeBytesFor e.code cb) :
    EntryPlace c n (p ++ (symBytes c e.sym ++ beN 2 e.code.length ++ cb)) := by
  intro es w hs hw
  obtain ⟨g1, g2⟩ := hp (e :: es) _ (by
    intro a ha
    rcases List.mem_cons.1 ha with rfl | ha
    · exact h
    · exact hs a ha) ⟨cb, w, hcb, rfl, hw⟩
  refine ⟨fun hl => by simpa using g1 (by simpa using hl), fun hl => ?_⟩
  obtain ⟨k, y, hy, hk⟩ := g2 (by simpa using hl)
  exact ⟨k, y, hy, by simpa using hk⟩

/-- However many entries are owed, something can be written for them and the rest. -/
theorem EntryPlace.complete {c : Config} {n : Nat} {p : List Byte} (hp : EntryPlace c n p) :
    ∃ k y, y ≠ [] ∧ IsBlobOf c k (p ++ y) := by
  obtain ⟨k, y, hy, hk⟩ := (hp (List.replicate n ⟨0, []⟩) _ (by
    intro e he
    rw [List.eq_of_mem_replicate he]
    simp) (entriesForm_wire c _)).2 (by simp)
  rw [List.append_assoc] at hk
  exact ⟨k, _, by simp [hy], hk⟩

theorem violation_of_entry {c : Config} {z : List Byte} {n pos : Nat} {f : Failure} (hpos : pos ≤ z.length)
    (hp : EntryPlace c (n + 1) (z.take pos)) (h : parseEntry c z pos = .error f) :
    ∃ off, f = .corruptContainer off ∧ Violation c z off := by
  unfold parseEntry at h
  cases e1 : parseSym c z pos with
  | error g =>
    rw [e1] at h; cases h
    exact violation_of_sym hpos (by simpa using (hp [] [] (by simp) rfl).1 (by simp)) e1
  | ok a =>
    obtain ⟨s, p1⟩ := a
    rw [e1] at h; simp only at h
    obtain ⟨h1, h2, h3⟩ := parseSym_drop e1
    cases e2 : takeNat z p1 2 with
    | error g =>
      rw [e2] at h; cases h
      rcases takeNat_spec z p1 2 with ⟨-, e', -⟩ | ⟨hl, e'⟩ <;> rw [e2] at e' <;> cases e'
      refine ⟨_, rfl, ?_⟩
      obtain ⟨g, y, hz, hy, hgy⟩ := take_short h3 hl
      have hlen : fromBe (g ++ y) < 2 ^ 16 := by
        have := fromBe_lt (g ++ y)
        rw [hgy] at this; norm_num at this ⊢; exact this
      have hb : beN 2 (fromBe (g ++ y)) = g ++ y := by
        have := beN_fromBe (g ++ y)
        rwa [hgy] at this
      obtain ⟨k1, k2⟩ := codeBytesFor_drop (List.replicate ((fromBe (g ++ y) + 7) / 8) 0) (fromBe (g ++ y)) (by simp)
      generalize (unpackBytes (List.replicate ((fromBe (g ++ y) + 7) / 8) 0)).drop _ = code at k1 k2
      obtain ⟨k, y', hy', hk⟩ := (hp.tail ⟨s, code⟩ ⟨h2, by rw [k2]; exact hlen⟩ k1).complete
      have hk' := Violation.endsEarly (c := c) k z (y ++ (List.replicate ((fromBe (g ++ y) + 7) / 8) 0 ++ y')) (by simp [hy])
      apply hk'
      simp only at hk
      rw [k2, hb] at hk
      rw [h1] at hz
      rw [hz]
      simpa using hk
    | ok a =>
      obtain ⟨len, p2⟩ := a
      rw [e2] at h; simp only at h
      obtain ⟨g1, g2, -, g4⟩ := takeNat_drop e2
      cases e3 : takeBytes z p2 ((len + 7) / 8) with
      | error g =>
        rw [e3] at h; cases h
        rcases takeBytes_spec z p2 ((len + 7) / 8) with ⟨-, e', -⟩ | ⟨hl, e'⟩ <;> rw [e3] at e' <;> cases e'
        refine ⟨_, rfl, ?_⟩
        obtain ⟨g, y, hz, hy, hgy⟩ := take_short g4 hl
        obtain ⟨k1, k2⟩ := codeBytesFor_drop (g ++ y) len hgy
        generalize (unpackBytes (g ++ y)).drop _ = code at k1 k2
        obtain ⟨k, y', hy', hk⟩ := (hp.tail ⟨s, code⟩ ⟨h2, by rw [k2]; norm_num at g2 ⊢; exact g2⟩ k1).complete
        refine .endsEarly k z (y ++ y') (by simp [hy]) ?_
        simp only at hk
        rw [k2] at hk
        rw [g1, h1] at hz
        rw [hz]
        simpa using hk
      | ok a => rw [e3] at h; cases h

theorem violation_of_entries {c : Config} {z : List Byte} {n pos : Nat} {f : Failure} (hpos : pos ≤ z.length)
    (hp : EntryPlace c n (z.take pos)) (h : parseEntries c z n pos = .error f) :
    ∃ off, f = .corruptContainer off ∧ Violation c z off := by
  induction n generalizing pos with
  | zero => cases h
  | succ n ih =>
    rw [parseEntries] at h
    cases e1 : parseEntry c z pos with
    | error g => rw [e1] at h; cases h; exact violation_of_entry hpos hp e1
    | ok a =>
      obtain ⟨e, p1⟩ := a
      rw [e1] at h; simp only at h
      obtain ⟨⟨cb, hcb, h1⟩, h2, h3, h4⟩ := parseEntry_drop e1
      cases e2 : parseEntries c z n p1 with
      | error g =>
        rw [e2] at h; cases h
        exact ih h4 (by rw [h1]; exact hp.tail e ⟨h2, h3⟩ hcb) e2
      | ok a => rw [e2] at h; cases h

/-- Blobs of containers without code entries, to complete a beginning with. -/
theorem isBlobOf_small (c : Config) (d : List Byte) (t : Tree) (hd : d.length < 2 ^ 32) (ht : ∀ a ∈ t.leafSymbols, a < 2 ^ c.symW) :
    IsBlobOf c ⟨d, t, [], 0#8⟩ (headForm d ++ t.wire c ++ [0x00#8, 0x00#8, 0x00#8]) :=
  ⟨⟨hd, ht, by simp, by simp, by simp⟩, [], rfl, by simp [beN]⟩

/-- The parser's rejections are violations, each at its place: "the complete list of violations" (R99, R183). -/
theorem violation_of_error {c : Config} {z : List Byte} {f : Failure} (h : parseContainer c z = .error f) :
    ∃ off, f = .corruptContainer off ∧ Violation c z off := by
  unfold parseContainer at h
  cases e0 : takeNat z 0 1 with
  | error g =>
    rw [e0] at h; cases h
    rcases takeNat_spec z 0 1 with ⟨-, e', -⟩ | ⟨hl, e'⟩ <;> rw [e0] at e' <;> cases e'
    obtain rfl : z = [] := List.length_eq_zero_iff.1 (by omega)
    exact ⟨0, rfl, .endsEarly _ [] _ (by simp) (isBlobOf_small c [] (.leaf 0 0 0) (by simp) (leaf_zero_ok c))⟩
  | ok a =>
  obtain ⟨ar, p0⟩ := a
  rw [e0] at h; simp only at h
  obtain ⟨a1, a2, a3, a4⟩ := takeNat_drop e0
  have hb : z = BitVec.ofNat 8 ar :: z.drop p0 := by
    conv_lhs => rw [← List.take_append_drop p0 z, a1]
    simp [beN]
  split at h
  · rename_i har
    cases h
    refine ⟨0, rfl, ?_⟩
    rw [hb]
    refine .arity _ _ fun hc => har ?_
    have := congrArg BitVec.toNat hc
    rw [BitVec.toNat_ofNat, Nat.mod_eq_of_lt (by norm_num at a2 ⊢; exact a2)] at this
    exact this
  rename_i har
  obtain rfl : ar = 4 := of_not_not har
  have t0 : z.take p0 = [0x04#8] := by rw [a1]; simp [beN]
  cases e1 : takeNat z p0 4 with
  | error g =>
    rw [e1] at h; cases h
    rcases takeNat_spec z p0 4 with ⟨-, e', -⟩ | ⟨hl, e'⟩ <;> rw [e1] at e' <;> cases e'
    refine ⟨_, rfl, ?_⟩
    obtain ⟨g, y, hz, hy, hgy⟩ := take_short a4 hl
    have hlen := fromBe_lt (g ++ y)
    have hbe := beN_fromBe (g ++ y)
    rw [hgy] at hlen hbe
    have hk := isBlobOf_small c (List.replicate (fromBe (g ++ y)) 0) (.leaf 0 0 0) (by simp; norm_num at hlen ⊢; exact hlen)
      (leaf_zero_ok c)
    refine .endsEarly ⟨List.replicate (fromBe (g ++ y)) 0, .leaf 0 0 0, [], 0#8⟩ z
      (y ++ (List.replicate (fromBe (g ++ y)) 0 ++ ((Tree.leaf 0 0 0).wire c ++ [0x00#8, 0x00#8, 0x00#8]))) (by simp [hy]) ?_
    rw [t0] at hz
    rw [hz]
    rw [headForm, List.length_replicate, hbe] at hk
    simpa using hk
  | ok a =>
  obtain ⟨len, p1⟩ := a
  rw [e1] at h; simp only at h
  obtain ⟨b1, b2, b3, b4⟩ := takeNat_drop e1
  have hlen : len < 2 ^ 32 := by norm_num at b2 ⊢; exact b2
  cases e2 : takeBytes z p1 len with
  | error g =>
    rw [e2] at h; cases h
    rcases takeBytes_spec z p1 len with ⟨-, e', -⟩ | ⟨hl, e'⟩ <;> rw [e2] at e' <;> cases e'
    refine ⟨_, rfl, ?_⟩
    obtain ⟨g, y, hz, hy, hgy⟩ := take_short b4 hl
    have hk := isBlobOf_small c (g ++ y) (.leaf 0 0 0) (by rw [hgy]; exact hlen) (leaf_zero_ok c)
    refine .endsEarly ⟨g ++ y, .leaf 0 0 0, [], 0#8⟩ z (y ++ ((Tree.leaf 0 0 0).wire c ++ [0x00#8, 0x00#8, 0x00#8]))
      (by simp [hy]) ?_
    rw [b1, t0] at hz
    rw [hz]
    rw [headForm, hgy] at hk
    simpa using hk
  | ok a =>
  obtain ⟨d, p2⟩ := a
  rw [e2] at h; simp only at h
  obtain ⟨d1, d2, d3, d4⟩ := takeBytes_drop e2
  have t2 : z.take p2 = headForm d := by rw [d1, b1, t0, headForm, d2]
  have hd : d.length < 2 ^ 32 := by rw [d2]; exact hlen
  cases e3 : parseNode c z (z.length + 1) 0 p2 with
  | error g =>
    rw [e3] at h; cases h
    refine violation_of_node d4 (by omega) ?_ e3
    intro t ht
    rw [t2]
    exact ⟨fun path w hw => ⟨d, t, path, w, hd, ht, hw, rfl⟩, _, _, by simp, isBlobOf_small c d t hd ht⟩
  | ok a =>
  obtain ⟨t, p3⟩ := a
  rw [e3] at h; simp only at h
  obtain ⟨t1, ht, t4⟩ := parseNode_drop e3
  cases e4 : takeNat z p3 2 with
  | error g =>
    rw [e4] at h; cases h
    rcases takeNat_spec z p3 2 with ⟨-, e', -⟩ | ⟨hl, e'⟩ <;> rw [e4] at e' <;> cases e'
    refine ⟨_, rfl, ?_⟩
    obtain ⟨g, y, hz, hy, hgy⟩ := take_short t4 hl
    have hn := fromBe_lt (g ++ y)
    have hbe := beN_fromBe (g ++ y)
    rw [hgy] at hn hbe
    have hn' : fromBe (g ++ y) < 2 ^ 16 := by norm_num at hn ⊢; exact hn
    refine .endsEarly ⟨d, t, List.replicate (fromBe (g ++ y)) ⟨0, []⟩, 0#8⟩ z
      (y ++ ((List.replicate (fromBe (g ++ y)) (⟨0, []⟩ : CodeEntry)).flatMap (entryWire c) ++ [0x00#8])) (by simp [hy])
      ⟨⟨hd, ht, by simpa using hn', ?_, by simp⟩, _, entriesForm_wire c _, ?_⟩
    · intro e he
      rw [List.eq_of_mem_replicate he]
      simp
    · rw [t1, t2] at hz
      rw [hz, List.length_replicate, hbe]
      simp
  | ok a =>
  obtain ⟨n, p4⟩ := a
  rw [e4] at h; simp only at h
  obtain ⟨n1, n2, -, n4⟩ := takeNat_drop e4
  have hn : n < 2 ^ 16 := by norm_num at n2 ⊢; exact n2
  have t4' : z.take p4 = headForm d ++ t.wire c ++ beN 2 n := by rw [n1, t1, t2]
  have hpl : EntryPlace c n (z.take p4) := by
    intro es w hs hw
    rw [t4']
    refine ⟨fun hl => .inr ⟨d, t, n, es, w, hd, ht, hn, hl, hs, hw, rfl⟩, fun hl => ?_⟩
    subst hl
    exact ⟨⟨d, t, es, 0#8⟩, [0x00#8], by simp, ⟨hd, ht, hn, hs, by simp⟩, w, hw, rfl⟩
  cases e5 : parseEntries c z n p4 with
  | error g => rw [e5] at h; cases h; exact violation_of_entries n4 hpl e5
  | ok a =>
  obtain ⟨es, p5⟩ := a
  rw [e5] at h; simp only at h
  obtain ⟨⟨w, hw, w1⟩, w2, w3, w4⟩ := parseEntries_drop n4 e5
  subst w2
  have hk (p : Byte) (hp : p.toNat ≤ 7) : IsBlobOf c ⟨d, t, es, p⟩ (z.take p5 ++ [p]) :=
    ⟨⟨hd, ht, hn, w3, hp⟩, w, hw, by rw [w1, t4']⟩
  cases e6 : takeNat z p5 1 with
  | error g =>
    rw [e6] at h; cases h
    rcases takeNat_spec z p5 1 with ⟨-, e', -⟩ | ⟨hl, e'⟩ <;> rw [e6] at e' <;> cases e'
    refine ⟨_, rfl, .endsEarly ⟨d, t, es, 0#8⟩ z [0x00#8] (by simp) ?_⟩
    have := hk 0x00#8 (by simp)
    rwa [List.take_of_length_le (by omega)] at this
  | ok a =>
  obtain ⟨p, p6⟩ := a
  rw [e6] at h; simp only at h
  obtain ⟨q1, q2, q3, q4⟩ := takeNat_drop e6
  have hpb : (BitVec.ofNat 8 p).toNat = p := by
    rw [BitVec.toNat_ofNat, Nat.mod_eq_of_lt (by norm_num at q2 ⊢; exact q2)]
  have q1' : z.take p6 = z.take p5 ++ [BitVec.ofNat 8 p] := by simpa [beN] using q1
  split at h
  · rename_i hp
    cases h
    refine ⟨_, rfl, ?_⟩
    have := Violation.badPadding ⟨d, t, es, 0#8⟩ (z.take p5) (BitVec.ofNat 8 p) (z.drop p6) (hk 0#8 (by simp)) (by omega)
    rw [← List.singleton_append, ← List.append_assoc, ← q1', List.take_append_drop, List.length_take, Nat.min_eq_left w4] at this
    exact this
  rename_i hp
  split at h
  · rename_i hlt
    cases h
    refine ⟨_, rfl, ?_⟩
    have hb := hk (BitVec.ofNat 8 p) (by omega)
    rw [← q1'] at hb
    obtain ⟨b, y, hy⟩ : ∃ b y, z.drop p6 = b :: y := by
      cases hd : z.drop p6 with
      | nil => have := List.drop_eq_nil_iff.1 hd; omega
      | cons b y => exact ⟨b, y, rfl⟩
    have := Violation.trailing _ (z.take p6) b y hb
    rw [← hy, List.take_append_drop, List.length_take, Nat.min_eq_left q4] at this
    exact this
  · cases h

/-- What DESERIALIZE's parser can do, in the wire format's own words (R99, R183). -/
theorem parseContainer_iff (c : Config) (z : List Byte) (off : Nat) :
    parseContainer c z = .error (.corruptContainer off) ↔ Violation c z off := by
  refine ⟨fun h => ?_, parseContainer_of_violation⟩
  obtain ⟨off', e, v⟩ := violation_of_error h
  cases e; exact v

end Sys2Proof.Machine
end

