-- ==== Sys2Proof/Laws/Codes.lean ====
section
/-! SUPPORT. What DERIVE_CODES' table is, what ENCODE makes of a table, and that DECODE's walk follows the paths
(spec/42_code_table.md; spec/46_laws.md R221, R224, R232, R233). -/

namespace Sys2Proof.Machine

/-! ### The derived codes -/

theorem Tree.visit_map (t : Tree) (p : Bits) : t.visit p = (t.visit []).map fun e => ⟨e.sym, p ++ e.code⟩ := by
  induction t generalizing p with
  | leaf i s w => simp [Tree.visit]
  | node i w l r hl hr =>
    simp only [Tree.visit, List.map_append, List.nil_append]
    rw [hl (p ++ [false]), hr (p ++ [true]), hl [false], hr [true]]
    simp [List.map_map, Function.comp_def]

theorem Tree.visit_node (i w : Nat) (l r : Tree) :
    (Tree.node i w l r).visit [] = (l.visit []).map (fun e => ⟨e.sym, false :: e.code⟩)
      ++ (r.visit []).map fun e => ⟨e.sym, true :: e.code⟩ := by
  simp only [Tree.visit, List.nil_append]
  rw [l.visit_map [false], r.visit_map [true]]; rfl

/-- One entry a leaf, in left-to-right order (R140 (a)). -/
theorem Tree.visit_syms (t : Tree) (p : Bits) : (t.visit p).map CodeEntry.sym = t.leafSymbols := by
  induction t generalizing p with
  | leaf i s w => rfl
  | node i w l r hl hr => simp [Tree.visit, Tree.leafSymbols, hl, hr]

/-- Every code is the path to a leaf with the entry's symbol (R137). -/
theorem Tree.visit_follow (t : Tree) {e : CodeEntry} (h : e ∈ t.visit []) :
    ∃ i w, t.follow e.code = some (.leaf i e.sym w) := by
  induction t generalizing e with
  | leaf i s w =>
    simp only [Tree.visit, List.mem_singleton] at h
    subst h; exact ⟨i, w, rfl⟩
  | node i w l r hl hr =>
    rw [Tree.visit_node] at h
    rcases List.mem_append.1 h with h | h
    · obtain ⟨e', he', rfl⟩ := List.mem_map.1 h
      obtain ⟨j, v, hj⟩ := hl he'
      exact ⟨j, v, by simpa [Tree.follow] using hj⟩
    · obtain ⟨e', he', rfl⟩ := List.mem_map.1 h
      obtain ⟨j, v, hj⟩ := hr he'
      exact ⟨j, v, by simpa [Tree.follow] using hj⟩

/-- "No entry's code is a prefix of another entry's code" (R224). -/
theorem Tree.visit_prefixFree (t : Tree) :
    (t.visit []).Pairwise fun a b => ¬ a.code <+: b.code ∧ ¬ b.code <+: a.code := by
  induction t with
  | leaf i s w => simp [Tree.visit]
  | node i w l r hl hr =>
    rw [Tree.visit_node, List.pairwise_append]
    refine ⟨?_, ?_, ?_⟩
    · rw [List.pairwise_map]; exact hl.imp fun h => by simpa [List.cons_prefix_cons] using h
    · rw [List.pairwise_map]; exact hr.imp fun h => by simpa [List.cons_prefix_cons] using h
    · intro a ha b hb
      obtain ⟨a', -, rfl⟩ := List.mem_map.1 ha
      obtain ⟨b', -, rfl⟩ := List.mem_map.1 hb
      simp [List.cons_prefix_cons]

/-- The completeness of the paths of a tree (R232). -/
theorem Tree.visit_kraft (t : Tree) : ((t.visit []).map fun e => (1 / 2 : ℚ) ^ e.code.length).sum = 1 := by
  have half (l : List CodeEntry) :
      (l.map fun e => (1 / 2 : ℚ) ^ (e.code.length + 1)).sum
        = 1 / 2 * (l.map fun e => (1 / 2 : ℚ) ^ e.code.length).sum := by
    induction l with
    | nil => simp
    | cons e l ih => rw [List.map_cons, List.sum_cons, ih, List.map_cons, List.sum_cons, pow_succ]; ring
  induction t with
  | leaf i s w => simp [Tree.visit]
  | node i w l r hl hr =>
    rw [Tree.visit_node, List.map_append, List.sum_append, List.map_map, List.map_map]
    have e1 := half (l.visit [])
    have e2 := half (r.visit [])
    simp only [Function.comp_def, List.length_cons] at *
    rw [e1, e2, hl, hr]; norm_num

/-- A path has at most as many bits as there are other leaves (R137: "depth at most K_MAX − 1"). -/
theorem Tree.visit_length (t : Tree) {e : CodeEntry} (h : e ∈ t.visit []) : e.code.length < t.leafSymbols.length := by
  have pos : ∀ t : Tree, 0 < t.leafSymbols.length := fun t => by
    induction t with
    | leaf => simp [Tree.leafSymbols]
    | node i w l r hl hr => simp only [Tree.leafSymbols, List.length_append]; omega
  induction t generalizing e with
  | leaf i s w =>
    simp only [Tree.visit, List.mem_singleton] at h
    subst h; simp [Tree.leafSymbols]
  | node i w l r hl hr =>
    rw [Tree.visit_node] at h
    have := pos l; have := pos r
    simp only [Tree.leafSymbols, List.length_append]
    rcases List.mem_append.1 h with h | h
    · obtain ⟨e', he', rfl⟩ := List.mem_map.1 h
      have := hl he'; simp only [List.length_cons]; omega
    · obtain ⟨e', he', rfl⟩ := List.mem_map.1 h
      have := hr he'; simp only [List.length_cons]; omega

theorem codesOf_node (i w : Nat) (l r : Tree) : codesOf (.node i w l r) = (Tree.node i w l r).visit [] := rfl

/-- The entries' symbols are the leaves' symbols, left to right (R137). -/
theorem codesOf_syms (t : Tree) : (codesOf t).map CodeEntry.sym = t.leafSymbols := by
  cases t with
  | leaf i s w => rfl
  | node i w l r => exact Tree.visit_syms _ []

/-! ### ENCODE -/

theorem codeFor_mem {table : List CodeEntry} {s : Symbol} {c : Bits} (h : codeFor table s = some c) :
    ⟨s, c⟩ ∈ table := by
  unfold codeFor at h
  obtain ⟨e, he, rfl⟩ := Option.map_eq_some_iff.1 h
  have h1 := List.find?_some he
  have h2 := List.mem_of_find?_eq_some he
  simp only [beq_iff_eq] at h1
  subst h1; exact h2

theorem codeFor_isSome {table : List CodeEntry} {s : Symbol} :
    (codeFor table s).isSome ↔ s ∈ table.map CodeEntry.sym := by
  simp [codeFor, List.find?_isSome]

/-- ENCODE of a text all of whose symbols have entries (R142, R143). -/
theorem encodeFrom_ok (table : List CodeEntry) (i : Nat) (x : List Symbol) (h : ∀ s ∈ x, (codeFor table s).isSome) :
    encodeFrom table i x = .ok (x.flatMap fun s => (codeFor table s).getD []) := by
  induction x generalizing i with
  | nil => rfl
  | cons s x ih =>
    obtain ⟨c, hc⟩ := Option.isSome_iff_exists.1 (h s (by simp))
    simp [encodeFrom, hc, ih (i + 1) fun s' hs => h s' (by simp [hs])]

/-- ENCODE reports the first symbol without an entry (R145). -/
theorem encodeFrom_error (table : List CodeEntry) (i : Nat) (x y : List Symbol) (s : Symbol)
    (h : ∀ s' ∈ x, (codeFor table s').isSome) (hs : codeFor table s = none) :
    encodeFrom table i (x ++ s :: y) = .error (.unknownSymbol (i + x.length)) := by
  induction x generalizing i with
  | nil => simp [encodeFrom, hs]
  | cons a x ih =>
    obtain ⟨c, hc⟩ := Option.isSome_iff_exists.1 (h a (by simp))
    simp [encodeFrom, hc, ih (i + 1) fun s' hs => h s' (by simp [hs])]
    omega

/-- Everything ENCODE's function can do (R142, R145). -/
theorem encodeFrom_spec (table : List CodeEntry) (x : List Symbol) :
    ((∀ s ∈ x, (codeFor table s).isSome) ∧
        encodeFrom table 0 x = .ok (x.flatMap fun s => (codeFor table s).getD [])) ∨
      ∃ y s z, x = y ++ s :: z ∧ (∀ s' ∈ y, (codeFor table s').isSome) ∧ codeFor table s = none ∧
        encodeFrom table 0 x = .error (.unknownSymbol y.length) := by
  have split : (∀ s ∈ x, (codeFor table s).isSome) ∨
      ∃ y s z, x = y ++ s :: z ∧ (∀ s' ∈ y, (codeFor table s').isSome) ∧ codeFor table s = none := by
    induction x with
    | nil => left; simp
    | cons a x ih =>
      cases ha : codeFor table a with
      | none => exact .inr ⟨[], a, x, rfl, by simp, ha⟩
      | some c =>
        rcases ih with h | ⟨y, s, z, rfl, h, hs⟩
        · exact .inl fun s hs => by
            rcases List.mem_cons.1 hs with rfl | hs
            · simp [ha]
            · exact h s hs
        · exact .inr ⟨a :: y, s, z, rfl, fun s' hs' => by
            rcases List.mem_cons.1 hs' with rfl | hs'
            · simp [ha]
            · exact h s' hs', hs⟩
  rcases split with h | ⟨y, s, z, rfl, h, hs⟩
  · exact .inl ⟨h, encodeFrom_ok table 0 x h⟩
  · exact .inr ⟨y, s, z, rfl, h, hs, by rw [encodeFrom_error table 0 y z s h hs, Nat.zero_add]⟩

/-! ### DECODE -/

/-- The walk along a path to a leaf gives that leaf's symbol and is back at the root (R148). -/
theorem walk_leaf (rl rr l r : Tree) (i w : Nat) (mid : Bool) (c rest : Bits) (out : List Symbol) (j v : Nat) (s : Symbol)
    (h : (Tree.node i w l r).follow c = some (.leaf j s v)) :
    walk rl rr l r mid (c ++ rest) out = walk rl rr rl rr false rest (out ++ [s]) := by
  induction c generalizing i w l r mid with
  | nil => simp [Tree.follow] at h
  | cons b c ih =>
    simp only [Tree.follow] at h
    rw [List.cons_append, walk]
    have h' : (if b then r else l).follow c = some (.leaf j s v) := by cases b <;> simpa using h
    generalize (if b then r else l) = n at h'
    cases n with
    | leaf j' s' v' =>
      cases c with
      | nil => simp only [Tree.follow, Option.some.injEq, Tree.leaf.injEq] at h'; simp [h'.2.1]
      | cons b' c' => simp [Tree.follow] at h'
    | node j' v' l' r' => exact ih l' r' j' v' true h'

/-- The walk along a path to an internal node leaves the cursor there (R148). -/
theorem walk_internal (rl rr l r : Tree) (i w : Nat) (mid : Bool) (c rest : Bits) (out : List Symbol) (j v : Nat)
    (l' r' : Tree) (hc : c ≠ []) (h : (Tree.node i w l r).follow c = some (.node j v l' r')) :
    walk rl rr l r mid (c ++ rest) out = walk rl rr l' r' true rest out := by
  induction c generalizing i w l r mid with
  | nil => exact absurd rfl hc
  | cons b c ih =>
    simp only [Tree.follow] at h
    rw [List.cons_append, walk]
    have h' : (if b then r else l).follow c = some (.node j v l' r') := by cases b <;> simpa using h
    generalize (if b then r else l) = n at h'
    cases n with
    | leaf j' s' v' => cases c <;> simp [Tree.follow] at h'
    | node j' v' l'' r'' =>
      cases c with
      | nil => simp only [Tree.follow, Option.some.injEq, Tree.node.injEq] at h'; simp [h'.2.2.1, h'.2.2.2]
      | cons b' c' => exact ih l'' r'' j' v' true (by simp) h'

/-- The walk over the codes of a text gives the text (R221, R233). -/
theorem walk_codes (i w : Nat) (l r : Tree) (x : List Symbol) (rest : Bits) (out : List Symbol)
    (h : ∀ s ∈ x, (codeFor (codesOf (.node i w l r)) s).isSome) :
    walk l r l r false ((x.flatMap fun s => (codeFor (codesOf (.node i w l r)) s).getD []) ++ rest) out
      = walk l r l r false rest (out ++ x) := by
  induction x generalizing out with
  | nil => simp
  | cons s x ih =>
    obtain ⟨c, hc⟩ := Option.isSome_iff_exists.1 (h s (by simp))
    obtain ⟨j, v, hf⟩ := Tree.visit_follow (.node i w l r) (codeFor_mem hc)
    rw [List.flatMap_cons, hc, Option.getD_some, List.append_assoc,
      walk_leaf l r l r i w false c _ out j v s hf, ih _ fun s' hs => h s' (by simp [hs])]
    simp

theorem replicate_of_all (x : List Symbol) (s : Symbol) (h : ∀ a ∈ x, a = s) : List.replicate x.length s = x :=
  (List.eq_replicate_iff.2 ⟨rfl, h⟩).symm

/-- "DECODE undoes ENCODE for any text over the table" that was derived from the tree (R233), the single leaf included. -/
theorem decodeBits_encode (t : Tree) (x : List Symbol) (h : ∀ s ∈ x, s ∈ t.leafSymbols) :
    decodeBits t (x.flatMap fun s => (codeFor (codesOf t) s).getD []) = .ok x := by
  cases t with
  | leaf i a w =>
    have hx : ∀ s ∈ x, s = a := fun s hs => by simpa [Tree.leafSymbols] using h s hs
    have hl : (x.flatMap fun s => (codeFor (codesOf (.leaf i a w)) s).getD []).length = x.length := by
      rw [List.length_flatMap]
      have : (x.map fun s => ((codeFor (codesOf (.leaf i a w)) s).getD []).length) = x.map fun _ => 1 := by
        apply List.map_congr_left
        intro s hs
        simp [codesOf, codeFor, hx s hs]
      rw [this]; simp
    rw [decodeBits, hl, replicate_of_all x a hx]
  | node i w l r =>
    have hs : ∀ s ∈ x, (codeFor (codesOf (.node i w l r)) s).isSome := fun s hs => by
      rw [codeFor_isSome, codesOf_syms]; exact h s hs
    have := walk_codes i w l r x [] [] hs
    rw [List.append_nil] at this
    rw [decodeBits, this]; rfl

/-- Everything the walk can do: it succeeds or the stream is truncated (R232); it appends symbols of the tree, at most one a
bit. -/
theorem walk_spec (rl rr : Tree) (L : List Symbol) (hL : ∀ s, s ∈ rl.leafSymbols ∨ s ∈ rr.leafSymbols → s ∈ L)
    (l r : Tree) (hlr : ∀ s, s ∈ l.leafSymbols ∨ s ∈ r.leafSymbols → s ∈ L) (mid : Bool) (bits : Bits) (out : List Symbol) :
    ∃ y : List Symbol, (∀ s ∈ y, s ∈ L) ∧ y.length ≤ bits.length ∧
      (walk rl rr l r mid bits out = .ok (out ++ y) ∨
        walk rl rr l r mid bits out = .error (.truncatedStream (out ++ y).length)) := by
  induction bits generalizing l r mid out with
  | nil => exact ⟨[], by simp, by simp, by cases mid <;> simp [walk]⟩
  | cons b bits ih =>
    rw [walk]
    have hn : ∀ s ∈ (if b then r else l).leafSymbols, s ∈ L := by
      cases b
      · exact fun s hs => hlr s (.inl hs)
      · exact fun s hs => hlr s (.inr hs)
    generalize (if b then r else l) = n at hn
    cases n with
    | leaf j s v =>
      obtain ⟨y, hy, hlen, hw⟩ := ih rl rr hL false (out ++ [s])
      refine ⟨s :: y, ?_, by simpa using hlen, ?_⟩
      · intro a ha
        rcases List.mem_cons.1 ha with rfl | ha
        · exact hn a (by simp [Tree.leafSymbols])
        · exact hy a ha
      · simpa [List.append_assoc] using hw
    | node j v l' r' =>
      obtain ⟨y, hy, hlen, hw⟩ := ih l' r' (fun s hs => hn s (by simpa [Tree.leafSymbols] using hs)) true out
      exact ⟨y, hy, by simp; omega, hw⟩

/-- Everything DECODE's walk can do, for any tree (R148 to R150, R232). -/
theorem decodeBits_spec (t : Tree) (bits : Bits) :
    ∃ y : List Symbol, (∀ s ∈ y, s ∈ t.leafSymbols) ∧ y.length ≤ bits.length ∧
      (decodeBits t bits = .ok y ∨ decodeBits t bits = .error (.truncatedStream y.length)) := by
  cases t with
  | leaf i s w =>
    exact ⟨List.replicate bits.length s, fun a ha => by simpa [Tree.leafSymbols] using List.eq_of_mem_replicate ha, by simp,
      .inl rfl⟩
  | node i w l r =>
    have hL : ∀ s, s ∈ l.leafSymbols ∨ s ∈ r.leafSymbols → s ∈ (Tree.node i w l r).leafSymbols := by
      intro s hs; simpa [Tree.leafSymbols] using hs
    obtain ⟨y, hy, hlen, hw⟩ := walk_spec l r _ hL l r hL false bits []
    exact ⟨y, hy, hlen, by simpa [decodeBits] using hw⟩

/-- Everything DECODE's function can do (R148, R149, R151). -/
theorem decodeText_spec (c : Config) (t : Tree) (bits : Bits) :
    ∃ y : List Symbol, (∀ s ∈ y, s ∈ t.leafSymbols) ∧ y.length ≤ bits.length ∧
      ((decodeBits t bits = .ok y ∧ y.length ≤ c.nMax ∧ decodeText c t bits = .ok y) ∨
        (decodeBits t bits = .ok y ∧ c.nMax < y.length ∧ decodeText c t bits = .error .capacityExceeded) ∨
        (decodeBits t bits = .error (.truncatedStream y.length) ∧
          decodeText c t bits = .error (.truncatedStream y.length))) := by
  obtain ⟨y, hy, hlen, h | h⟩ := decodeBits_spec t bits
  · by_cases hn : c.nMax < y.length
    · exact ⟨y, hy, hlen, .inr (.inl ⟨h, hn, by simp [decodeText, h, hn]⟩)⟩
    · exact ⟨y, hy, hlen, .inl ⟨h, by omega, by simp [decodeText, h, hn]⟩⟩
  · exact ⟨y, hy, hlen, .inr (.inr ⟨h, by simp [decodeText, h]⟩)⟩

end Sys2Proof.Machine
end

