-- ==== Sys2Proof/Laws/Freq.lean ====
section
/-! SUPPORT. What ANALYZE's table is (spec/40_frequency_analyzer.md R113, R114). -/

namespace Sys2Proof.Machine

theorem eraseDups_nodup (t : List Symbol) : t.eraseDups.Nodup := by
  induction t using List.reverseRecOn with
  | nil => simp
  | append_singleton t x ih =>
    rw [List.eraseDups_append]
    by_cases hx : x ∈ t
    · simpa [List.removeAll, hx] using ih
    · have hr : [x].removeAll t = [x] := by simp [List.removeAll, hx]
      rw [hr, List.nodup_append]
      refine ⟨ih, by simp [List.eraseDups_cons], ?_⟩
      intro a ha b hb
      simp [List.eraseDups_cons] at ha hb
      subst hb
      exact fun h => hx (h ▸ ha)

theorem countSymbol_of_notMem (x : Symbol) (f : List FreqEntry) (h : ∀ e ∈ f, e.sym ≠ x) :
    countSymbol x f = f ++ [⟨x, 1⟩] := by
  induction f with
  | nil => rfl
  | cons e f ih =>
    have h1 : e.sym ≠ x := h e (by simp)
    simp [countSymbol, h1, ih fun e' he' => h e' (by simp [he'])]

theorem countSymbol_map_of_mem (x : Symbol) (d : List Symbol) (g : Symbol → Nat) (hd : d.Nodup) (hx : x ∈ d) :
    countSymbol x (d.map fun s => ⟨s, g s⟩) = d.map fun s => ⟨s, g s + if s = x then 1 else 0⟩ := by
  induction d with
  | nil => simp at hx
  | cons a d ih =>
    obtain ⟨ha, hd⟩ := List.nodup_cons.1 hd
    by_cases hax : a = x
    · subst hax
      simp only [List.map_cons, countSymbol, if_true]
      congr 1
      apply List.map_congr_left
      intro s hs
      have : s ≠ a := fun h => ha (h ▸ hs)
      simp [this]
    · have hx' : x ∈ d := by
        rcases List.mem_cons.1 hx with h | h
        · exact absurd h.symm hax
        · exact h
      simp [countSymbol, hax, ih hd hx']

/-- ANALYZE's table in closed form: the distinct symbols in order of first occurrence, each with its number of occurrences
(R113, R114). -/
theorem frequencies_eq (t : List Symbol) :
    frequencies t = t.eraseDups.map fun s => ⟨s, t.count s⟩ := by
  induction t using List.reverseRecOn with
  | nil => rfl
  | append_singleton t x ih =>
    have hstep : frequencies (t ++ [x]) = countSymbol x (frequencies t) := by simp [frequencies]
    rw [hstep, ih, List.eraseDups_append]
    by_cases hx : x ∈ t
    · have hr : [x].removeAll t = [] := by simp [List.removeAll, hx]
      rw [hr, countSymbol_map_of_mem x t.eraseDups _ (eraseDups_nodup t) (by simpa using hx)]
      simp only [List.eraseDups_nil, List.append_nil]
      apply List.map_congr_left
      intro s _
      simp only [List.count_append, List.count_singleton]
      by_cases h : s = x
      · simp [h]
      · simp [h, Ne.symm h]
    · have hr : [x].removeAll t = [x] := by simp [List.removeAll, hx]
      rw [hr, countSymbol_of_notMem]
      · have h0 : List.count x t = 0 := List.count_eq_zero.2 hx
        have h1 : [x].eraseDups = [x] := by simp [List.eraseDups_cons]
        simp only [h1, List.map_append, List.map_cons, List.map_nil, List.count_append, List.count_singleton, h0]
        congr 1
        swap
        · simp
        apply List.map_congr_left
        intro s hs
        have : s ≠ x := fun h => hx (h ▸ by simpa using hs)
        simp [Ne.symm this]
      · intro e he h
        obtain ⟨s, hs, rfl⟩ := List.mem_map.1 he
        simp only at h
        exact hx (h ▸ by simpa using hs)

theorem frequencies_ne_nil {t : List Symbol} (h : t ≠ []) : frequencies t ≠ [] := by
  obtain ⟨x, t', rfl⟩ := List.exists_cons_of_ne_nil h
  rw [frequencies_eq, List.eraseDups_cons]; simp

/-- The symbols of ANALYZE's table are those of the text, each once (R114 (a), (b)). -/
theorem frequencies_syms (t : List Symbol) : (frequencies t).map FreqEntry.sym = t.eraseDups := by
  rw [frequencies_eq, List.map_map]; exact List.map_id _

theorem frequencies_syms_nodup (t : List Symbol) : ((frequencies t).map FreqEntry.sym).Nodup := by
  rw [frequencies_syms]; exact eraseDups_nodup t

theorem mem_frequencies_syms (t : List Symbol) (x : Symbol) : x ∈ (frequencies t).map FreqEntry.sym ↔ x ∈ t := by
  rw [frequencies_syms]; simp

theorem countSymbol_sum (x : Symbol) (f : List FreqEntry) :
    ((countSymbol x f).map FreqEntry.cnt).sum = (f.map FreqEntry.cnt).sum + 1 := by
  induction f with
  | nil => rfl
  | cons e f ih =>
    by_cases h : e.sym = x
    · simp [countSymbol, h]; omega
    · simp [countSymbol, h, ih]; omega

/-- "The counts sum to n" (R114 (d)). -/
theorem frequencies_sum (t : List Symbol) : ((frequencies t).map FreqEntry.cnt).sum = t.length := by
  induction t using List.reverseRecOn with
  | nil => rfl
  | append_singleton t x ih =>
    have hstep : frequencies (t ++ [x]) = countSymbol x (frequencies t) := by simp [frequencies]
    rw [hstep, countSymbol_sum, ih]; simp

/-- Everything ANALYZE's function can do (R111, R112). -/
theorem analyzeText_spec (t : List Symbol) :
    (t = [] ∧ analyzeText t = .error .emptyInput) ∨ (t ≠ [] ∧ analyzeText t = .ok (frequencies t)) := by
  cases t with
  | nil => exact .inl ⟨rfl, rfl⟩
  | cons x t => exact .inr ⟨by simp, rfl⟩

end Sys2Proof.Machine
end

