-- ==== Sys2Proof/Laws/State.lean ====
section
/-! SUPPORT. One lemma per field per named update of State, so that no later proof unfolds an update. -/

namespace Sys2Proof.Machine

/-! ### A command's success -/

@[simp] theorem State.succeed_config (s : State) : s.succeed.config = s.config := rfl
@[simp] theorem State.succeed_text (s : State) : s.succeed.text = s.text := rfl
@[simp] theorem State.succeed_freq (s : State) : s.succeed.freq = s.freq := rfl
@[simp] theorem State.succeed_tree (s : State) : s.succeed.tree = s.tree := rfl
@[simp] theorem State.succeed_code (s : State) : s.succeed.code = s.code := rfl
@[simp] theorem State.succeed_bits (s : State) : s.succeed.bits = s.bits := rfl
@[simp] theorem State.succeed_bytes (s : State) : s.succeed.bytes = s.bytes := rfl
@[simp] theorem State.succeed_pad (s : State) : s.succeed.pad = s.pad := rfl
@[simp] theorem State.succeed_blob (s : State) : s.succeed.blob = s.blob := rfl
@[simp] theorem State.succeed_dtext (s : State) : s.succeed.dtext = s.dtext := rfl
@[simp] theorem State.succeed_treeKind (s : State) : s.succeed.treeKind = s.treeKind := rfl
@[simp] theorem State.succeed_host (s : State) : s.succeed.host = s.host := rfl
@[simp] theorem State.succeed_reply (s : State) : s.succeed.reply = s.reply := rfl
@[simp] theorem State.succeed_status (s : State) : s.succeed.status = 0#4 := rfl
@[simp] theorem State.succeed_errinfo (s : State) : s.succeed.errinfo = 0 := rfl

/-! ### One buffer losing its value -/

@[simp] theorem State.invalidate_text (s : State) (b : BufId) :
    (s.invalidate b).text = if b = .text then none else s.text := by cases b <;> rfl
@[simp] theorem State.invalidate_freq (s : State) (b : BufId) :
    (s.invalidate b).freq = if b = .freq then none else s.freq := by cases b <;> rfl
@[simp] theorem State.invalidate_tree (s : State) (b : BufId) :
    (s.invalidate b).tree = if b = .tree then none else s.tree := by cases b <;> rfl
@[simp] theorem State.invalidate_code (s : State) (b : BufId) :
    (s.invalidate b).code = if b = .code then none else s.code := by cases b <;> rfl
@[simp] theorem State.invalidate_bits (s : State) (b : BufId) :
    (s.invalidate b).bits = if b = .bits then none else s.bits := by cases b <;> rfl
@[simp] theorem State.invalidate_bytes (s : State) (b : BufId) :
    (s.invalidate b).bytes = if b = .bytes then none else s.bytes := by cases b <;> rfl
@[simp] theorem State.invalidate_pad (s : State) (b : BufId) :
    (s.invalidate b).pad = if b = .pad then none else s.pad := by cases b <;> rfl
@[simp] theorem State.invalidate_blob (s : State) (b : BufId) :
    (s.invalidate b).blob = if b = .blob then none else s.blob := by cases b <;> rfl
@[simp] theorem State.invalidate_dtext (s : State) (b : BufId) :
    (s.invalidate b).dtext = if b = .dtext then none else s.dtext := by cases b <;> rfl
@[simp] theorem State.invalidate_config (s : State) (b : BufId) : (s.invalidate b).config = s.config := by cases b <;> rfl
@[simp] theorem State.invalidate_treeKind (s : State) (b : BufId) : (s.invalidate b).treeKind = s.treeKind := by cases b <;> rfl
@[simp] theorem State.invalidate_status (s : State) (b : BufId) : (s.invalidate b).status = s.status := by cases b <;> rfl
@[simp] theorem State.invalidate_errinfo (s : State) (b : BufId) : (s.invalidate b).errinfo = s.errinfo := by cases b <;> rfl
@[simp] theorem State.invalidate_host (s : State) (b : BufId) : (s.invalidate b).host = s.host := by cases b <;> rfl
@[simp] theorem State.invalidate_reply (s : State) (b : BufId) : (s.invalidate b).reply = s.reply := by cases b <;> rfl

/-! ### Several buffers losing their value -/

@[simp] theorem State.invalidateAll_nil (s : State) : s.invalidateAll [] = s := rfl

@[simp] theorem State.invalidateAll_cons (s : State) (b : BufId) (ds : List BufId) :
    s.invalidateAll (b :: ds) = (s.invalidate b).invalidateAll ds := rfl

theorem State.invalidateAll_text (s : State) (ds : List BufId) :
    (s.invalidateAll ds).text = if BufId.text ∈ ds then none else s.text := by
  induction ds generalizing s with
  | nil => rfl
  | cons b ds ih => cases b <;> simp [ih]

theorem State.invalidateAll_freq (s : State) (ds : List BufId) :
    (s.invalidateAll ds).freq = if BufId.freq ∈ ds then none else s.freq := by
  induction ds generalizing s with
  | nil => rfl
  | cons b ds ih => cases b <;> simp [ih]

theorem State.invalidateAll_tree (s : State) (ds : List BufId) :
    (s.invalidateAll ds).tree = if BufId.tree ∈ ds then none else s.tree := by
  induction ds generalizing s with
  | nil => rfl
  | cons b ds ih => cases b <;> simp [ih]

theorem State.invalidateAll_code (s : State) (ds : List BufId) :
    (s.invalidateAll ds).code = if BufId.code ∈ ds then none else s.code := by
  induction ds generalizing s with
  | nil => rfl
  | cons b ds ih => cases b <;> simp [ih]

theorem State.invalidateAll_bits (s : State) (ds : List BufId) :
    (s.invalidateAll ds).bits = if BufId.bits ∈ ds then none else s.bits := by
  induction ds generalizing s with
  | nil => rfl
  | cons b ds ih => cases b <;> simp [ih]

theorem State.invalidateAll_bytes (s : State) (ds : List BufId) :
    (s.invalidateAll ds).bytes = if BufId.bytes ∈ ds then none else s.bytes := by
  induction ds generalizing s with
  | nil => rfl
  | cons b ds ih => cases b <;> simp [ih]

theorem State.invalidateAll_pad (s : State) (ds : List BufId) :
    (s.invalidateAll ds).pad = if BufId.pad ∈ ds then none else s.pad := by
  induction ds generalizing s with
  | nil => rfl
  | cons b ds ih => cases b <;> simp [ih]

theorem State.invalidateAll_blob (s : State) (ds : List BufId) :
    (s.invalidateAll ds).blob = if BufId.blob ∈ ds then none else s.blob := by
  induction ds generalizing s with
  | nil => rfl
  | cons b ds ih => cases b <;> simp [ih]

theorem State.invalidateAll_dtext (s : State) (ds : List BufId) :
    (s.invalidateAll ds).dtext = if BufId.dtext ∈ ds then none else s.dtext := by
  induction ds generalizing s with
  | nil => rfl
  | cons b ds ih => cases b <;> simp [ih]

@[simp] theorem State.invalidateAll_config (s : State) (ds : List BufId) : (s.invalidateAll ds).config = s.config := by
  induction ds generalizing s with
  | nil => rfl
  | cons b ds ih => simp [ih]

@[simp] theorem State.invalidateAll_treeKind (s : State) (ds : List BufId) : (s.invalidateAll ds).treeKind = s.treeKind := by
  induction ds generalizing s with
  | nil => rfl
  | cons b ds ih => simp [ih]

@[simp] theorem State.invalidateAll_status (s : State) (ds : List BufId) : (s.invalidateAll ds).status = s.status := by
  induction ds generalizing s with
  | nil => rfl
  | cons b ds ih => simp [ih]

@[simp] theorem State.invalidateAll_errinfo (s : State) (ds : List BufId) : (s.invalidateAll ds).errinfo = s.errinfo := by
  induction ds generalizing s with
  | nil => rfl
  | cons b ds ih => simp [ih]

@[simp] theorem State.invalidateAll_host (s : State) (ds : List BufId) : (s.invalidateAll ds).host = s.host := by
  induction ds generalizing s with
  | nil => rfl
  | cons b ds ih => simp [ih]

@[simp] theorem State.invalidateAll_reply (s : State) (ds : List BufId) : (s.invalidateAll ds).reply = s.reply := by
  induction ds generalizing s with
  | nil => rfl
  | cons b ds ih => simp [ih]

/-! ### A command's failure (R251) -/

@[simp] theorem State.failWith_config (ds : List BufId) (f : Failure) (s : State) :
    (s.failWith ds f).config = s.config := s.invalidateAll_config ds
@[simp] theorem State.failWith_text (ds : List BufId) (f : Failure) (s : State) :
    (s.failWith ds f).text = if BufId.text ∈ ds then none else s.text := s.invalidateAll_text ds
@[simp] theorem State.failWith_freq (ds : List BufId) (f : Failure) (s : State) :
    (s.failWith ds f).freq = if BufId.freq ∈ ds then none else s.freq := s.invalidateAll_freq ds
@[simp] theorem State.failWith_tree (ds : List BufId) (f : Failure) (s : State) :
    (s.failWith ds f).tree = if BufId.tree ∈ ds then none else s.tree := s.invalidateAll_tree ds
@[simp] theorem State.failWith_code (ds : List BufId) (f : Failure) (s : State) :
    (s.failWith ds f).code = if BufId.code ∈ ds then none else s.code := s.invalidateAll_code ds
@[simp] theorem State.failWith_bits (ds : List BufId) (f : Failure) (s : State) :
    (s.failWith ds f).bits = if BufId.bits ∈ ds then none else s.bits := s.invalidateAll_bits ds
@[simp] theorem State.failWith_bytes (ds : List BufId) (f : Failure) (s : State) :
    (s.failWith ds f).bytes = if BufId.bytes ∈ ds then none else s.bytes := s.invalidateAll_bytes ds
@[simp] theorem State.failWith_pad (ds : List BufId) (f : Failure) (s : State) :
    (s.failWith ds f).pad = if BufId.pad ∈ ds then none else s.pad := s.invalidateAll_pad ds
@[simp] theorem State.failWith_blob (ds : List BufId) (f : Failure) (s : State) :
    (s.failWith ds f).blob = if BufId.blob ∈ ds then none else s.blob := s.invalidateAll_blob ds
@[simp] theorem State.failWith_dtext (ds : List BufId) (f : Failure) (s : State) :
    (s.failWith ds f).dtext = if BufId.dtext ∈ ds then none else s.dtext := s.invalidateAll_dtext ds
@[simp] theorem State.failWith_treeKind (ds : List BufId) (f : Failure) (s : State) :
    (s.failWith ds f).treeKind = if BufId.tree ∈ ds then .built else s.treeKind := by simp [State.failWith]
@[simp] theorem State.failWith_status (ds : List BufId) (f : Failure) (s : State) :
    (s.failWith ds f).status = f.code := rfl
@[simp] theorem State.failWith_errinfo (ds : List BufId) (f : Failure) (s : State) :
    (s.failWith ds f).errinfo = f.info := rfl
@[simp] theorem State.failWith_host (ds : List BufId) (f : Failure) (s : State) :
    (s.failWith ds f).host = s.host := s.invalidateAll_host ds
@[simp] theorem State.failWith_reply (ds : List BufId) (f : Failure) (s : State) :
    (s.failWith ds f).reply = s.reply := s.invalidateAll_reply ds

/-! ### Reset and the host's next action -/

@[simp] theorem State.resetBlock_config (s : State) : s.resetBlock.config = s.config := rfl
@[simp] theorem State.resetBlock_text (s : State) : s.resetBlock.text = none := rfl
@[simp] theorem State.resetBlock_freq (s : State) : s.resetBlock.freq = none := rfl
@[simp] theorem State.resetBlock_tree (s : State) : s.resetBlock.tree = none := rfl
@[simp] theorem State.resetBlock_code (s : State) : s.resetBlock.code = none := rfl
@[simp] theorem State.resetBlock_bits (s : State) : s.resetBlock.bits = none := rfl
@[simp] theorem State.resetBlock_bytes (s : State) : s.resetBlock.bytes = none := rfl
@[simp] theorem State.resetBlock_pad (s : State) : s.resetBlock.pad = none := rfl
@[simp] theorem State.resetBlock_blob (s : State) : s.resetBlock.blob = none := rfl
@[simp] theorem State.resetBlock_dtext (s : State) : s.resetBlock.dtext = none := rfl
@[simp] theorem State.resetBlock_treeKind (s : State) : s.resetBlock.treeKind = .built := rfl
@[simp] theorem State.resetBlock_status (s : State) : s.resetBlock.status = 0#4 := rfl
@[simp] theorem State.resetBlock_errinfo (s : State) : s.resetBlock.errinfo = 0 := rfl
@[simp] theorem State.resetBlock_host (s : State) : s.resetBlock.host = s.host := rfl
@[simp] theorem State.resetBlock_reply (s : State) : s.resetBlock.reply = s.reply := rfl
@[simp] theorem State.withAction_config (s : State) (a : HostAction) : (s.withAction a).config = s.config := rfl
@[simp] theorem State.withAction_text (s : State) (a : HostAction) : (s.withAction a).text = s.text := rfl
@[simp] theorem State.withAction_freq (s : State) (a : HostAction) : (s.withAction a).freq = s.freq := rfl
@[simp] theorem State.withAction_tree (s : State) (a : HostAction) : (s.withAction a).tree = s.tree := rfl
@[simp] theorem State.withAction_code (s : State) (a : HostAction) : (s.withAction a).code = s.code := rfl
@[simp] theorem State.withAction_bits (s : State) (a : HostAction) : (s.withAction a).bits = s.bits := rfl
@[simp] theorem State.withAction_bytes (s : State) (a : HostAction) : (s.withAction a).bytes = s.bytes := rfl
@[simp] theorem State.withAction_pad (s : State) (a : HostAction) : (s.withAction a).pad = s.pad := rfl
@[simp] theorem State.withAction_blob (s : State) (a : HostAction) : (s.withAction a).blob = s.blob := rfl
@[simp] theorem State.withAction_dtext (s : State) (a : HostAction) : (s.withAction a).dtext = s.dtext := rfl
@[simp] theorem State.withAction_treeKind (s : State) (a : HostAction) : (s.withAction a).treeKind = s.treeKind := rfl
@[simp] theorem State.withAction_status (s : State) (a : HostAction) : (s.withAction a).status = s.status := rfl
@[simp] theorem State.withAction_errinfo (s : State) (a : HostAction) : (s.withAction a).errinfo = s.errinfo := rfl
@[simp] theorem State.withAction_reply (s : State) (a : HostAction) : (s.withAction a).reply = s.reply := rfl
@[simp] theorem State.withAction_host (s : State) (a : HostAction) : (s.withAction a).host = a :: s.host := rfl

end Sys2Proof.Machine
end

