-- ==== Sys2Proof/Laws/Commands.lean ====
section
/-! SUPPORT. What each command does to the state, one lemma for each way it can end, and the closed forms of the two composite
commands (spec files 40 to 45). -/

namespace Sys2Proof.Machine

/-! ### Success and failure -/

/-- No failure kind has the code of OK (R241). -/
theorem Failure.code_ne_zero (f : Failure) : f.code ≠ 0#4 := by cases f <;> simp [Failure.code]

theorem Failure.code_le (f : Failure) : f.code.toNat ≤ 9 := by cases f <;> simp [Failure.code]

theorem State.isValid_failWith (ds : List BufId) (f : Failure) (s : State) (b : BufId) :
    (s.failWith ds f).isValid b = (decide (b ∉ ds) && s.isValid b) := by
  cases b <;> simp only [State.isValid, failWith_text, failWith_freq, failWith_tree, failWith_code, failWith_bits,
    failWith_bytes, failWith_pad, failWith_blob, failWith_dtext] <;> split <;> simp_all

theorem sameBuffer_refl (s : State) (b : BufId) : sameBuffer s s b := by cases b <;> rfl

theorem sameBuffer_trans {s t u : State} {b : BufId} (h : sameBuffer s t b) (h' : sameBuffer t u b) : sameBuffer s u b := by
  cases b <;> exact Eq.trans h h'

theorem sameBuffer_isValid {s t : State} {b : BufId} (h : sameBuffer s t b) : s.isValid b = t.isValid b := by
  cases b <;> simp only [State.isValid] <;> exact congrArg _ h

/-- A failure leaves every buffer that is no destination as it was (R251). -/
theorem sameBuffer_failWith (ds : List BufId) (f : Failure) (s : State) (b : BufId) (h : b ∉ ds) :
    sameBuffer s (s.failWith ds f) b := by
  cases b <;> simp [sameBuffer, h]

/-- How a command that is not composite ends: in a failure, which is R251's operation; or in a success, which writes every
destination and nothing else of the block (R252). -/
def Ended (i : Instr) (s t : State) : Prop :=
  (∃ f, t = s.fail i f) ∨
    ∃ u : State, t = u.succeed ∧ (∀ b, b ∉ destinations i → sameBuffer s u b) ∧ (∀ b ∈ destinations i, u.isValid b = true) ∧
      (BufId.tree ∉ destinations i → u.treeKind = s.treeKind) ∧ u.config = s.config ∧ u.host = s.host ∧ u.reply = s.reply

/-! ### The nine single commands -/

section
variable {s : State} {c : Config}

theorem State.analyze_ok {t : List Symbol} (h : s.text = some t) (ht : t ≠ []) :
    s.analyze = { s with freq := some (frequencies t) }.succeed := by
  rcases analyzeText_spec t with ⟨e, -⟩ | ⟨-, e⟩
  · exact absurd e ht
  · simp [State.analyze, h, e]

theorem State.analyze_ends (s : State) : Ended .analyze s s.analyze := by
  unfold State.analyze
  cases h : s.text with
  | none => exact .inl ⟨_, rfl⟩
  | some t =>
    simp only
    cases analyzeText t with
    | error f => exact .inl ⟨f, rfl⟩
    | ok f =>
      refine .inr ⟨_, rfl, fun b hb => ?_, fun b hb => ?_, fun _ => rfl, rfl, rfl, rfl⟩
      · cases b <;> simp_all [sameBuffer, destinations]
      · simp only [destinations, List.mem_singleton] at hb; subst hb; rfl

theorem State.buildTree_ok {f : List FreqEntry} {t : Tree} (h : s.freq = some f) (ht : buildTreeOf f = .ok t) :
    s.buildTree = { s with tree := some t, treeKind := .built }.succeed := by
  simp [State.buildTree, h, ht]

theorem State.buildTree_ends (s : State) : Ended .buildTree s s.buildTree := by
  unfold State.buildTree
  cases h : s.freq with
  | none => exact .inl ⟨_, rfl⟩
  | some f =>
    simp only
    cases buildTreeOf f with
    | error f => exact .inl ⟨f, rfl⟩
    | ok t =>
      refine .inr ⟨_, rfl, fun b hb => ?_, fun b hb => ?_, fun hb => ?_, rfl, rfl, rfl⟩
      · cases b <;> simp_all [sameBuffer, destinations]
      · simp only [destinations, List.mem_singleton] at hb; subst hb; rfl
      · simp [destinations] at hb

theorem State.deriveCodes_ok {t : Tree} (h : s.tree = some t) :
    s.deriveCodes = { s with code := some (codesOf t) }.succeed := by simp [State.deriveCodes, h]

theorem State.deriveCodes_ends (s : State) : Ended .deriveCodes s s.deriveCodes := by
  unfold State.deriveCodes
  cases h : s.tree with
  | none => exact .inl ⟨_, rfl⟩
  | some t =>
    refine .inr ⟨_, rfl, fun b hb => ?_, fun b hb => ?_, fun _ => rfl, rfl, rfl, rfl⟩
    · cases b <;> simp_all [sameBuffer, destinations]
    · simp only [destinations, List.mem_singleton] at hb; subst hb; rfl

theorem State.encode_ok {x : List Symbol} {table : List CodeEntry} {b : Bits} (h : s.text = some x) (h' : s.code = some table)
    (he : encodeFrom table 0 x = .ok b) : s.encode = { s with bits := some b }.succeed := by
  simp [State.encode, h, h', he]

theorem State.encode_error {x : List Symbol} {table : List CodeEntry} {f : Failure} (h : s.text = some x)
    (h' : s.code = some table) (he : encodeFrom table 0 x = .error f) : s.encode = s.fail .encode f := by
  simp [State.encode, h, h', he]

theorem State.encode_ends (s : State) : Ended .encode s s.encode := by
  unfold State.encode
  cases h : s.text with
  | none => exact .inl ⟨_, rfl⟩
  | some x =>
    cases h' : s.code with
    | none => exact .inl ⟨_, rfl⟩
    | some table =>
      simp only
      cases encodeFrom table 0 x with
      | error f => exact .inl ⟨f, rfl⟩
      | ok b =>
        refine .inr ⟨_, rfl, fun b hb => ?_, fun b hb => ?_, fun _ => rfl, rfl, rfl, rfl⟩
        · cases b <;> simp_all [sameBuffer, destinations]
        · simp only [destinations, List.mem_singleton] at hb; subst hb; rfl

theorem State.pack_ok {b : Bits} (h : s.bits = some b) :
    s.pack = { s with bytes := some (packBits b), pad := some (BitVec.ofNat 8 (padCount b.length)) }.succeed := by
  simp [State.pack, h]

theorem State.pack_ends (s : State) : Ended .pack s s.pack := by
  unfold State.pack
  cases h : s.bits with
  | none => exact .inl ⟨_, rfl⟩
  | some b =>
    refine .inr ⟨_, rfl, fun b hb => ?_, fun b hb => ?_, fun _ => rfl, rfl, rfl, rfl⟩
    · cases b <;> simp_all [sameBuffer, destinations]
    · simp only [destinations, List.mem_cons, List.not_mem_nil, or_false] at hb
      rcases hb with rfl | rfl <;> rfl

theorem State.unpack_ok {bs : List Byte} {p : Byte} {b : Bits} (h : s.bytes = some bs) (h' : s.pad = some p)
    (hu : unpackBits bs p = .ok b) : s.unpack = { s with bits := some b }.succeed := by
  simp [State.unpack, h, h', hu]

theorem State.unpack_error {bs : List Byte} {p : Byte} {f : Failure} (h : s.bytes = some bs) (h' : s.pad = some p)
    (hu : unpackBits bs p = .error f) : s.unpack = s.fail .unpack f := by
  simp [State.unpack, h, h', hu]

theorem State.unpack_ends (s : State) : Ended .unpack s s.unpack := by
  unfold State.unpack
  cases h : s.bytes with
  | none => exact .inl ⟨_, rfl⟩
  | some bs =>
    cases h' : s.pad with
    | none => exact .inl ⟨_, rfl⟩
    | some p =>
      simp only
      cases unpackBits bs p with
      | error f => exact .inl ⟨f, rfl⟩
      | ok b =>
        refine .inr ⟨_, rfl, fun b hb => ?_, fun b hb => ?_, fun _ => rfl, rfl, rfl, rfl⟩
        · cases b <;> simp_all [sameBuffer, destinations]
        · simp only [destinations, List.mem_singleton] at hb; subst hb; rfl

theorem State.serialize_ok {bs : List Byte} {t : Tree} {table : List CodeEntry} {p : Byte} (hb : s.bytes = some bs)
    (ht : s.tree = some t) (hc : s.code = some table) (hp : s.pad = some p) (h7 : p.toNat ≤ 7) :
    s.serialize c = { s with blob := some (Container.wire c ⟨bs, t, table, p⟩) }.succeed := by
  have : ¬ 7 < p.toNat := by omega
  simp [State.serialize, hb, ht, hc, hp, serializeContainer, this]

theorem State.serialize_error {bs : List Byte} {t : Tree} {table : List CodeEntry} {p : Byte} (hb : s.bytes = some bs)
    (ht : s.tree = some t) (hc : s.code = some table) (hp : s.pad = some p) (h7 : 7 < p.toNat) :
    s.serialize c = s.fail .serialize (.invalidPadding p) := by
  simp [State.serialize, hb, ht, hc, hp, serializeContainer, h7]

theorem State.serialize_ends (c : Config) (s : State) : Ended .serialize s (s.serialize c) := by
  unfold State.serialize
  cases ht : s.tree with
  | none => exact .inl ⟨_, rfl⟩
  | some t =>
    cases hc : s.code with
    | none => exact .inl ⟨_, rfl⟩
    | some table =>
      cases hb : s.bytes with
      | none => exact .inl ⟨_, rfl⟩
      | some bs =>
        cases hp : s.pad with
        | none => exact .inl ⟨_, rfl⟩
        | some p =>
          simp only
          cases serializeContainer c ⟨bs, t, table, p⟩ with
          | error f => exact .inl ⟨f, rfl⟩
          | ok z =>
            refine .inr ⟨_, rfl, fun b hb => ?_, fun b hb => ?_, fun _ => rfl, rfl, rfl, rfl⟩
            · cases b <;> simp_all [sameBuffer, destinations]
            · simp only [destinations, List.mem_singleton] at hb; subst hb; rfl

theorem State.deserialize_ok {z : List Byte} {k : Container} (h : s.blob = some z) (hk : deserializeBlob c z = .ok k) :
    s.deserialize c = { s with bytes := some k.bytes, tree := some k.tree, treeKind := .recon,
                               code := some k.codes, pad := some k.pad }.succeed := by
  simp [State.deserialize, h, hk]

theorem State.deserialize_error {z : List Byte} {f : Failure} (h : s.blob = some z) (hk : deserializeBlob c z = .error f) :
    s.deserialize c = s.fail .deserialize f := by
  simp [State.deserialize, h, hk]

theorem State.deserialize_ends (c : Config) (s : State) : Ended .deserialize s (s.deserialize c) := by
  unfold State.deserialize
  cases h : s.blob with
  | none => exact .inl ⟨_, rfl⟩
  | some z =>
    simp only
    cases deserializeBlob c z with
    | error f => exact .inl ⟨f, rfl⟩
    | ok k =>
      refine .inr ⟨_, rfl, fun b hb => ?_, fun b hb => ?_, fun hb => ?_, rfl, rfl, rfl⟩
      · cases b <;> simp_all [sameBuffer, destinations]
      · simp only [destinations, List.mem_cons, List.not_mem_nil, or_false] at hb
        rcases hb with rfl | rfl | rfl | rfl <;> rfl
      · simp [destinations] at hb

theorem State.decode_ok {t : Tree} {b : Bits} {x : List Symbol} (h : s.tree = some t) (h' : s.bits = some b)
    (hd : decodeText c t b = .ok x) : s.decode c = { s with dtext := some x }.succeed := by
  simp [State.decode, h, h', hd]

theorem State.decode_error {t : Tree} {b : Bits} {f : Failure} (h : s.tree = some t) (h' : s.bits = some b)
    (hd : decodeText c t b = .error f) : s.decode c = s.fail .decode f := by
  simp [State.decode, h, h', hd]

theorem State.decode_ends (c : Config) (s : State) : Ended .decode s (s.decode c) := by
  unfold State.decode
  cases h : s.tree with
  | none => exact .inl ⟨_, rfl⟩
  | some t =>
    cases h' : s.bits with
    | none => exact .inl ⟨_, rfl⟩
    | some b =>
      simp only
      cases decodeText c t b with
      | error f => exact .inl ⟨f, rfl⟩
      | ok x =>
        refine .inr ⟨_, rfl, fun b hb => ?_, fun b hb => ?_, fun _ => rfl, rfl, rfl, rfl⟩
        · cases b <;> simp_all [sameBuffer, destinations]
        · simp only [destinations, List.mem_singleton] at hb; subst hb; rfl

/-- Everything DESERIALIZE's function can do (R182, R183, R187). -/
theorem deserializeBlob_spec (c : Config) (z : List Byte) :
    (∃ k, deserializeBlob c z = .ok k ∧ Nonempty (Parsed c z k) ∧ k.tooLarge c = false) ∨
      (∃ k, deserializeBlob c z = .error .capacityExceeded ∧ Nonempty (Parsed c z k) ∧ k.tooLarge c = true) ∨
      ∃ off, deserializeBlob c z = .error (.corruptContainer off) ∧ parseContainer c z = .error (.corruptContainer off) ∧
        off ≤ z.length := by
  rcases parseContainer_spec c z with ⟨k, e, hk⟩ | ⟨off, e, h⟩
  · cases ht : k.tooLarge c with
    | false => exact .inl ⟨k, by simp [deserializeBlob, e, ht], hk, ht⟩
    | true => exact .inr (.inl ⟨k, by simp [deserializeBlob, e, ht], hk, ht⟩)
  · exact .inr (.inr ⟨off, by simp [deserializeBlob, e], e, h⟩)

/-! ### The composite commands and CLEAR -/

/-- The state after a successful COMPRESS (R203). -/
def compressed (c : Config) (s : State) (x : List Symbol) (t : Tree) : State :=
  let b := x.flatMap fun a => (codeFor (codesOf t) a).getD []
  let p := BitVec.ofNat 8 (padCount b.length)
  { s with
    freq := some (frequencies x), tree := some t, treeKind := .built, code := some (codesOf t), bits := some b,
    bytes := some (packBits b), pad := some p, blob := some (Container.wire c ⟨packBits b, t, codesOf t, p⟩),
    status := 0#4, errinfo := 0 }

theorem padCount_toNat (n : Nat) : (BitVec.ofNat 8 (padCount n)).toNat = padCount n := by
  rw [BitVec.toNat_ofNat, Nat.mod_eq_of_lt (by have := padCount_lt n; omega)]

/-- The symbols of the leaves BUILD_TREE makes are those of the table (R128 (b)). -/
theorem buildTreeOf_leafSymbols {f : List FreqEntry} {t : Tree} (h : buildTreeOf f = .ok t) :
    t.leafSymbols.Perm (f.map FreqEntry.sym) := by
  rcases buildTreeOf_spec f with ⟨-, e⟩ | ⟨-, t', e, -, -, -, hF⟩
  · rw [h] at e; cases e
  · rw [h] at e; cases e
    have hp := hF.leaves
    rw [leavesFrom_leaves] at hp
    have := hp.map fun p => p.2.1
    rw [List.flatMap_cons, List.flatMap_nil, List.append_nil, ← Tree.leafSymbols_eq] at this
    refine this.trans (List.Perm.of_eq ?_)
    generalize 0 = j
    induction f generalizing j with
    | nil => rfl
    | cons e f ih =>
      clear ih
      have : ∀ (j : Nat) (f : List FreqEntry), ((List.range' j f.length).zip (f.map fun e => (e.sym, e.cnt))).map
          (fun p => p.2.1) = f.map FreqEntry.sym := by
        intro j f
        induction f generalizing j with
        | nil => rfl
        | cons e f ih => simp [List.range'_succ, ih]
      exact this j (e :: f)

theorem mem_leafSymbols_of_text {x : List Symbol} {t : Tree} (h : buildTreeOf (frequencies x) = .ok t) (a : Symbol) :
    a ∈ t.leafSymbols ↔ a ∈ x := by
  rw [(buildTreeOf_leafSymbols h).mem_iff, mem_frequencies_syms]

/-- COMPRESS of a text that is not empty succeeds (R202), and this is what it leaves (R203). -/
theorem State.compress_ok {x : List Symbol} (c : Config) (h : s.text = some x) (hx : x ≠ []) :
    ∃ t, buildTreeOf (frequencies x) = .ok t ∧ s.compress c = compressed c s x t := by
  rcases buildTreeOf_spec (frequencies x) with ⟨e, -⟩ | ⟨-, t, ht, -⟩
  · exact absurd e (frequencies_ne_nil hx)
  refine ⟨t, ht, ?_⟩
  have hE : encodeFrom (codesOf t) 0 x = .ok (x.flatMap fun a => (codeFor (codesOf t) a).getD []) :=
    encodeFrom_ok _ _ _ fun a ha => by
      rw [codeFor_isSome, codesOf_syms]; exact (mem_leafSymbols_of_text ht a).2 ha
  have hp : ¬ 7 < (BitVec.ofNat 8 (padCount (x.flatMap fun a => (codeFor (codesOf t) a).getD []).length)).toNat := by
    rw [padCount_toNat]; have := padCount_lt (x.flatMap fun a => (codeFor (codesOf t) a).getD []).length; omega
  rcases analyzeText_spec x with ⟨e, -⟩ | ⟨-, hA⟩
  · exact absurd e hx
  simp only [State.compress, destinations, State.invalidateAll, List.foldl, State.invalidate, runSteps, State.analyze, h, hA,
    State.succeed, if_true, State.buildTree, ht, State.deriveCodes, State.encode, hE, State.pack, State.serialize,
    serializeContainer, if_neg hp]
  simp [compressed, h]

/-- COMPRESS fails in ANALYZE alone (R202): the destinations are gone, the rest but STATUS and ERRINFO is as it was. -/
theorem State.compress_error {f : Failure} (c : Config)
    (h : (s.text = none ∧ f = .operandNotReady .text) ∨ (s.text = some [] ∧ f = .emptyInput)) :
    s.compress c = { s.invalidateAll (destinations .compress) with status := f.code, errinfo := f.info } := by
  rcases h with ⟨h, rfl⟩ | ⟨h, rfl⟩ <;>
    simp [State.compress, runSteps, State.analyze, State.invalidateAll, List.foldl, State.invalidate, destinations, h,
      analyzeText, State.fail, State.failWith, Failure.code, Failure.info]

/-- DECOMPRESS whose DESERIALIZE fails (R204). -/
theorem State.decompress_deserialize_error {z : List Byte} {f : Failure} (c : Config) (h : s.blob = some z)
    (hk : deserializeBlob c z = .error f) :
    s.decompress c = { s.invalidateAll (destinations .decompress) with
                       treeKind := .built, status := f.code, errinfo := f.info } := by
  have h0 := f.code_ne_zero
  simp [State.decompress, runSteps, State.invalidateAll, List.foldl, State.invalidate, destinations, State.deserialize, h, hk,
    State.fail, State.failWith, h0]

theorem State.decompress_blob_none (c : Config) (h : s.blob = none) :
    s.decompress c = { s.invalidateAll (destinations .decompress) with
                       treeKind := .built, status := 8#4, errinfo := 7 } := by
  simp [State.decompress, runSteps, State.invalidateAll, List.foldl, State.invalidate, destinations, State.deserialize, h,
    State.fail, State.failWith, Failure.code, Failure.info, BufId.id]

/-- The state DESERIALIZE leaves inside a DECOMPRESS. -/
def unwrapped (s : State) (k : Container) : State :=
  { s with bytes := some k.bytes, tree := some k.tree, treeKind := .recon, code := some k.codes, pad := some k.pad,
           bits := none, dtext := none, status := 0#4, errinfo := 0 }

/-- DECOMPRESS whose UNPACK fails: what DESERIALIZE wrote stays (R204). -/
theorem State.decompress_unpack_error {z : List Byte} {k : Container} {f : Failure} (c : Config) (h : s.blob = some z)
    (hk : deserializeBlob c z = .ok k) (hu : unpackBits k.bytes k.pad = .error f) :
    s.decompress c = { unwrapped s k with status := f.code, errinfo := f.info } := by
  have h0 := f.code_ne_zero
  simp [State.decompress, runSteps, State.invalidateAll, List.foldl, State.invalidate, destinations, State.deserialize, h, hk,
    State.succeed, State.unpack, hu, State.fail, State.failWith, h0, unwrapped]

/-- DECOMPRESS whose DECODE fails: BYTES, TREE, CODE, PAD and BITS stay (R204). -/
theorem State.decompress_decode_error {z : List Byte} {k : Container} {b : Bits} {f : Failure} (c : Config)
    (h : s.blob = some z) (hk : deserializeBlob c z = .ok k) (hu : unpackBits k.bytes k.pad = .ok b)
    (hd : decodeText c k.tree b = .error f) :
    s.decompress c = { unwrapped s k with bits := some b, status := f.code, errinfo := f.info } := by
  have h0 := f.code_ne_zero
  simp [State.decompress, runSteps, State.invalidateAll, List.foldl, State.invalidate, destinations, State.deserialize, h, hk,
    State.succeed, State.unpack, hu, State.decode, hd, State.fail, State.failWith, h0, unwrapped]

/-- DECOMPRESS that succeeds (R204). -/
theorem State.decompress_ok {z : List Byte} {k : Container} {b : Bits} {x : List Symbol} (c : Config)
    (h : s.blob = some z) (hk : deserializeBlob c z = .ok k) (hu : unpackBits k.bytes k.pad = .ok b)
    (hd : decodeText c k.tree b = .ok x) :
    s.decompress c = { unwrapped s k with bits := some b, dtext := some x } := by
  simp [State.decompress, runSteps, State.invalidateAll, List.foldl, State.invalidate, destinations, State.deserialize, h, hk,
    State.succeed, State.unpack, hu, State.decode, hd, unwrapped]

/-! ### The parameters -/

/-- No command that is not composite changes the parameters. -/
theorem Ended.config_eq {i : Instr} {t : State} (h : Ended i s t) : t.config = s.config := by
  rcases h with ⟨f, rfl⟩ | ⟨u, rfl, -, -, -, hc, -⟩
  · simp [State.fail]
  · exact hc

theorem runSteps_config (xs : List (State → State)) (hx : ∀ x ∈ xs, ∀ s : State, (x s).config = s.config) (s : State) :
    (runSteps xs s).config = s.config := by
  induction xs generalizing s with
  | nil => rfl
  | cons x xs ih =>
    rw [runSteps]
    split
    · rw [ih (fun y hy => hx y (by simp [hy])), hx x (by simp)]
    · exact hx x (by simp) s

theorem State.compress_config (c : Config) (s : State) : (s.compress c).config = s.config := by
  refine (runSteps_config _ (fun x hx s => ?_) _).trans rfl
  simp only [List.mem_cons, List.not_mem_nil, or_false] at hx
  rcases hx with rfl | rfl | rfl | rfl | rfl | rfl
  exacts [s.analyze_ends.config_eq, s.buildTree_ends.config_eq, s.deriveCodes_ends.config_eq, s.encode_ends.config_eq,
    s.pack_ends.config_eq, (s.serialize_ends c).config_eq]

theorem State.decompress_config (c : Config) (s : State) : (s.decompress c).config = s.config := by
  refine (runSteps_config _ (fun x hx s => ?_) _).trans rfl
  simp only [List.mem_cons, List.not_mem_nil, or_false] at hx
  rcases hx with rfl | rfl | rfl
  exacts [(s.deserialize_ends c).config_eq, s.unpack_ends.config_eq, (s.decode_ends c).config_eq]

/-- CLEAR is a reset (R207). -/
theorem State.clear_eq (s : State) : s.clear = s.resetBlock := rfl

end

end Sys2Proof.Machine
end

