-- ==== Sys2Proof/Machine/Assembler.lean ====
section
/-! DEFINITION. The assembler syntax of spec/30_encoding.md R85: a program is lines, each a command's mnemonic, a directive that
stands for a host action, or nothing; `;` starts a comment.  A line that is none of these is no action (log 13). -/

namespace Sys2Proof.Machine

/-- What a line is made of. -/
inductive Token where
  /-- A mnemonic, a buffer's name, a number or a hex byte. -/
  | word (w : List Char)
  /-- "a text value is written in double quotes", and so is a bitstring (R85). -/
  | quoted (s : List Char)
  /-- A symbol in a pair, between single quotes. -/
  | symbol (c : Char)
  | openList | closeList | openPair | closePair | comma
  deriving DecidableEq, Repr

/-- Where in a token the next character stands. -/
inductive LexState where
  | between
  | inWord (w : List Char)
  | inQuotes (s : List Char)
  | afterTick
  | afterSymbol (c : Char)
  deriving DecidableEq, Repr

/-- The token a character is by itself. -/
def punctuation (c : Char) : Option Token :=
  if c = '[' then some .openList else if c = ']' then some .closeList else if c = '(' then some .openPair
  else if c = ')' then some .closePair else if c = ',' then some .comma else none

/-- A character outside quotes: what the line goes on with, and the token it is, if it is one.  `none` is a comment. -/
def startToken (c : Char) : Option (LexState × List Token) :=
  if c = ';' then none
  else if c = ' ' ∨ c = '\t' then some (.between, [])
  else if c = '"' then some (.inQuotes [], [])
  else if c = '\'' then some (.afterTick, [])
  else match punctuation c with
    | some t => some (.between, [t])
    | none => some (.inWord [c], [])

/-- The tokens of a line; `none` for a quote that does not end. -/
def tokens : LexState → List Char → Option (List Token)
  | .between, [] => some []
  | .inWord w, [] => some [.word w]
  | .inQuotes _, [] => none
  | .afterTick, [] => none
  | .afterSymbol _, [] => none
  | .between, c :: cs =>
    match startToken c with
    | none => some []
    | some (st, ts) => (tokens st cs).map (ts ++ ·)
  | .inWord w, c :: cs =>
    match startToken c with
    | none => some [.word w]
    | some (.inWord w', _) => tokens (.inWord (w ++ w')) cs
    | some (st, ts) => (tokens st cs).map ([.word w] ++ ts ++ ·)
  | .inQuotes s, c :: cs =>
    if c = '"' then (tokens .between cs).map (.quoted s :: ·) else tokens (.inQuotes (s ++ [c])) cs
  | .afterTick, c :: cs => tokens (.afterSymbol c) cs
  | .afterSymbol a, c :: cs => if c = '\'' then (tokens .between cs).map (.symbol a :: ·) else none

/-- A digit's value in base 10 or 16, lower or upper case. -/
def digit (base : Nat) (c : Char) : Option Nat :=
  let n := c.toNat
  let d := if 48 ≤ n ∧ n ≤ 57 then n - 48 else if 97 ≤ n ∧ n ≤ 102 then n - 87 else if 65 ≤ n ∧ n ≤ 70 then n - 55 else base
  if d < base then some d else none

/-- A number of one or more digits. -/
def number (base : Nat) (w : List Char) : Option Nat :=
  if w = [] then none else w.foldl (fun acc c => acc.bind fun n => (digit base c).map (base * n + ·)) (some 0)

/-- "as ASCII characters": a character's symbol. -/
def asciiSymbol (c : Char) : Option Symbol := if c.toNat < 128 then some c.toNat else none

/-- "a bitstring as binary digits". -/
def binaryDigit (c : Char) : Option Bit := if c = '0' then some false else if c = '1' then some true else none

/-- "hex bytes separated by spaces", two digits each. -/
def hexByte : Token → Option Byte
  | .word w => if w.length = 2 then (number 16 w).map (BitVec.ofNat 8) else none
  | .quoted _ => none
  | .symbol _ => none
  | .openList => none | .closeList => none | .openPair => none | .closePair => none | .comma => none

/-- The pairs of a FREQ value behind the opening bracket, `fresh` while none has been read. -/
def freqPairs (fresh : Bool) : List Token → Option (List FreqEntry)
  | [.closeList] => if fresh then some [] else none
  | .openPair :: .symbol c :: .comma :: .word n :: .closePair :: .comma :: rest =>
    match asciiSymbol c, number 10 n, freqPairs false rest with
    | some a, some k, some f => some (⟨a, k⟩ :: f)
    | _, _, _ => none
  | [.openPair, .symbol c, .comma, .word n, .closePair, .closeList] =>
    match asciiSymbol c, number 10 n with
    | some a, some k => some [⟨a, k⟩]
    | _, _ => none
  | _ => none

/-- The pairs of a CODE value behind the opening bracket. -/
def codePairs (fresh : Bool) : List Token → Option (List CodeEntry)
  | [.closeList] => if fresh then some [] else none
  | .openPair :: .symbol c :: .comma :: .quoted s :: .closePair :: .comma :: rest =>
    match asciiSymbol c, s.mapM binaryDigit, codePairs false rest with
    | some a, some b, some f => some (⟨a, b⟩ :: f)
    | _, _, _ => none
  | [.openPair, .symbol c, .comma, .quoted s, .closePair, .closeList] =>
    match asciiSymbol c, s.mapM binaryDigit with
    | some a, some b => some [⟨a, b⟩]
    | _, _ => none
  | _ => none

/-- The buffer's name (R30). -/
def BufId.name : BufId → List Char
  | .text => ['T', 'E', 'X', 'T'] | .freq => ['F', 'R', 'E', 'Q'] | .tree => ['T', 'R', 'E', 'E'] | .code => ['C', 'O', 'D', 'E']
  | .bits => ['B', 'I', 'T', 'S'] | .bytes => ['B', 'Y', 'T', 'E', 'S'] | .pad => ['P', 'A', 'D'] | .blob => ['B', 'L', 'O', 'B']
  | .dtext => ['D', 'T', 'E', 'X', 'T']

/-- The value of an HLOAD (R85, R210).  TREE and DTEXT, which no host loads, have none; PAD's is a decimal number (log 13). -/
def loadValue : BufId → List Token → Option BufVal
  | .text, [.quoted s] => (s.mapM asciiSymbol).map .text
  | .freq, .openList :: ts => (freqPairs true ts).map .freq
  | .code, .openList :: ts => (codePairs true ts).map .code
  | .bits, [.quoted s] => (s.mapM binaryDigit).map .bits
  | .bytes, ts => (ts.mapM hexByte).map .bytes
  | .pad, [.word w] => (number 10 w).bind fun n => if n < 256 then some (.pad (BitVec.ofNat 8 n)) else none
  | .blob, ts => (ts.mapM hexByte).map .blob
  | _, _ => none

/-- The action a line's tokens stand for; no tokens, no action. -/
def lineAction : List Token → Option (List HostAction)
  | [] => some []
  | [.word w] =>
    if w = ['R', 'E', 'S', 'E', 'T'] then some [.reset]
    else (Instr.all.find? fun i => (mnemonic i).toList == w).map fun i => [.issue (encode i)]
  | .word d :: .word x :: ts =>
    match BufId.all.find? fun b => b.name == x with
    | none => none
    | some b =>
      if d = ['H', 'R', 'E', 'A', 'D'] ∧ ts = [] then some [.read b]
      else if d = ['H', 'L', 'O', 'A', 'D'] then (loadValue b ts).map fun v => [.load v]
      else none
  | _ => none

/-- The host action of one line, if the line is one. -/
def assembleLine (line : List Char) : Option (List HostAction) := (tokens .between line).bind lineAction

/-- The lines of a program. -/
def programLines : List Char → List (List Char)
  | [] => [[]]
  | c :: cs =>
    match programLines cs with
    | [] => [[c]]
    | l :: ls => if c = '\n' then [] :: l :: ls else (c :: l) :: ls

/-- What a program makes the host do, line by line (R85). -/
def assembleProgram (text : List Char) : Option (List HostAction) := ((programLines text).mapM assembleLine).map List.flatten

end Sys2Proof.Machine
end

