-- ==== Sys2Proof/Laws/PerInstr.lean ====
section
/-! SUPPORT. What holds of every command as syntax (spec/30_encoding.md R80, R81, R86): one lemma a constructor. -/

namespace Sys2Proof.Laws.CommandByte

open Sys2Proof

/-- A command is well formed, its byte lies in 0x01 to 0x0C and decodes to it, and the line of its mnemonic
assembles to that byte. -/
def Statement (i : Instr) : Prop :=
  i.wellFormed = true ∧ 1 ≤ (Sys2Proof.encode i).toNat ∧ (Sys2Proof.encode i).toNat ≤ 12 ∧
    Sys2Proof.decode (Sys2Proof.encode i) = .ok i ∧
    Machine.assembleLine (mnemonic i).toList = some [.issue (Sys2Proof.encode i)]

theorem analyze : Statement .analyze := ⟨rfl, by decide, by decide, rfl, by decide⟩
theorem buildTree : Statement .buildTree := ⟨rfl, by decide, by decide, rfl, by decide⟩
theorem deriveCodes : Statement .deriveCodes := ⟨rfl, by decide, by decide, rfl, by decide⟩
theorem encode : Statement .encode := ⟨rfl, by decide, by decide, rfl, by decide⟩
theorem pack : Statement .pack := ⟨rfl, by decide, by decide, rfl, by decide⟩
theorem serialize : Statement .serialize := ⟨rfl, by decide, by decide, rfl, by decide⟩
theorem deserialize : Statement .deserialize := ⟨rfl, by decide, by decide, rfl, by decide⟩
theorem unpack : Statement .unpack := ⟨rfl, by decide, by decide, rfl, by decide⟩
theorem decode : Statement .decode := ⟨rfl, by decide, by decide, rfl, by decide⟩
theorem compress : Statement .compress := ⟨rfl, by decide, by decide, rfl, by decide⟩
theorem decompress : Statement .decompress := ⟨rfl, by decide, by decide, rfl, by decide⟩
theorem clear : Statement .clear := ⟨rfl, by decide, by decide, rfl, by decide⟩

end Sys2Proof.Laws.CommandByte
end

