-- ==== Sys2Proof/Laws/WellFormed.lean ====
section
/-! SUPPORT. Every value a command writes is within its type and capacity (spec/00_scope.md R6, R7): the pieces of "every step keeps
`State.wf`", one for each command's function. -/

namespace Sys2Proof.Machine

/-! ### Reading the checks -/

theorem fitsText_iff {c : Config} {t : List Symbol} :
    fitsText c t = true ↔ t.length ≤ c.nMax ∧ ∀ x ∈ t, x < 2 ^ c.symW := by
  simp [fitsText, fitsSymbol]

theorem fitsFreq_iff {c : Config} {f : List FreqEntry} :
    fitsFreq c f = true ↔ f.length ≤ c.kMax ∧ ∀ e ∈ f, e.sym < 2 ^ c.symW ∧ e.cnt < 2 ^ c.cntW := by
  simp [fitsFreq, fitsSymbol]

theorem fitsCode_iff {c : Config} {t : List CodeEntry} :
    fitsCode c t = true ↔ t.length ≤ c.codeMax ∧ ∀ e ∈ t, e.sym < 2 ^ c.symW ∧ e.code.length ≤ c.codelenMax := by
  simp [fitsCode, fitsSymbol]

theorem fitsTree_iff {c : Config} {t : Tree} :
    fitsTree c t = true ↔ t.size ≤ c.nodeMax ∧ (∀ x ∈ t.leafSymbols, x < 2 ^ c.symW) ∧ t.weightsFit c = true := by
  simp [fitsTree, fitsSymbol, and_assoc]

theorem fitsBits_iff {c : Config} {b : Bits} : fitsBits c b = true ↔ b.length ≤ c.bitsMax := by simp [fitsBits]

theorem fitsBytes_iff {c : Config} {b : List Byte} : fitsBytes c b = true ↔ b.length ≤ c.bytesMax := by simp [fitsBytes]

theorem fitsBlob_iff {c : Config} {b : List Byte} : fitsBlob c b = true ↔ b.length ≤ c.blobMax := by simp [fitsBlob]

/-- The constraints of R6 as propositions. -/
theorem legal_iff {c : Config} : c.legal = true ↔ 1 ≤ c.symW ∧ c.symW ≤ 32 ∧ 1 ≤ c.nMax ∧ c.nMax < 2 ^ 32 ∧
    c.nMax < 2 ^ c.cntW ∧ c.codeMax < 2 ^ 16 ∧ c.codelenMax < 2 ^ 16 ∧ c.bytesMax < 2 ^ 32 ∧ c.blobMax < 2 ^ c.infoW ∧
    c.nMax < 2 ^ c.infoW := by
  simp [Config.legal, and_assoc]

theorem two_le_kMax {c : Config} (h : c.legal = true) : 2 ≤ c.kMax := by
  have h1 := (legal_iff.1 h).1
  calc 2 = 2 ^ 1 := rfl
    _ ≤ 2 ^ c.symW := Nat.pow_le_pow_right (by decide) h1

/-! ### ANALYZE -/

theorem length_le_of_nodup_lt {l : List Nat} {n : Nat} (h : l.Nodup) (hl : ∀ x ∈ l, x < n) : l.length ≤ n := by
  have := (h.subperm (l₂ := List.range n) fun x hx => by simpa using hl x hx).length_le
  simpa using this

/-- "ANALYZE cannot exceed a capacity" (R114). -/
theorem fitsFreq_frequencies {c : Config} (hc : c.legal = true) {t : List Symbol} (h : fitsText c t = true) :
    fitsFreq c (frequencies t) = true := by
  obtain ⟨hn, hs⟩ := fitsText_iff.1 h
  obtain ⟨-, -, -, -, hcnt, -⟩ := legal_iff.1 hc
  rw [fitsFreq_iff, frequencies_eq]
  refine ⟨?_, ?_⟩
  · rw [List.length_map]
    exact length_le_of_nodup_lt (eraseDups_nodup t) fun x hx => hs x (by simpa using hx)
  · intro e he
    obtain ⟨x, hx, rfl⟩ := List.mem_map.1 he
    refine ⟨hs x (by simpa using hx), ?_⟩
    exact lt_of_le_of_lt (List.count_le_length.trans hn) hcnt

/-! ### BUILD_TREE -/

theorem weightsFit_of_weighted {c : Config} {t : Tree} (h : t.weighted = true) (hw : t.weight < 2 ^ c.weightW) :
    t.weightsFit c = true := by
  induction t with
  | leaf i s w => simpa [Tree.weightsFit] using hw
  | node i w l r hl hr =>
    simp only [Tree.weighted, Bool.and_eq_true, decide_eq_true_eq] at h
    simp only [Tree.weight_node] at hw
    simp [Tree.weightsFit, hw, hl h.1.2 (by omega), hr h.2 (by omega)]

theorem weightsFit_of_weightless {c : Config} {t : Tree} (h : t.weightless = true) : t.weightsFit c = true := by
  induction t with
  | leaf i s w => simp only [Tree.weightless, decide_eq_true_eq] at h; simp [Tree.weightsFit, h]
  | node i w l r hl hr =>
    simp only [Tree.weightless, Bool.and_eq_true, decide_eq_true_eq] at h
    simp [Tree.weightsFit, h.1.1, hl h.1.2, hr h.2]

theorem sum_lt_of_forall_lt {l : List Nat} {n : Nat} (h : ∀ x ∈ l, x < n) (hl : l ≠ []) : l.sum < l.length * n := by
  induction l with
  | nil => exact absurd rfl hl
  | cons a l ih =>
    have ha := h a (by simp)
    rw [List.sum_cons, List.length_cons, Nat.add_mul, Nat.one_mul]
    by_cases h0 : l = []
    · subst h0; simpa using ha
    · have := ih (fun x hx => h x (by simp [hx])) h0
      omega

/-- "No capacity can be exceeded: 2k − 1 ≤ NODE_MAX and every weight is below 2^W_W" (R128), and the layout of R122. -/
theorem fitsTree_buildTreeOf {c : Config} {f : List FreqEntry} {t : Tree} (hf : fitsFreq c f = true)
    (h : buildTreeOf f = .ok t) : fitsTree c t = true ∧ laidOut .built t = true := by
  obtain ⟨hk, hs⟩ := fitsFreq_iff.1 hf
  rcases buildTreeOf_spec f with ⟨-, e⟩ | ⟨hne, t', e, -, hidx, hsize, hF⟩
  · rw [h] at e; cases e
  rw [h] at e; cases e
  have hw : t.weighted = true := hF.weighted t (by simp)
  have hweight : t.weight < 2 ^ c.weightW := by
    have hsum : t.weight = (f.map FreqEntry.cnt).sum := by simpa using hF.weight
    have hlt := sum_lt_of_forall_lt (l := f.map FreqEntry.cnt) (n := 2 ^ c.cntW)
      (fun x hx => by obtain ⟨e, he, rfl⟩ := List.mem_map.1 hx; exact (hs e he).2) (by simpa using hne)
    rw [List.length_map] at hlt
    rw [hsum, Config.weightW, Nat.add_comm, pow_add]
    exact lt_of_lt_of_le hlt (Nat.mul_le_mul_right _ hk)
  refine ⟨fitsTree_iff.2 ⟨by unfold Config.nodeMax; omega, ?_, weightsFit_of_weighted hw hweight⟩, ?_⟩
  · intro x hx
    have := (buildTreeOf_leafSymbols h).mem_iff.1 hx
    obtain ⟨e, he, rfl⟩ := List.mem_map.1 this
    exact (hs e he).1
  · have hp : t.indices.Perm (List.range t.size) := by
      have := hF.indices
      rw [hsize]; simpa using this
    simp [laidOut, List.isPerm_iff, hp, hidx, hw, hF.ordered t (by simp)]

/-! ### DERIVE_CODES, ENCODE -/

theorem leafSymbols_length (t : Tree) : t.size + 1 = 2 * t.leafSymbols.length := by
  rw [Tree.leafSymbols_eq, List.length_map]; exact t.leaves_length

/-- "A tree of at most NODE_MAX nodes has at most K_MAX leaves and depth at most K_MAX − 1" (R137). -/
theorem fitsCode_codesOf {c : Config} (hc : c.legal = true) {t : Tree} (h : fitsTree c t = true) :
    fitsCode c (codesOf t) = true := by
  obtain ⟨hn, hs, -⟩ := fitsTree_iff.1 h
  have h2 := two_le_kMax hc
  have hl : t.leafSymbols.length ≤ c.kMax := by
    have := leafSymbols_length t
    unfold Config.nodeMax at hn; omega
  rw [fitsCode_iff]
  refine ⟨?_, fun e he => ⟨?_, ?_⟩⟩
  · rw [← List.length_map (f := CodeEntry.sym), codesOf_syms]; exact hl
  · apply hs
    rw [← codesOf_syms]; exact List.mem_map.2 ⟨e, he, rfl⟩
  · cases t with
    | leaf i s w =>
      simp only [codesOf, List.mem_singleton] at he
      subst he; simp [Config.codelenMax]; omega
    | node i w l r =>
      have := Tree.visit_length _ he
      unfold Config.codelenMax; omega

theorem length_flatMap_le {α β : Type} (l : List α) (g : α → List β) (n : Nat) (h : ∀ a ∈ l, (g a).length ≤ n) :
    (l.flatMap g).length ≤ l.length * n := by
  induction l with
  | nil => simp
  | cons a l ih =>
    rw [List.flatMap_cons, List.length_append, List.length_cons, Nat.add_mul, Nat.one_mul]
    have := h a (by simp)
    have := ih fun b hb => h b (by simp [hb])
    omega

/-- "len(B) ≤ N_MAX · CODELEN_MAX ≤ BITS_MAX" (R142). -/
theorem fitsBits_encode {c : Config} {x : List Symbol} {table : List CodeEntry} (hx : fitsText c x = true)
    (ht : fitsCode c table = true) : fitsBits c (x.flatMap fun s => (codeFor table s).getD []) = true := by
  obtain ⟨hn, -⟩ := fitsText_iff.1 hx
  obtain ⟨-, hc⟩ := fitsCode_iff.1 ht
  have h1 := length_flatMap_le x (fun s => (codeFor table s).getD []) c.codelenMax fun s _ => by
    cases h : codeFor table s with
    | none => simp
    | some b => exact (hc _ (codeFor_mem h)).2
  have h2 : x.length * c.codelenMax ≤ c.nMax * c.codelenMax := Nat.mul_le_mul_right _ hn
  rw [fitsBits_iff, Config.bitsMax, Config.bytesMax]
  omega

/-! ### PACK, UNPACK -/

theorem fitsBytes_packBits {c : Config} {b : Bits} (h : fitsBits c b = true) : fitsBytes c (packBits b) = true := by
  rw [fitsBits_iff, Config.bitsMax] at h
  rw [fitsBytes_iff, packBits_length]
  omega

theorem fitsBits_unpack {c : Config} {bs : List Byte} (h : fitsBytes c bs = true) (n : Nat) :
    fitsBits c ((unpackBytes bs).drop n) = true := by
  rw [fitsBytes_iff] at h
  rw [fitsBits_iff, Config.bitsMax, List.length_drop, unpackBytes_length]
  omega

/-! ### SERIALIZE, DESERIALIZE -/

/-- "No capacity can be exceeded": BLOB_MAX is "the largest blob the other capacities allow" (R177, R6). -/
theorem fitsBlob_wire {c : Config} {k : Container} (hb : fitsBytes c k.bytes = true)
    (ht : fitsTree c k.tree = true) (hk : fitsCode c k.codes = true) : fitsBlob c (k.wire c) = true := by
  rw [fitsBytes_iff] at hb
  obtain ⟨hn, -, -⟩ := fitsTree_iff.1 ht
  obtain ⟨hlen, hcode⟩ := fitsCode_iff.1 hk
  have hleaf : k.tree.leafSymbols.length ≤ c.kMax := by
    have := leafSymbols_length k.tree
    unfold Config.nodeMax at hn; omega
  have hw := k.tree.wire_length c
  have h1 : k.tree.leafSymbols.length * (1 + c.symb) ≤ c.kMax * (1 + c.symb) := Nat.mul_le_mul_right _ hleaf
  have h2 : (k.codes.map fun e => c.symb + 2 + (e.code.length + 7) / 8).sum
      ≤ k.codes.length * (c.symb + 2 + (c.codelenMax + 7) / 8) := by
    have hle : ∀ e ∈ k.codes, c.symb + 2 + (e.code.length + 7) / 8 ≤ c.symb + 2 + (c.codelenMax + 7) / 8 := fun e he => by
      have := (hcode e he).2; omega
    have := List.sum_le_card_nsmul (k.codes.map fun e => c.symb + 2 + (e.code.length + 7) / 8) _ fun x hx => by
      obtain ⟨e, he, rfl⟩ := List.mem_map.1 hx; exact hle e he
    simpa using this
  have h3 : k.codes.length * (c.symb + 2 + (c.codelenMax + 7) / 8) ≤ c.codeMax * (c.symb + 2 + (c.codelenMax + 7) / 8) :=
    Nat.mul_le_mul_right _ hlen
  rw [fitsBlob_iff, Container.wire_length, Config.blobMax]
  omega

/-- A container within the capacities can be written and read back (R6: the fields of the wire format are wide enough). -/
theorem writable_of_fits {c : Config} (hc : c.legal = true) {k : Container} (hb : fitsBytes c k.bytes = true)
    (ht : fitsTree c k.tree = true) (hk : fitsCode c k.codes = true) (hp : k.pad.toNat ≤ 7) : k.Writable c := by
  obtain ⟨-, -, -, -, -, h1, h2, h3, -, -⟩ := legal_iff.1 hc
  rw [fitsBytes_iff] at hb
  obtain ⟨-, hs, -⟩ := fitsTree_iff.1 ht
  obtain ⟨hlen, hcode⟩ := fitsCode_iff.1 hk
  exact ⟨by omega, hs, by omega, fun e he => ⟨(hcode e he).1, by have := (hcode e he).2; omega⟩, hp⟩

theorem tooLarge_false_iff {c : Config} {k : Container} : k.tooLarge c = false ↔
    k.bytes.length ≤ c.bytesMax ∧ k.tree.size ≤ c.nodeMax ∧ k.codes.length ≤ c.codeMax ∧
      ∀ e ∈ k.codes, e.code.length ≤ c.codelenMax := by
  simp [Container.tooLarge, and_assoc]

/-- DESERIALIZE reads back what SERIALIZE wrote, in the layout of R186 (R223). -/
theorem deserializeBlob_wire {c : Config} (hc : c.legal = true) {k : Container} (hb : fitsBytes c k.bytes = true)
    (ht : fitsTree c k.tree = true) (hk : fitsCode c k.codes = true) (hp : k.pad.toNat ≤ 7) :
    deserializeBlob c (k.wire c) = .ok { k with tree := k.tree.recon 0 } := by
  have hw := parseContainer_wire c k (writable_of_fits hc hb ht hk hp)
  have hl : ({ k with tree := k.tree.recon 0 } : Container).tooLarge c = false := by
    rw [tooLarge_false_iff]
    rw [fitsBytes_iff] at hb
    obtain ⟨hn, -, -⟩ := fitsTree_iff.1 ht
    obtain ⟨hlen, hcode⟩ := fitsCode_iff.1 hk
    exact ⟨hb, by simpa using hn, hlen, fun e he => (hcode e he).2⟩
  simp [deserializeBlob, hw, hl]

/-- What DESERIALIZE writes is within its types and capacities, the tree laid out as R186 says. -/
theorem fits_of_deserializeBlob {c : Config} {z : List Byte} {k : Container} (h : deserializeBlob c z = .ok k) :
    fitsBytes c k.bytes = true ∧ fitsTree c k.tree = true ∧ laidOut .recon k.tree = true ∧ fitsCode c k.codes = true := by
  rcases deserializeBlob_spec c z with ⟨k', e, ⟨P⟩, hl⟩ | ⟨k', e, -⟩ | ⟨off, e, -⟩
  · rw [h] at e; cases e
    obtain ⟨h1, h2, h3, h4⟩ := tooLarge_false_iff.1 hl
    have hT := parseNode_spec c z (z.length + 1) 0 P.p2
    rw [P.tree] at hT
    obtain ⟨t, p, e, -, -, hi, hw, hs⟩ | ⟨off, e, -⟩ := hT
    swap
    · cases e
    cases e
    have hE := parseEntries_spec c z P.n P.p4 (by
      rcases takeNat_spec z P.p3 2 with ⟨h, e, -⟩ | ⟨-, e⟩ <;> rw [P.count] at e
      · simp only [Except.ok.injEq, Prod.mk.injEq] at e; omega
      · cases e)
    rw [P.entries] at hE
    obtain ⟨es, p, e, -, -, hes⟩ | ⟨off, e, -⟩ := hE
    swap
    · cases e
    cases e
    refine ⟨by simpa [fitsBytes] using h1, fitsTree_iff.2 ⟨h2, hs, weightsFit_of_weightless hw⟩, ?_,
      fitsCode_iff.2 ⟨h3, fun e he => ⟨hes e he, h4 e he⟩⟩⟩
    simp [laidOut, List.isPerm_iff, hi, hw, List.range_eq_range']
  · rw [h] at e; cases e
  · rw [h] at e; cases e

/-! ### DECODE -/

theorem fitsText_decodeText {c : Config} {t : Tree} {b : Bits} {x : List Symbol} (ht : fitsTree c t = true)
    (h : decodeText c t b = .ok x) : fitsText c x = true := by
  obtain ⟨-, hs, -⟩ := fitsTree_iff.1 ht
  obtain ⟨y, hy, -, ⟨-, hn, e⟩ | ⟨-, -, e⟩ | ⟨-, e⟩⟩ := decodeText_spec c t b
  · rw [h] at e; cases e
    exact fitsText_iff.2 ⟨hn, fun a ha => hs a (hy a ha)⟩
  · rw [h] at e; cases e
  · rw [h] at e; cases e

/-! ### Whole states -/

/-- Every number below 2^INFO_W, every byte and every count up to BITS_MAX is within ERRINFO's bound. -/
theorem lt_infoBound {c : Config} {n : Nat} (h : n < 2 ^ c.infoW ∨ n < 256 ∨ n ≤ c.bitsMax) : n < c.infoBound := by
  unfold Config.infoBound; omega

/-- A state stays well formed when buffers lose their value and a failure is recorded. -/
theorem State.wf_failWith {s : State} (h : s.wf) (ds : List BufId) (f : Failure)
    (hf : f.info < s.config.infoBound) : (s.failWith ds f).wf := by
  obtain ⟨h0, h1, h2, h3, h4, h5, h6, h7, h8, -, -⟩ := h
  have e {α : Type} (o : Option α) (P : α → Bool) (b : Prop) [Decidable b] (ho : o.all P = true) :
      (if b then none else o).all P = true := by split <;> simp_all
  unfold State.wf
  rw [failWith_config]
  refine ⟨h0, ?_, ?_, ?_, ?_, ?_, ?_, ?_, ?_, f.code_le, hf⟩
  · rw [failWith_text]; exact e _ _ _ h1
  · rw [failWith_freq]; exact e _ _ _ h2
  · rw [failWith_tree, failWith_treeKind]
    split
    · rfl
    · exact h3
  · rw [failWith_code]; exact e _ _ _ h4
  · rw [failWith_bits]; exact e _ _ _ h5
  · rw [failWith_bytes]; exact e _ _ _ h6
  · rw [failWith_blob]; exact e _ _ _ h7
  · rw [failWith_dtext]; exact e _ _ _ h8

/-- A state stays well formed when a success is recorded. -/
theorem State.wf_succeed {s : State} (h : s.wf) : s.succeed.wf := by
  obtain ⟨h0, h1, h2, h3, h4, h5, h6, h7, h8, -, -⟩ := h
  exact ⟨h0, h1, h2, h3, h4, h5, h6, h7, h8, by simp, lt_infoBound (.inr (.inl (by simp)))⟩

end Sys2Proof.Machine
end

