-- ==== Sys2Proof/Tests/Slice0.lean ====
section
/-! SUPPORT. Tests on fixed values.  The expected results are those of spec/95_test_vectors.md (its sections are named at each), of
the encoding tables of spec/30_encoding.md, or worked by hand from the rule named.  At the end, for every statement of
Certificates/Slice0/Obligations.lean that has hypotheses, a witness that they can be met, at the values where clauses meet. -/

namespace Sys2Proof.Tests

open Sys2Proof Sys2Proof.Machine

/-! ### Helpers -/

/-- The next state, if there is one. -/
def after : Host.Outcome State Fault Refusal → Option State
  | .next s => some s
  | .fault _ => none
  | .refused _ => none

/-- STATUS and ERRINFO of the next state. -/
def ending (o : Host.Outcome State Fault Refusal) : Option (BitVec 4 × Nat) := (after o).map fun t => (t.status, t.errinfo)

/-- A bitstring of `len` bits from a binary numeral, first bit the heaviest. -/
def bin (len n : Nat) : Bits := (List.range len).map fun i => n.testBit (len - 1 - i)

/-- The reset state with one host action to come. -/
def doing (a : HostAction) : State := State.reset.withAction a

/-- The reset state with a text. -/
def withText (x : List Symbol) : State := { State.reset with text := some x }

/-- A parameter set with small capacities: SYM_W 1, N_MAX 2, CNT_W 2, INFO_W 5, so SYMB 1, K_MAX 2, NODE_MAX 3, CODELEN_MAX 1,
BYTES_MAX 1, BITS_MAX 8, BLOB_MAX 22. -/
def small : Config := ⟨1, 2, 2, 5⟩

/-- A block with those parameters. -/
def smallBlock : State := State.resetWith small

/-- The leaf ('a', 4), T1 of section 2.6. -/
def t1 : Tree := .leaf 0 97 4

/-- Internal(2, Leaf a, Leaf b), T2 of section 2.6, as BUILD_TREE lays it out. -/
def t2 : Tree := .node 2 2 (.leaf 0 97 1) (.leaf 1 98 1)

/-- T2 as DESERIALIZE lays it out (R186). -/
def t2r : Tree := .node 0 0 (.leaf 1 97 0) (.leaf 2 98 0)

/-- The tree of V1, as BUILD_TREE lays it out. -/
def t5 : Tree :=
  .node 8 11 (.leaf 0 97 5) (.node 7 6 (.node 5 2 (.leaf 3 99 1) (.leaf 4 100 1)) (.node 6 4 (.leaf 1 98 2) (.leaf 2 114 2)))

/-- CODE of V3. -/
def c2 : List CodeEntry := [⟨97, [false]⟩, ⟨98, [true]⟩]

/-- The nine-byte blob of section 2.10 without its padding byte: an empty payload, Leaf a, no codes. -/
def tiny : List Byte := [0x04, 0x00, 0x00, 0x00, 0x00, 0x01, 0x61, 0x00, 0x00]

/-- The middle of the blobs of section 2.9: the tree and the code table of V1. -/
def treeAndCodes : List Byte :=
  [0x00, 0x01, 0x61, 0x00, 0x00, 0x01, 0x63, 0x01, 0x64, 0x00, 0x01, 0x62, 0x01, 0x72, 0x00, 0x05, 0x61, 0x00, 0x01, 0x00, 0x63,
   0x00, 0x03, 0x04, 0x64, 0x00, 0x03, 0x05, 0x62, 0x00, 0x03, 0x06, 0x72, 0x00, 0x03, 0x07]

/-- The four buffers SERIALIZE reads, and the texts around them, of V3 ("ab"). -/
def s2 : State :=
  { State.reset with text := some [97, 98], freq := some [⟨97, 1⟩, ⟨98, 1⟩], tree := some t2, code := some c2,
                     bits := some [false, true], bytes := some [0x01], pad := some 6 }

/-! ### The command byte: words written out from the table of R81, bit 7 first -/

theorem test_decode_analyze : decode 0b00000001#8 = .ok .analyze := by decide
theorem test_decode_build_tree : decode 0b00000010#8 = .ok .buildTree := by decide
theorem test_decode_derive_codes : decode 0b00000011#8 = .ok .deriveCodes := by decide
theorem test_decode_encode : decode 0b00000100#8 = .ok .encode := by decide
theorem test_decode_pack : decode 0b00000101#8 = .ok .pack := by decide
theorem test_decode_serialize : decode 0b00000110#8 = .ok .serialize := by decide
theorem test_decode_deserialize : decode 0b00000111#8 = .ok .deserialize := by decide
theorem test_decode_unpack : decode 0b00001000#8 = .ok .unpack := by decide
theorem test_decode_decode : decode 0b00001001#8 = .ok .decode := by decide
theorem test_decode_compress : decode 0b00001010#8 = .ok .compress := by decide
theorem test_decode_decompress : decode 0b00001011#8 = .ok .decompress := by decide
theorem test_decode_clear : decode 0b00001100#8 = .ok .clear := by decide

/-- R83: the bytes beside the table. -/
theorem test_decode_illegal :
    decode 0x00#8 = .error (.illegalCommand 0x00#8) ∧ decode 0x0D#8 = .error (.illegalCommand 0x0D#8) ∧
      decode 0xFF#8 = .error (.illegalCommand 0xFF#8) := by decide

theorem test_encode_decode : ∀ i ∈ Instr.all, decode (encode i) = .ok i := by decide

/-- R84: one byte, no other width. -/
theorem test_table_word : decodeTableWord 8 0x0B = some .decompress ∧ decodeTableWord 16 0x0B = none := by decide

/-- R85: upper case, no operands. -/
theorem test_assemble_case : assembleLine "BUILD_TREE".toList = some [.issue 0x02#8] ∧
    assembleLine "build_tree".toList = none ∧ assembleLine "CLEAR TEXT".toList = none := by decide

/-- Section 3, P6 and a load of each other kind of value. -/
theorem test_assemble_program :
    assembleProgram "RESET\nHLOAD TEXT \"abc\"\nHLOAD CODE [('a',\"0\"), ('b',\"1\")]\nENCODE   ; 04".toList
      = some [.reset, .load (.text [97, 98, 99]), .load (.code c2), .issue 0x04#8] := by decide

theorem test_assemble_values :
    assembleProgram "HLOAD FREQ [('a',5), ('b',2)]\nHLOAD BYTES 37 45 6e\n\nHREAD BITS".toList
      = some [.load (.freq [⟨97, 5⟩, ⟨98, 2⟩]), .load (.bytes [0x37, 0x45, 0x6e]), .read .bits] := by decide

/-! ### Well-formedness: an ill-formed term for each check, refused -/

theorem test_wf_instr : Instr.all.all Instr.wellFormed = true := by decide
theorem test_wf_symbol : fitsSymbol Config.huffcore 255 = true ∧ fitsSymbol Config.huffcore 256 = false := by decide

theorem test_wf_text : fitsText small [0, 1] = true ∧ fitsText small [0, 1, 0] = false ∧ fitsText small [2] = false := by decide

theorem test_wf_freq : fitsFreq small [⟨0, 3⟩] = true ∧ fitsFreq small [⟨0, 4⟩] = false ∧ fitsFreq small [⟨2, 1⟩] = false ∧
    fitsFreq small [⟨0, 1⟩, ⟨1, 1⟩, ⟨0, 1⟩] = false := by decide

theorem test_wf_code : fitsCode small [⟨0, [true]⟩] = true ∧ fitsCode small [⟨0, [true, true]⟩] = false ∧
    fitsCode small [⟨2, [true]⟩] = false ∧ fitsCode small [⟨0, []⟩, ⟨0, []⟩, ⟨0, []⟩] = false := by decide

theorem test_wf_bits : fitsBits small (List.replicate 8 true) = true ∧ fitsBits small (List.replicate 9 true) = false := by decide
theorem test_wf_bytes : fitsBytes small [0] = true ∧ fitsBytes small [0, 0] = false := by decide
theorem test_wf_blob : fitsBlob small (List.replicate 22 0) = true ∧ fitsBlob small (List.replicate 23 0) = false := by decide

/-- Too many nodes, a symbol too wide, a weight too wide. -/
theorem test_wf_tree : fitsTree small (.node 2 1 (.leaf 0 0 0) (.leaf 1 1 1)) = true ∧
    fitsTree small (.node 4 0 (.leaf 0 0 0) (.node 3 0 (.leaf 1 0 0) (.leaf 2 1 0))) = false ∧
    fitsTree small (.leaf 0 2 0) = false ∧ fitsTree small (.leaf 0 1 8) = false := by decide

/-- An index twice, the root not last, a weight that is no sum, children in the wrong order; RECON not in pre-order, a weight. -/
theorem test_wf_layout : laidOut .built t2 = true ∧ laidOut .built (.node 2 2 (.leaf 0 97 1) (.leaf 0 98 1)) = false ∧
    laidOut .built t2r = false ∧ laidOut .built (.node 2 3 (.leaf 0 97 1) (.leaf 1 98 1)) = false ∧
    laidOut .built (.node 2 2 (.leaf 1 97 1) (.leaf 0 98 1)) = false ∧ laidOut .recon t2r = true ∧
    laidOut .recon (.node 0 0 (.leaf 2 97 0) (.leaf 1 98 0)) = false ∧
    laidOut .recon (.node 0 0 (.leaf 1 97 1) (.leaf 2 98 0)) = false := by decide

/-- The constraints of R6, each broken once. -/
theorem test_wf_config : small.legal = true ∧ Config.legal ⟨0, 2, 2, 5⟩ = false ∧ Config.legal ⟨33, 2, 2, 64⟩ = false ∧
    Config.legal ⟨1, 0, 2, 5⟩ = false ∧ Config.legal ⟨1, 4, 2, 5⟩ = false ∧ Config.legal ⟨1, 2, 2, 4⟩ = false ∧
    Config.legal ⟨16, 2, 2, 32⟩ = false ∧ Config.legal ⟨1, 2 ^ 32, 33, 64⟩ = false := by decide

/-- STATUS 10 never occurs (R23); TREE_KIND that does not say who wrote TREE. -/
theorem test_wf_state : s2.wf ∧ ¬ ({ s2 with status := 10#4 } : State).wf ∧
    ¬ ({ s2 with treeKind := .recon } : State).wf ∧ ¬ ({ s2 with errinfo := 2 ^ 32 } : State).wf ∧
    ¬ ({ s2 with text := some [256] } : State).wf := by decide

/-- Parameters that are not legal (R6). -/
theorem test_wf_block : ¬ (State.resetWith ⟨0, 2, 2, 5⟩).wf := by decide

/-! ### The commands -/

/-- Section 2.2, "mississippi". -/
theorem test_analyze_mississippi :
    (after (exec .analyze (withText [109, 105, 115, 115, 105, 115, 115, 105, 112, 112, 105]))).bind State.freq
      = some [⟨109, 1⟩, ⟨105, 4⟩, ⟨115, 4⟩, ⟨112, 2⟩] := by decide

theorem test_analyze_empty : ending (exec .analyze (withText [])) = some (1#4, 0) := by decide

/-- Section 2.1, V4: "a new internal node waits behind older nodes of its weight". -/
theorem test_build_tree_ties :
    (after (exec .buildTree { State.reset with freq := some [⟨97, 2⟩, ⟨98, 2⟩, ⟨99, 1⟩, ⟨100, 1⟩] })).bind State.tree
      = some (.node 6 6 (.node 4 2 (.leaf 2 99 1) (.leaf 3 100 1)) (.node 5 4 (.leaf 0 97 2) (.leaf 1 98 2))) := by decide

/-- Section 2.1, V1: the arena, record by record. -/
theorem test_build_tree_arena :
    (after (exec .buildTree { State.reset with freq := some [⟨97, 5⟩, ⟨98, 2⟩, ⟨114, 2⟩, ⟨99, 1⟩, ⟨100, 1⟩] })).map
        (fun t => (t.tree.map Tree.arena, t.nodeCnt, t.root))
      = some (some [.leaf 97 5, .leaf 98 2, .leaf 114 2, .leaf 99 1, .leaf 100 1, .internal 2 3 4, .internal 4 1 2,
          .internal 6 5 6, .internal 11 0 7], 9, 8) := by decide

/-- Section 2.4, V7's tree. -/
theorem test_derive_codes :
    (after (exec .deriveCodes { State.reset with
        tree := some (.node 4 3 (.leaf 2 99 1) (.node 3 2 (.leaf 0 97 1) (.leaf 1 98 1))) })).bind State.code
      = some [⟨99, bin 1 0b0⟩, ⟨97, bin 2 0b10⟩, ⟨98, bin 2 0b11⟩] := by decide

/-- S5: the lone symbol has the code "0". -/
theorem test_derive_codes_leaf :
    (after (exec .deriveCodes { State.reset with tree := some t1 })).bind State.code = some [⟨97, [false]⟩] := by decide

/-- Section 2.5: of two entries for one symbol the first counts. -/
theorem test_encode_first_entry :
    (after (exec .encode { withText [97, 97] with code := some [⟨97, bin 2 0b10⟩, ⟨97, bin 1 0b0⟩] })).bind State.bits
      = some (bin 4 0b1010) := by decide

/-- Section 2.5: "abc" with no entry for c. -/
theorem test_encode_unknown : ending (exec .encode { withText [97, 98, 99] with code := some c2 }) = some (3#4, 2) := by decide

/-- Section 2.6, T5: "aabracad". -/
theorem test_decode_text :
    (after (exec .decode { State.reset with tree := some t5, bits := some (bin 16 0b0011011101000101) })).bind State.dtext
      = some [97, 97, 98, 114, 97, 99, 97, 100] := by decide

/-- Section 2.6, T5: the bits end inside a code after four symbols. -/
theorem test_decode_truncated :
    ending (exec .decode { State.reset with tree := some t5, bits := some (bin 10 0b0110111011) }) = some (4#4, 4) := by decide

/-- Section 2.7: nine ones. -/
theorem test_pack_nine :
    (after (exec .pack { State.reset with bits := some (bin 9 0b111111111) })).map (fun t => (t.bytes, t.pad))
      = some (some [0x01, 0xff], some 7) := by decide

theorem test_pack_empty :
    (after (exec .pack { State.reset with bits := some [] })).map (fun t => (t.bytes, t.pad)) = some (some [], some 0) := by decide

/-- Section 2.8: 37 45 6e with seven bits dropped. -/
theorem test_unpack_seven :
    (after (exec .unpack { State.reset with bytes := some [0x37, 0x45, 0x6e], pad := some 7 })).bind State.bits
      = some (bin 17 0b10100010101101110) := by decide

/-- Section 2.8: an empty payload has no three bits to drop. -/
theorem test_unpack_empty : ending (exec .unpack { State.reset with bytes := some [], pad := some 3 }) = some (5#4, 3) := by decide

/-- Section 2.9: ('x', "100000001") takes its nine bits in two bytes. -/
theorem test_serialize_entry :
    (after (exec .serialize { s2 with code := some [⟨120, bin 9 0b100000001⟩] })).bind State.blob
      = some [0x04, 0x00, 0x00, 0x00, 0x01, 0x01, 0x00, 0x01, 0x61, 0x01, 0x62, 0x00, 0x01, 0x78, 0x00, 0x09, 0x01, 0x01,
          0x06] := by decide

/-- Section 2.9: the lowest invalid source, before the padding count is looked at. -/
theorem test_serialize_not_ready : ending (exec .serialize { s2 with bytes := none, pad := some 8 }) = some (8#4, 5) := by decide

/-- Section 2.10: the code's unused front bits are dropped unseen. -/
theorem test_deserialize_dropped_bits :
    (after (exec .deserialize { State.reset with
        blob := some [0x04, 0x00, 0x00, 0x00, 0x01, 0x00, 0x01, 0x61, 0x00, 0x01, 0x61, 0x00, 0x01, 0xff, 0x04] })).map
        (fun t => (t.tree, t.code, t.treeKind)) = some (some (.leaf 0 97 0), some [⟨97, [true]⟩], .recon) := by decide

/-- Section 2.10, the rows that end in CorruptContainer, and one of R93 (a symbol field of 02 where SYM_W is 1). -/
theorem test_deserialize_corrupt :
    ([[], [0x05, 0x00, 0x00, 0x00, 0x00, 0x01, 0x61, 0x00, 0x00, 0x00], [0x04, 0x00, 0x00, 0x00],
        [0x04, 0x00, 0x00, 0x00, 0x03, 0x37, 0x45], [0x04, 0x00, 0x00, 0x00, 0x00, 0x02, 0x61, 0x00, 0x00, 0x00],
        [0x04, 0x00, 0x00, 0x00, 0x00, 0x00, 0x01, 0x61, 0x00, 0x00, 0x00], tiny ++ [0x08], tiny ++ [0x00, 0x00],
        [0x04, 0x00, 0x00, 0x00, 0x00, 0x01, 0x61, 0x00, 0x01, 0x61, 0x00, 0x03]].map
        fun z => ending (exec .deserialize { State.reset with blob := some z }))
      = [0, 0, 4, 7, 5, 11, 9, 10, 12].map (fun off => some (6#4, off)) ∧
    ending (exec .deserialize { smallBlock with blob := some [0x04, 0x00, 0x00, 0x00, 0x00, 0x01, 0x02, 0x00, 0x00, 0x00] })
      = some (6#4, 6) := by decide

/-- Section 2.1, V5: the blob of "mississippi". -/
theorem test_compress_mississippi :
    (after (exec .compress (withText [109, 105, 115, 115, 105, 115, 115, 105, 112, 112, 105]))).bind State.blob
      = some [0x04, 0x00, 0x00, 0x00, 0x03, 0x13, 0x33, 0xb7, 0x00, 0x01, 0x73, 0x00, 0x00, 0x01, 0x6d, 0x01, 0x70, 0x01, 0x69,
          0x00, 0x04, 0x73, 0x00, 0x01, 0x00, 0x6d, 0x00, 0x03, 0x04, 0x70, 0x00, 0x03, 0x05, 0x69, 0x00, 0x02, 0x03,
          0x03] := by decide

/-- Section 2.12: an empty text takes every earlier result away. -/
theorem test_compress_empty :
    (after (exec .compress { s2 with text := some [] })).map (fun t => (t.status, t.errinfo, t.validReg))
      = some (1#4, 0, 0x001#9) := by decide

/-- Section 2.11: the 43-byte blob, whose decoding ends inside a code. -/
theorem test_decompress_truncated :
    (after (exec .decompress { State.reset with
        blob := some ([0x04, 0x00, 0x00, 0x00, 0x01, 0x6f] ++ treeAndCodes ++ [0x00]) })).map
        (fun t => (t.status, t.errinfo, t.validReg)) = some (4#4, 3, 0x0FC#9) := by decide

/-- Section 2.11: the 42-byte blob, an empty payload with padding 3. -/
theorem test_decompress_padding :
    (after (exec .decompress { State.reset with
        blob := some ([0x04, 0x00, 0x00, 0x00, 0x00] ++ treeAndCodes ++ [0x03]) })).map
        (fun t => (t.status, t.errinfo, t.validReg)) = some (5#4, 3, 0x0EC#9) := by decide

/-- Section 2.13: CLEAR in any state. -/
theorem test_clear :
    (after (exec .clear { s2 with status := 3#4, errinfo := 2, treeKind := .recon })).map
        (fun t => (t.validReg, t.nodeCnt, t.root, t.treeKind, t.status, t.errinfo))
      = some (0#9, 0, 0, .built, 0#4, 0) := by decide

/-! ### One step -/

/-- Section 2.13: 0D and FF written to CMD. -/
theorem test_step_illegal : ending (step (doing (.issue 0x0D#8))) = some (9#4, 13) ∧
    ending (step (doing (.issue 0xFF#8))) = some (9#4, 255) := by decide

/-- The first instruction after reset: ANALYZE with TEXT invalid (section 2.2). -/
theorem test_step_first : ending (step (State.reset.withFetchWord 8 0x01)) = some (8#4, 0) := by decide

theorem test_step_load : (after (step (doing (.load (.pad 255))))).map (fun t => (t.pad, t.validReg)) =
    some (some 255, 0x040#9) := by decide

/-- R210 in a block with other parameters: each load at its capacity, and the same just beyond it. -/
theorem test_step_small_loads :
    ([.text [0, 1], .freq [⟨1, 3⟩, ⟨0, 0⟩], .code [⟨1, [true]⟩, ⟨0, []⟩], .bits (List.replicate 8 true), .bytes [0xff],
        .blob (List.replicate 22 0)].all
      fun v => (after (step (smallBlock.withAction (.load v)))).map State.bufRead |>.isSome) = true ∧
    [.text [0, 1, 0], .text [2], .freq [⟨2, 3⟩], .freq [⟨1, 4⟩], .freq [⟨0, 0⟩, ⟨0, 0⟩, ⟨0, 0⟩], .code [⟨1, [true, true]⟩],
        .code [⟨2, []⟩], .bits (List.replicate 9 true), .bytes [0xff, 0xff], .blob (List.replicate 23 0)].map
      (fun v => (after (step (smallBlock.withAction (.load v)))).isSome) = List.replicate 10 false := by decide

/-- R151 and R187 in that block: three symbols decoded, two payload bytes; a text of two symbols goes through. -/
theorem test_small_capacities :
    ending (exec .decode { smallBlock with tree := some (.leaf 0 1 0), bits := some [true, true, true] }) = some (7#4, 0) ∧
    ending (exec .deserialize { smallBlock with blob := some [0x04, 0x00, 0x00, 0x00, 0x02, 0x00, 0x00, 0x01, 0x01, 0x00, 0x00,
        0x00] }) = some (7#4, 0) ∧
    (after (exec .compress { smallBlock with text := some [1, 0] })).map (fun t => (t.status, t.blob)) = some (0#4,
      some [0x04, 0x00, 0x00, 0x00, 0x01, 0x01, 0x00, 0x01, 0x01, 0x01, 0x00, 0x00, 0x02, 0x01, 0x00, 0x01, 0x00, 0x00, 0x00, 0x01,
        0x01, 0x06]) := by decide

/-- R85: directives encode to nothing. -/
theorem test_program_bytes :
    programBytes [.reset, .load (.text [97]), .issue 0x0A#8, .read .blob, .readReg .status, .issue 0x0B#8]
      = [0x0A#8, 0x0B#8] := by decide

/-! ### Witnesses: the hypotheses of each statement are met -/

/-- IllegalByteEndsInIllegalCommand: 0x00, and 0x0D where the two ranges of R83 meet the table. -/
theorem test_witness_illegal_byte :
    ((doing (.issue 0x00#8)).host = .issue 0x00#8 :: [] ∧ (0x00#8).toNat = 0) ∧
      ((doing (.issue 0x0D#8)).host = .issue 0x0D#8 :: [] ∧ 0x0D ≤ (0x0D#8).toNat) ∧
      ((doing (.issue 0xFF#8)).host = .issue 0xFF#8 :: [] ∧ 0x0D ≤ (0xFF#8).toNat) ∧ ¬ 0x0D ≤ (0x0C#8).toNat := by decide

/-- OperandTable: a source. -/
theorem test_witness_operand_table : BufId.pad ∈ sources .serialize := by decide

/-- StepRunsTheIssuedCommand, at both ends of the table. -/
theorem test_witness_step_runs :
    ((doing (.issue 0x01#8)).host = .issue 0x01#8 :: [] ∧ decode 0x01#8 = .ok .analyze) ∧
      ((doing (.issue 0x0C#8)).host = .issue 0x0C#8 :: [] ∧ decode 0x0C#8 = .ok .clear) := by decide

/-- StepIsIdleWithoutAction. -/
theorem test_witness_step_idle : State.reset.host = [] := rfl

/-- StepLoadsBuffer, the loads within the capacities, each at its largest value. -/
theorem test_witness_step_loads :
    (([0, 1] : List Symbol).length ≤ small.nMax ∧ ∀ x ∈ [0, 1], x < 2 ^ small.symW) ∧
    (([⟨1, 3⟩, ⟨0, 0⟩] : List FreqEntry).length ≤ small.kMax ∧
      ∀ e ∈ ([⟨1, 3⟩, ⟨0, 0⟩] : List FreqEntry), e.sym < 2 ^ small.symW ∧ e.cnt < 2 ^ small.cntW) ∧
    (([⟨1, [true]⟩, ⟨0, []⟩] : List CodeEntry).length ≤ small.codeMax ∧
      ∀ e ∈ ([⟨1, [true]⟩, ⟨0, []⟩] : List CodeEntry), e.sym < 2 ^ small.symW ∧ e.code.length ≤ small.codelenMax) ∧
    (List.replicate 8 true).length ≤ small.bitsMax ∧ [0xff#8].length ≤ small.bytesMax ∧
    (List.replicate 22 0#8).length ≤ small.blobMax ∧ smallBlock.config = small ∧
    ∀ v, (smallBlock.withAction (.load v)).host = .load v :: [] :=
  ⟨by decide, by decide, by decide, by decide, by decide, by decide, rfl, fun _ => rfl⟩

/-- StepLoadsBuffer, the loads just beyond the capacities. -/
theorem test_witness_step_loads_beyond :
    ¬ (([0, 1, 0] : List Symbol).length ≤ small.nMax ∧ ∀ x ∈ [0, 1, 0], x < 2 ^ small.symW) ∧
    ¬ (([2] : List Symbol).length ≤ small.nMax ∧ ∀ x ∈ [2], x < 2 ^ small.symW) ∧
    ¬ (([⟨1, 4⟩] : List FreqEntry).length ≤ small.kMax ∧
      ∀ e ∈ ([⟨1, 4⟩] : List FreqEntry), e.sym < 2 ^ small.symW ∧ e.cnt < 2 ^ small.cntW) ∧
    ¬ (([⟨1, [true, true]⟩] : List CodeEntry).length ≤ small.codeMax ∧
      ∀ e ∈ ([⟨1, [true, true]⟩] : List CodeEntry), e.sym < 2 ^ small.symW ∧ e.code.length ≤ small.codelenMax) ∧
    small.bitsMax < (List.replicate 9 true).length ∧ small.bytesMax < [0xff#8, 0xff#8].length ∧
    small.blobMax < (List.replicate 23 0#8).length := by decide

/-- StepReadsBuffer: an invalid buffer; each valid one, TREE laid out either way. -/
theorem test_witness_step_reads_buffer :
    ((doing (.read .blob)).host = .read .blob :: [] ∧ (doing (.read .blob)).isValid .blob = false) ∧
    (∀ b : BufId, (s2.withAction (.read b)).host = .read b :: []) ∧
    ((s2.withAction (.read .text)).text = some [97, 98] ∧ (s2.withAction (.read .freq)).freq = some [⟨97, 1⟩, ⟨98, 1⟩] ∧
      (s2.withAction (.read .tree)).tree = some t2 ∧ t2.indices.Perm (List.range t2.size) ∧
      t2r.indices.Perm (List.range t2r.size) ∧ (s2.withAction (.read .code)).code = some c2 ∧
      (s2.withAction (.read .bits)).bits = some [false, true] ∧ (s2.withAction (.read .bytes)).bytes = some [0x01] ∧
      (s2.withAction (.read .pad)).pad = some 6) ∧
    (({ s2 with blob := some tiny } : State).withAction (.read .blob)).blob = some tiny ∧
    (({ s2 with dtext := some [] } : State).withAction (.read .dtext)).dtext = some [] :=
  ⟨by decide, fun _ => rfl, by decide, rfl, rfl⟩

/-- StepReadsRegister: CMD and the others, a length register of an invalid and of a valid buffer. -/
theorem test_witness_step_reads_register :
    (doing (.readReg .cmd)).host = .readReg .cmd :: [] ∧ (doing (.readReg .bitsLen)).host = .readReg .bitsLen :: [] ∧
      RegId.bitsLen ≠ .cmd ∧ (doing (.readReg .bitsLen)).bits = none ∧
      (s2.withAction (.readReg .bitsLen)).bits = some [false, true] ∧ (s2.withAction (.readReg .root)).tree = some t2 ∧
      (s2.withAction (.readReg .pad)).pad = some 6 := by decide

/-- StepResetsTheBlock. -/
theorem test_witness_step_resets : (s2.withAction .reset).host = .reset :: [] := rfl

/-- BlockStopsOnlyOutsideItsInterface: a safe and an unsafe state. -/
theorem test_witness_safe : (doing (.issue 0x00#8)).safe = true ∧ (doing (.read .text)).safe = false := by decide

/-- StatusChangesOnlyByCommandOrReset: a step that changes STATUS, one that changes ERRINFO alone. -/
theorem test_witness_status_changes :
    (after (step (doing (.issue 0x0D#8)))).map (fun t => decide (t.status ≠ (doing (.issue 0x0D#8)).status)) = some true ∧
    (after (step ({ State.reset with status := 9#4 }.withAction (.issue 0x0D#8)))).map
      (fun t => (t.status, t.errinfo)) = some (9#4, 13) := by decide

/-- TextChangesOnlyByTheHost: by a load, by CLEAR, by a reset. -/
theorem test_witness_text_changes :
    (after (step (doing (.load (.text [97]))))).map State.text = some (some [97]) ∧
    (after (step (s2.withAction (.issue 0x0C#8)))).map State.text = some none ∧
    (after (step (s2.withAction .reset))).map State.text = some none := by decide

/-- CommandEndsInSuccessOrFailure: one command, a success and a failure of it. -/
theorem test_witness_command_ends : Instr.pack ≠ .compress ∧ Instr.pack ≠ .decompress ∧
    ending (exec .pack s2) = some (0#4, 0) ∧ ending (exec .pack State.reset) = some (8#4, 4) := by decide

/-- CommandFrame, CommandIsIdempotent: a next state, of a success and of a failure. -/
theorem test_witness_next : exec .pack s2 = .next s2.pack ∧ exec .clear s2 = .next s2.clear ∧
    exec .compress State.reset = .next (State.reset.compress Config.huffcore) := ⟨rfl, rfl, rfl⟩

/-- OperandNotReadyComesFirst: the second of two sources, the last of four, a composite command's. -/
theorem test_witness_not_ready :
    (BufId.code ∈ sources .encode ∧ (withText [97]).isValid .code = false ∧
      ∀ b' ∈ sources .encode, b'.id < BufId.code.id → (withText [97]).isValid b' = true) ∧
    (BufId.pad ∈ sources .serialize ∧ ({ s2 with pad := none } : State).isValid .pad = false ∧
      ∀ b' ∈ sources .serialize, b'.id < BufId.pad.id → ({ s2 with pad := none } : State).isValid b' = true) ∧
    (BufId.blob ∈ sources .decompress ∧ State.reset.isValid .blob = false ∧
      ∀ b' ∈ sources .decompress, b'.id < BufId.blob.id → State.reset.isValid b' = true) := by decide

/-- CommandReadsOnlyItsSources: two states that agree on PACK's source and on nothing else; two that agree on DESERIALIZE's and
differ in TREE_KIND; a COMPRESS that succeeds. -/
theorem test_witness_sources_agree :
    (∀ b ∈ sources .pack, sameBuffer s2 { State.reset with bits := some [false, true] } b) ∧
      s2.text ≠ ({ State.reset with bits := some [false, true] } : State).text ∧ s2.config = State.reset.config ∧
    (∀ b ∈ sources .deserialize, sameBuffer s2 { State.reset with treeKind := .recon } b) ∧
      BufId.tree ∈ destinations .deserialize ∧ BufId.tree ∈ destinations .compress ∧
      (after (exec .compress s2)).map State.status = some 0#4 :=
  ⟨fun b hb => by rw [List.mem_singleton.1 hb]; rfl, by decide, rfl, fun b hb => by rw [List.mem_singleton.1 hb]; rfl,
    by decide, by decide, by decide⟩

/-- TreeReadersIgnoreWeightsAndLayout: the two layouts of one tree. -/
theorem test_witness_shape : t2.shape = t2r.shape ∧ t2 ≠ t2r ∧ Instr.serialize ∈ [Instr.deriveCodes, .decode, .serialize] := by
  decide

/-- ANALYZE's statements: no text, an empty one, another. -/
theorem test_witness_analyze : State.reset.text = none ∧
    (withText [97, 97]).text = some [97, 97] ∧ [97, 97] ≠ ([] : List Symbol) ∧ ([97, 97] : List Symbol).length ≤ (withText [97, 97]).config.nMax ∧
      (∀ x ∈ [97, 97], x < 2 ^ (withText [97, 97]).config.symW) ∧ (withText []).text = some [] := by decide

/-- BUILD_TREE's statements: no table, one entry, zero counts, an empty table. -/
theorem test_witness_build_tree : State.reset.freq = none ∧
    ({ State.reset with freq := some [⟨97, 4⟩] } : State).freq = some [⟨97, 4⟩] ∧
      ({ State.reset with freq := some [⟨97, 0⟩, ⟨98, 0⟩] } : State).freq = some [⟨97, 0⟩, ⟨98, 0⟩] ∧
      ([⟨97, 0⟩, ⟨98, 0⟩] : List FreqEntry) ≠ [] ∧ ({ State.reset with freq := some [] } : State).freq = some [] := by decide

/-- RemoveMinTakesTheLeast: equal weights, told apart by the index. -/
theorem test_witness_remove_min :
    [Tree.leaf 1 98 1, .leaf 0 97 1] ≠ [] ∧ ([Tree.leaf 1 98 1, .leaf 0 97 1].map Tree.idx).Nodup ∧
      removeMin [Tree.leaf 1 98 1, .leaf 0 97 1] = some (.leaf 0 97 1, [.leaf 1 98 1]) := by decide

/-- DERIVE_CODES' statements: no tree, a node and a leaf. -/
theorem test_witness_derive_codes : State.reset.tree = none ∧
    s2.tree = some (.node 2 2 (.leaf 0 97 1) (.leaf 1 98 1)) ∧ ({ s2 with tree := some t1 } : State).tree = some (.leaf 0 97 4) ∧
      s2.tree ≠ none ∧ (after (exec .deriveCodes s2)).bind State.code = some c2 ∧ s2.bits = some [false, true] ∧
      [false, true].length ≤ s2.config.nMax := by decide

/-- EncodeConcatenatesCodes: TEXT invalid, CODE alone invalid; every symbol has an entry; the first without one stands first, and
stands behind one. -/
theorem test_witness_encode : State.reset.text = none ∧ ((withText [97]).text ≠ none ∧ (withText [97]).code = none) ∧
    (s2.text = some [97, 98] ∧ s2.code = some c2 ∧ ∀ a ∈ [97, 98], a ∈ c2.map CodeEntry.sym) ∧
      (({ s2 with text := some ([] ++ 99 :: [97]) } : State).text = some ([] ++ 99 :: [97]) ∧ 99 ∉ c2.map CodeEntry.sym) ∧
      (({ s2 with text := some ([97] ++ 99 :: [98]) } : State).text = some ([97] ++ 99 :: [98]) ∧
        ∀ b ∈ [97], b ∈ c2.map CodeEntry.sym) := by decide

/-- DecodeReadsPathAfterPath: TREE invalid, BITS alone invalid, a single leaf at N_MAX bits and one more, a node. -/
theorem test_witness_decode :
    State.reset.tree = none ∧ (({ State.reset with tree := some t1 } : State).tree ≠ none ∧
      ({ State.reset with tree := some t1 } : State).bits = none) ∧
    (∀ b, ({ smallBlock with tree := some t1, bits := b } : State).tree = some (.leaf 0 97 4) ∧
      ({ smallBlock with tree := some t1, bits := b } : State).bits = b) ∧
    [true, true].length ≤ smallBlock.config.nMax ∧ smallBlock.config.nMax < [true, true, true].length ∧
    (s2.tree = some t2 ∧ t2 = .node 2 2 (.leaf 0 97 1) (.leaf 1 98 1) ∧ s2.bits = some [false, true]) :=
  ⟨rfl, by decide, fun _ => ⟨rfl, rfl⟩, by decide, by decide, by decide⟩

/-- DecodeReportsCapacity: one symbol more than N_MAX. -/
theorem test_witness_decode_capacity :
    ∃ s : State, s.tree = some t1 ∧ (∀ a ∈ [97, 97, 97], a ∈ t1.leafSymbols) ∧
      s.bits = some ([97, 97, 97].flatMap fun a => (codeFor (codesOf t1) a).getD []) ∧
      s.config.nMax < [97, 97, 97].length :=
  ⟨{ smallBlock with tree := some t1, bits := some [false, false, false] }, by decide, by decide, by decide, by decide⟩

/-- DecodeReportsTruncatedStream: section 2.6, "0110111011" on T5. -/
theorem test_witness_decode_truncated :
    (∀ a ∈ [97, 98, 114, 97], a ∈ t5.leafSymbols) ∧ bin 2 0b11 ≠ [] ∧
      t5.follow (bin 2 0b11) = some (.node 6 4 (.leaf 1 98 2) (.leaf 2 114 2)) ∧
      bin 10 0b0110111011 = ([97, 98, 114, 97].flatMap fun a => (codeFor (codesOf t5) a).getD []) ++ bin 2 0b11 := by decide

/-- DecodeUndoesEncode: a tree of two leaves, a single leaf. -/
theorem test_witness_decode_encode :
    (s2.tree = some t2 ∧ s2.text = some [97, 98] ∧ (∀ a ∈ [97, 98], a ∈ t2.leafSymbols) ∧
      ([97, 98] : List Symbol).length ≤ s2.config.nMax) ∧ ∀ a ∈ [97, 97], a ∈ t1.leafSymbols := by decide

/-- PACK's statements: BITS invalid, no bit, one bit, eight bits. -/
theorem test_witness_pack : State.reset.bits = none ∧
    ({ s2 with bits := some [] } : State).bits = some [] ∧ ({ s2 with bits := some [true] } : State).bits = some [true] ∧
      (List.replicate 8 true).length % 8 = 0 ∧ [true].length = 1 := by decide

/-- UnpackExpandsAndDrops: BYTES invalid, PAD alone invalid; where the clauses meet, 7 and 8, and 0 and 1 of no bytes. -/
theorem test_witness_unpack : State.reset.bytes = none ∧
      (({ s2 with pad := none } : State).bytes ≠ none ∧ ({ s2 with pad := none } : State).pad = none) ∧
    (s2.bytes = some [0x01] ∧ s2.pad = some 6 ∧ (6#8).toNat ≤ 7 ∧ (6#8).toNat ≤ 8 * [0x01#8].length) ∧
      (7#8).toNat ≤ 7 ∧ 7 < (8#8).toNat ∧ (0#8).toNat ≤ 8 * ([] : List Byte).length ∧
      8 * ([] : List Byte).length < (1#8).toNat := by decide

/-- SERIALIZE's statements: a padding count of 7 and of 8. -/
theorem test_witness_serialize :
    (s2.tree = some t2 ∧ s2.code = some c2 ∧ s2.bytes = some [0x01] ∧ ({ s2 with pad := some 7 } : State).pad = some 7 ∧
      (7#8).toNat ≤ 7) ∧ ({ s2 with pad := some 8 } : State).pad = some 8 ∧ 7 < (8#8).toNat := by decide

/-- DeserializeUndoesSerialize. -/
theorem test_witness_serialize_wf : s2.wf ∧ (6#8).toNat ≤ 7 := by decide

/-- DeserializeRejectsProperPrefixes: a blob it accepts, its shortest and its longest proper prefix. -/
theorem test_witness_deserialize :
    ending (exec .deserialize { State.reset with blob := some (tiny ++ [0x00]) }) = some (0#4, 0) ∧
      0 < (tiny ++ [0x00]).length ∧ 9 < (tiny ++ [0x00]).length := by decide

/-- DeserializeNamesTheFirstViolation: the shortest blob there is. -/
theorem test_witness_blob (c : Config) : IsBlobOf c ⟨[], .leaf 0 0 0, [], 0⟩ (headForm [] ++ (Tree.leaf 0 0 0).wire c ++ [0, 0, 0]) :=
  ⟨⟨by decide, by simp [Tree.leafSymbols], by decide, by simp, by decide⟩, [], rfl, by simp [beN]⟩

/-- DeserializeNamesTheFirstViolation: each cause, and where its place lies; the last three causes of the tree's and the symbol's
kind in a block with SYM_W 1. -/
theorem test_witness_violations :
    Violation small [0x05] 0 ∧ Violation small [] 0 ∧ Violation small [0x04, 0x00, 0x00, 0x00, 0x00, 0x01] 6 ∧
    Violation small [0x04, 0x00, 0x00, 0x00, 0x00, 0x02] 5 ∧ Violation small [0x04, 0x00, 0x00, 0x00, 0x00, 0x01, 0x02] 6 ∧
    Violation small [0x04, 0x00, 0x00, 0x00, 0x00, 0x01, 0x00, 0x00, 0x00, 0x08] 9 ∧
    Violation small [0x04, 0x00, 0x00, 0x00, 0x00, 0x01, 0x00, 0x00, 0x00, 0x00, 0x00] 10 := by
  have ht : BeforeTag small (headForm []) := ⟨[], .leaf 0 0 0, [], [], by decide, by decide, rfl, rfl⟩
  have hs : BeforeSymbol small (headForm [] ++ [0x01]) := .inl ⟨_, ht, rfl⟩
  exact ⟨.arity 0x05 [] (by decide), .endsEarly _ [] _ (by decide) (test_witness_blob small), .endsInSymbol _ [] hs (by decide),
    .badTag _ 0x02 [] ht (by decide), .badSymbol _ [0x02] [] hs rfl (by decide),
    .badPadding _ (headForm [] ++ (Tree.leaf 0 0 0).wire small ++ [0, 0]) 0x08 [] (test_witness_blob small) (by decide),
    .trailing _ _ 0x00 [] (test_witness_blob small)⟩

/-- DeserializeChecksCapacities: the blob of section 2.10 whose code byte has seven front bits 1; in a small block, containers at the
capacities and beyond each; bytes that are no blob. -/
theorem test_witness_capacities :
    IsBlobOf Config.huffcore ⟨[0x00], t1, [⟨97, [true]⟩], 4⟩
      [0x04, 0x00, 0x00, 0x00, 0x01, 0x00, 0x01, 0x61, 0x00, 0x01, 0x61, 0x00, 0x01, 0xff, 0x04] ∧
    ([0x00#8].length ≤ small.bytesMax ∧ (Machine.Tree.node 0 0 t1 t1).size ≤ small.nodeMax ∧ (c2.length ≤ small.codeMax ∧
      ∀ e ∈ c2, e.code.length ≤ small.codelenMax)) ∧
    (small.bytesMax < [0x00#8, 0x00#8].length ∧ small.nodeMax < (Machine.Tree.node 0 0 t1 t2).size ∧
      small.codeMax < (⟨97, []⟩ :: c2).length ∧ small.codelenMax < [true, true].length) ∧
    ∀ k, ¬ IsBlobOf Config.huffcore k [] := by
  refine ⟨⟨⟨by decide, by decide, by decide, by decide, by decide⟩, _, ⟨[0xff], [], ⟨rfl, by decide⟩, rfl, rfl⟩, by decide⟩, by decide,
    by decide, ?_⟩
  rintro k ⟨-, es, -, h⟩
  simp [headForm] at h

/-- CompressSucceedsOnEveryText: no text, an empty one, another. -/
theorem test_witness_compress :
    State.reset.text = none ∧ (withText []).text = some [] ∧ (withText [97]).text = some [97] ∧ [97] ≠ ([] : List Symbol) := by
  decide

/-- The round trips' statements, on a text of one symbol and, in a small block, on a text of N_MAX symbols. -/
theorem test_witness_round_trip :
    ((withText [255]).config.legal = true ∧ (withText [255]).text = some [255] ∧ [255] ≠ ([] : List Symbol) ∧
      ([255] : List Symbol).length ≤ (withText [255]).config.nMax ∧ ∀ a ∈ [255], a < 2 ^ (withText [255]).config.symW) ∧
    (smallBlock.config.legal = true ∧ ({ smallBlock with text := some [0, 1] } : State).config = smallBlock.config ∧
      ([0, 1] : List Symbol).length ≤ smallBlock.config.nMax ∧ ∀ a ∈ [0, 1], a < 2 ^ smallBlock.config.symW) := by decide

/-- PayloadLengthIsWeightedPathLength: two distinct symbols. -/
theorem test_witness_payload : (frequencies [97, 98]).length = 2 := by decide

/-- DecompressFailureKinds: STATUS 5 is met. -/
theorem test_witness_decompress_padding :
    ending (exec .decompress { State.reset with blob := some (tiny ++ [0x01]) }) = some (5#4, 1) := by decide

/-- DecompressRejectsATruncatedBlob. -/
theorem test_witness_truncated_blob :
    s2.wf ∧ (after (exec .serialize s2)).map (fun t => (t.status, t.blob.isSome)) = some (0#4, true) := by decide

/-- StepKeepsWellFormed: a well-formed state with a step. -/
theorem test_witness_step_wf :
    (s2.withAction (.issue 0x06#8)).wf ∧ (after (step (s2.withAction (.issue 0x06#8)))).isSome = true := by decide

/-- ArenaReadsBackAsTheTree: each layout. -/
theorem test_witness_arena :
    (s2.wf ∧ s2.tree = some t2) ∧
      ({ s2 with tree := some t2r, treeKind := .recon } : State).wf := by decide

end Sys2Proof.Tests
end

/-! # Scope: what a step can do, the safe host, the sources of a command, the invariant of every step

The nine single commands are brought to one form, `State.finish`: a result computed from the source buffers alone, and what a success
writes.  The statements O13, O20, O58 and O59 are then settled from one rule per operation on the state. -/

namespace Sys2Proof.Machine

/-! ### Every command is a function of the state -/

/-- The state a command leaves. -/
def State.run (s : State) : Instr → State
  | .analyze => s.analyze
  | .buildTree => s.buildTree
  | .deriveCodes => s.deriveCodes
  | .encode => s.encode
  | .pack => s.pack
  | .serialize => s.serialize s.config
  | .deserialize => s.deserialize s.config
  | .unpack => s.unpack
  | .decode => s.decode s.config
  | .compress => s.compress s.config
  | .decompress => s.decompress s.config
  | .clear => s.clear

/-- No command stops the block (R14, R240). -/
theorem exec_eq_run (i : Instr) (s : State) : exec i s = .next (s.run i) := by cases i <;> rfl

/-- A source buffer's value, or OperandNotReady with its id (R249). -/
def ready {α : Type} (b : BufId) : Option α → Except Failure α
  | none => .error (.operandNotReady b)
  | some v => .ok v

@[simp] theorem ready_some_bind {α β : Type} (b : BufId) (v : α) (g : α → Except Failure β) :
    (ready b (some v) >>= g) = g v := rfl

/-- The end of a single command with the result `r`: R251's operation, or the destinations written by `w` and R252's. -/
def State.finish {α : Type} (s : State) (i : Instr) (w : α → State) : Except Failure α → State
  | .error f => s.fail i f
  | .ok v => (w v).succeed

/-! What each single command computes from its sources and writes to its destinations (R82). -/

theorem State.analyze_eq_finish (s : State) :
    s.analyze = s.finish .analyze (fun f => { s with freq := some f }) (ready .text s.text >>= analyzeText) := by
  unfold State.analyze
  cases s.text with
  | none => rfl
  | some t =>
    simp only [ready_some_bind]
    cases analyzeText t <;> rfl

theorem State.buildTree_eq_finish (s : State) :
    s.buildTree = s.finish .buildTree (fun t => { s with tree := some t, treeKind := .built })
      (ready .freq s.freq >>= buildTreeOf) := by
  unfold State.buildTree
  cases s.freq with
  | none => rfl
  | some f =>
    simp only [ready_some_bind]
    cases buildTreeOf f <;> rfl

theorem State.deriveCodes_eq_finish (s : State) :
    s.deriveCodes = s.finish .deriveCodes (fun t => { s with code := some (codesOf t) }) (ready .tree s.tree) := by
  unfold State.deriveCodes
  cases s.tree <;> rfl

theorem State.encode_eq_finish (s : State) :
    s.encode = s.finish .encode (fun b => { s with bits := some b })
      (ready .text s.text >>= fun x => ready .code s.code >>= fun table => encodeFrom table 0 x) := by
  unfold State.encode
  rcases s.text with _ | x
  · rfl
  rcases s.code with _ | table
  · rfl
  simp only [ready_some_bind]
  cases encodeFrom table 0 x <;> rfl

theorem State.pack_eq_finish (s : State) :
    s.pack = s.finish .pack
      (fun b => { s with bytes := some (packBits b), pad := some (BitVec.ofNat 8 (padCount b.length)) })
      (ready .bits s.bits) := by
  unfold State.pack
  cases s.bits <;> rfl

theorem State.serialize_eq_finish (c : Config) (s : State) :
    s.serialize c = s.finish .serialize (fun z => { s with blob := some z })
      (ready .tree s.tree >>= fun t => ready .code s.code >>= fun table => ready .bytes s.bytes >>= fun bs =>
        ready .pad s.pad >>= fun p => serializeContainer c ⟨bs, t, table, p⟩) := by
  unfold State.serialize
  rcases s.tree with _ | t
  · rfl
  rcases s.code with _ | table
  · rfl
  rcases s.bytes with _ | bs
  · rfl
  rcases s.pad with _ | p
  · rfl
  simp only [ready_some_bind]
  cases serializeContainer c ⟨bs, t, table, p⟩ <;> rfl

theorem State.deserialize_eq_finish (c : Config) (s : State) :
    s.deserialize c = s.finish .deserialize
      (fun k => { s with bytes := some k.bytes, tree := some k.tree, treeKind := .recon, code := some k.codes,
                         pad := some k.pad })
      (ready .blob s.blob >>= deserializeBlob c) := by
  unfold State.deserialize
  cases s.blob with
  | none => rfl
  | some z =>
    simp only [ready_some_bind]
    cases deserializeBlob c z <;> rfl

theorem State.unpack_eq_finish (s : State) :
    s.unpack = s.finish .unpack (fun b => { s with bits := some b })
      (ready .bytes s.bytes >>= fun bs => ready .pad s.pad >>= fun p => unpackBits bs p) := by
  unfold State.unpack
  rcases s.bytes with _ | bs
  · rfl
  rcases s.pad with _ | p
  · rfl
  simp only [ready_some_bind]
  cases unpackBits bs p <;> rfl

theorem State.decode_eq_finish (c : Config) (s : State) :
    s.decode c = s.finish .decode (fun x => { s with dtext := some x })
      (ready .tree s.tree >>= fun t => ready .bits s.bits >>= fun b => decodeText c t b) := by
  unfold State.decode
  rcases s.tree with _ | t
  · rfl
  rcases s.bits with _ | b
  · rfl
  simp only [ready_some_bind]
  cases decodeText c t b <;> rfl

/-! ### The form of a state, buffer by buffer -/

section
variable {s : State} (h : s.wf)
include h

theorem legal_of_wf : s.config.legal = true := h.1

theorem fitsText_of_wf {t : List Symbol} (ht : s.text = some t) : fitsText s.config t = true := by
  obtain ⟨-, hs, -⟩ := h
  simpa [ht] using hs

theorem fitsFreq_of_wf {f : List FreqEntry} (hf : s.freq = some f) : fitsFreq s.config f = true := by
  obtain ⟨-, -, hs, -⟩ := h
  simpa [hf] using hs

theorem fitsTree_of_wf {t : Tree} (ht : s.tree = some t) : fitsTree s.config t = true := by
  obtain ⟨-, -, -, hs, -⟩ := h
  simp only [ht, Option.all_some, Bool.and_eq_true] at hs
  exact hs.1

theorem fitsCode_of_wf {t : List CodeEntry} (ht : s.code = some t) : fitsCode s.config t = true := by
  obtain ⟨-, -, -, -, hs, -⟩ := h
  simpa [ht] using hs

theorem fitsBits_of_wf {b : Bits} (hb : s.bits = some b) : fitsBits s.config b = true := by
  obtain ⟨-, -, -, -, -, hs, -⟩ := h
  simpa [hb] using hs

theorem fitsBytes_of_wf {b : List Byte} (hb : s.bytes = some b) : fitsBytes s.config b = true := by
  obtain ⟨-, -, -, -, -, -, hs, -⟩ := h
  simpa [hb] using hs

theorem fitsBlob_of_wf {z : List Byte} (hz : s.blob = some z) : fitsBlob s.config z = true := by
  obtain ⟨-, -, -, -, -, -, -, hs, -⟩ := h
  simpa [hz] using hs

/-! A value of a buffer's type and capacity can be written to it. -/

theorem wf_write_text {t : List Symbol} (ht : fitsText s.config t = true) : ({ s with text := some t } : State).wf := by
  obtain ⟨hc, -, hs⟩ := h
  exact ⟨hc, ht, hs⟩

theorem wf_write_freq {f : List FreqEntry} (hf : fitsFreq s.config f = true) : ({ s with freq := some f } : State).wf := by
  obtain ⟨hc, htext, -, hs⟩ := h
  exact ⟨hc, htext, hf, hs⟩

theorem wf_write_tree {t : Tree} {k : TreeKind} (ht : fitsTree s.config t = true) (hk : laidOut k t = true) :
    ({ s with tree := some t, treeKind := k } : State).wf := by
  obtain ⟨hc, htext, hfreq, -, hs⟩ := h
  exact ⟨hc, htext, hfreq, by simp [ht, hk], hs⟩

theorem wf_write_code {t : List CodeEntry} (ht : fitsCode s.config t = true) : ({ s with code := some t } : State).wf := by
  obtain ⟨hc, htext, hfreq, htree, -, hs⟩ := h
  exact ⟨hc, htext, hfreq, htree, ht, hs⟩

theorem wf_write_bits {b : Bits} (hb : fitsBits s.config b = true) : ({ s with bits := some b } : State).wf := by
  obtain ⟨hc, htext, hfreq, htree, hcode, -, hs⟩ := h
  exact ⟨hc, htext, hfreq, htree, hcode, hb, hs⟩

theorem wf_write_bytes {b : List Byte} (hb : fitsBytes s.config b = true) : ({ s with bytes := some b } : State).wf := by
  obtain ⟨hc, htext, hfreq, htree, hcode, hbits, -, hs⟩ := h
  exact ⟨hc, htext, hfreq, htree, hcode, hbits, hb, hs⟩

/-- PAD holds any byte (R29). -/
theorem wf_write_pad (p : Byte) : ({ s with pad := some p } : State).wf := h

theorem wf_write_blob {z : List Byte} (hz : fitsBlob s.config z = true) : ({ s with blob := some z } : State).wf := by
  obtain ⟨hc, htext, hfreq, htree, hcode, hbits, hbytes, -, hs⟩ := h
  exact ⟨hc, htext, hfreq, htree, hcode, hbits, hbytes, hz, hs⟩

theorem wf_write_dtext {x : List Symbol} (hx : fitsText s.config x = true) : ({ s with dtext := some x } : State).wf := by
  obtain ⟨hc, htext, hfreq, htree, hcode, hbits, hbytes, hblob, -, hs⟩ := h
  exact ⟨hc, htext, hfreq, htree, hcode, hbits, hbytes, hblob, hx, hs⟩

/-- A buffer can lose its value (R25). -/
theorem wf_invalidate (b : BufId) : (s.invalidate b).wf := by
  obtain ⟨hc, htext, hfreq, htree, hcode, hbits, hbytes, hblob, hdtext, hstatus, hinfo⟩ := h
  cases b <;> simp [State.invalidate, State.wf, *]

theorem wf_invalidateAll (ds : List BufId) : (s.invalidateAll ds).wf := by
  induction ds generalizing s with
  | nil => exact h
  | cons b ds ih => exact ih (wf_invalidate h b)

end

/-- A block with legal parameters is well formed after reset (R45, R6). -/
theorem wf_resetWith {c : Config} (hc : c.legal = true) : (State.resetWith c).wf :=
  ⟨hc, rfl, rfl, rfl, rfl, rfl, rfl, rfl, rfl, Nat.zero_le 9, lt_infoBound (.inr (.inl (Nat.zero_lt_succ 255)))⟩

/-! ### Every result is a value in its capacity or a failure whose info value is within ERRINFO's bound -/

/-- The result is a value with the property `P`, or a failure that ERRINFO has room for. -/
def Sound {α : Type} (c : Config) (P : α → Prop) : Except Failure α → Prop
  | .error f => f.info < c.infoBound
  | .ok v => P v

theorem operandNotReady_info_lt (c : Config) (b : BufId) : (Failure.operandNotReady b).info < c.infoBound :=
  lt_infoBound (.inr (.inl (by cases b <;> decide)))

theorem byte_lt_infoBound (c : Config) (b : Byte) : b.toNat < c.infoBound := lt_infoBound (.inr (.inl b.isLt))

section
variable {α β : Type} {c : Config} {P : β → Prop}

theorem sound_ready {b : BufId} {o : Option β} (h : ∀ v, o = some v → P v) : Sound c P (ready b o) := by
  cases o with
  | none => exact operandNotReady_info_lt c b
  | some v => exact h v rfl

theorem sound_ready_bind {b : BufId} {o : Option α} {g : α → Except Failure β} (h : ∀ v, o = some v → Sound c P (g v)) :
    Sound c P (ready b o >>= g) := by
  cases o with
  | none => exact operandNotReady_info_lt c b
  | some v => exact h v rfl

/-- A command keeps the form of the state when its result is sound and its destinations can be written. -/
theorem wf_finish {s : State} (h : s.wf) (i : Instr) {w : β → State} {r : Except Failure β} (hr : Sound s.config P r)
    (hw : ∀ v, P v → (w v).wf) : (s.finish i w r).wf := by
  cases r with
  | error f => exact State.wf_failWith h _ f hr
  | ok v => exact State.wf_succeed (hw v hr)

end

section
variable {c : Config} (hc : c.legal = true)
include hc

theorem sound_analyzeText {t : List Symbol} (ht : fitsText c t = true) :
    Sound c (fun f => fitsFreq c f = true) (analyzeText t) := by
  rcases analyzeText_spec t with ⟨-, e⟩ | ⟨-, e⟩ <;> rw [e]
  · exact lt_infoBound (.inr (.inl (by decide)))
  · exact fitsFreq_frequencies hc ht

/-- An index of TEXT is below N_MAX (R244). -/
theorem sound_encodeFrom {x : List Symbol} {table : List CodeEntry} (hx : fitsText c x = true)
    (ht : fitsCode c table = true) : Sound c (fun b => fitsBits c b = true) (encodeFrom table 0 x) := by
  rcases encodeFrom_spec table x with ⟨-, e⟩ | ⟨y, a, z, rfl, -, -, e⟩ <;> rw [e]
  · exact fitsBits_encode hx ht
  · obtain ⟨hn, -⟩ := fitsText_iff.1 hx
    obtain ⟨-, -, -, -, -, -, -, -, -, hinfo⟩ := legal_iff.1 hc
    rw [List.length_append] at hn
    exact lt_infoBound (.inl (by simp only [Failure.info]; omega))

/-- An offset in BLOB is at most BLOB_MAX (R247). -/
theorem sound_deserializeBlob {z : List Byte} (hz : fitsBlob c z = true) :
    Sound c (fun k => fitsBytes c k.bytes = true ∧ fitsTree c k.tree = true ∧ laidOut .recon k.tree = true ∧
      fitsCode c k.codes = true) (deserializeBlob c z) := by
  rcases deserializeBlob_spec c z with ⟨k, e, -⟩ | ⟨-, e, -⟩ | ⟨off, e, -, hoff⟩
  · rw [e]; exact fits_of_deserializeBlob e
  · rw [e]; exact lt_infoBound (.inr (.inl (by decide)))
  · rw [e]
    rw [fitsBlob_iff] at hz
    obtain ⟨-, -, -, -, -, -, -, -, hinfo, -⟩ := legal_iff.1 hc
    exact lt_infoBound (.inl (by simp only [Failure.info]; omega))

end

section
variable {c : Config}

theorem sound_buildTreeOf {f : List FreqEntry} (hf : fitsFreq c f = true) :
    Sound c (fun t => fitsTree c t = true ∧ laidOut .built t = true) (buildTreeOf f) := by
  rcases buildTreeOf_spec f with ⟨-, e⟩ | ⟨-, t, e, -⟩ <;> rw [e]
  · exact lt_infoBound (.inr (.inl (by decide)))
  · exact fitsTree_buildTreeOf hf e

theorem sound_serializeContainer {k : Container} (hb : fitsBytes c k.bytes = true) (ht : fitsTree c k.tree = true)
    (hk : fitsCode c k.codes = true) : Sound c (fun z => fitsBlob c z = true) (serializeContainer c k) := by
  unfold serializeContainer
  split
  · exact byte_lt_infoBound c k.pad
  · exact fitsBlob_wire hb ht hk

theorem sound_unpackBits {bs : List Byte} (hb : fitsBytes c bs = true) (p : Byte) :
    Sound c (fun b => fitsBits c b = true) (unpackBits bs p) := by
  rcases unpackBits_spec bs p with ⟨-, -, e⟩ | ⟨-, e⟩ <;> rw [e]
  · exact fitsBits_unpack hb p.toNat
  · exact byte_lt_infoBound c p

/-- A walk decodes at most one symbol a bit (R245). -/
theorem sound_decodeText {t : Tree} {b : Bits} (ht : fitsTree c t = true) (hb : fitsBits c b = true) :
    Sound c (fun x => fitsText c x = true) (decodeText c t b) := by
  rw [fitsBits_iff] at hb
  obtain ⟨y, -, hlen, ⟨-, -, e⟩ | ⟨-, -, e⟩ | ⟨-, e⟩⟩ := decodeText_spec c t b <;> rw [e]
  · exact fitsText_decodeText ht e
  · exact lt_infoBound (.inr (.inl (by decide)))
  · exact lt_infoBound (.inr (.inr (hlen.trans hb)))

end

/-! ### The commands keep the form of the state -/

section
variable {s : State} (h : s.wf)
include h

theorem wf_analyze : s.analyze.wf := by
  rw [s.analyze_eq_finish]
  exact wf_finish h _ (sound_ready_bind fun t ht => sound_analyzeText (legal_of_wf h) (fitsText_of_wf h ht))
    fun f hf => wf_write_freq h hf

theorem wf_buildTree : s.buildTree.wf := by
  rw [s.buildTree_eq_finish]
  exact wf_finish h _ (sound_ready_bind fun f hf => sound_buildTreeOf (fitsFreq_of_wf h hf))
    fun t ⟨ht, hk⟩ => wf_write_tree h ht hk

theorem wf_deriveCodes : s.deriveCodes.wf := by
  rw [s.deriveCodes_eq_finish]
  exact wf_finish h _ (sound_ready fun t ht => fitsTree_of_wf h ht)
    fun t ht => wf_write_code h (fitsCode_codesOf (legal_of_wf h) ht)

theorem wf_encode : s.encode.wf := by
  rw [s.encode_eq_finish]
  exact wf_finish h _ (sound_ready_bind fun x hx => sound_ready_bind fun table ht =>
      sound_encodeFrom (legal_of_wf h) (fitsText_of_wf h hx) (fitsCode_of_wf h ht))
    fun b hb => wf_write_bits h hb

theorem wf_pack : s.pack.wf := by
  rw [s.pack_eq_finish]
  exact wf_finish h _ (sound_ready fun b hb => fitsBits_of_wf h hb)
    fun b hb => wf_write_pad (wf_write_bytes h (fitsBytes_packBits hb)) _

theorem wf_serialize : (s.serialize s.config).wf := by
  rw [s.serialize_eq_finish]
  exact wf_finish h _ (sound_ready_bind fun t ht => sound_ready_bind fun table hk => sound_ready_bind fun bs hb =>
      sound_ready_bind fun p _ => sound_serializeContainer (fitsBytes_of_wf h hb) (fitsTree_of_wf h ht) (fitsCode_of_wf h hk))
    fun z hz => wf_write_blob h hz

theorem wf_deserialize : (s.deserialize s.config).wf := by
  rw [s.deserialize_eq_finish]
  exact wf_finish h _ (sound_ready_bind fun z hz => sound_deserializeBlob (legal_of_wf h) (fitsBlob_of_wf h hz))
    fun k ⟨hb, ht, hl, hk⟩ => wf_write_pad (wf_write_code (wf_write_tree (wf_write_bytes h hb) ht hl) hk) _

theorem wf_unpack : s.unpack.wf := by
  rw [s.unpack_eq_finish]
  exact wf_finish h _ (sound_ready_bind fun bs hb => sound_ready_bind fun p _ => sound_unpackBits (fitsBytes_of_wf h hb) p)
    fun b hb => wf_write_bits h hb

theorem wf_decode : (s.decode s.config).wf := by
  rw [s.decode_eq_finish]
  exact wf_finish h _ (sound_ready_bind fun t ht => sound_ready_bind fun b hb =>
      sound_decodeText (fitsTree_of_wf h ht) (fitsBits_of_wf h hb))
    fun x hx => wf_write_dtext h hx

end

/-- What every step of a composite command keeps, the composite command keeps (R201, R204). -/
theorem runSteps_keeps (P : State → Prop) (xs : List (State → State)) (hx : ∀ x ∈ xs, ∀ s, P s → P (x s)) {s : State}
    (h : P s) : P (runSteps xs s) := by
  induction xs generalizing s with
  | nil => exact h
  | cons x xs ih =>
    have hs : P (x s) := hx x (by simp) s h
    rw [runSteps]
    split
    · exact ih (fun y hy => hx y (by simp [hy])) hs
    · exact hs

/-- Well formed in a block with the parameters `c`. -/
def WfWith (c : Config) (s : State) : Prop := s.wf ∧ s.config = c

theorem wf_compress {s : State} (h : s.wf) : (s.compress s.config).wf := by
  have hs : WfWith s.config (s.invalidateAll (destinations .compress)) := ⟨wf_invalidateAll h _, s.invalidateAll_config _⟩
  refine (runSteps_keeps (WfWith s.config) _ ?_ hs).1
  generalize s.config = c
  simp only [List.forall_mem_cons, List.not_mem_nil, false_implies, implies_true, and_true]
  refine ⟨?_, ?_, ?_, ?_, ?_, ?_⟩ <;> rintro u ⟨hu, rfl⟩
  · exact ⟨wf_analyze hu, u.analyze_ends.config_eq⟩
  · exact ⟨wf_buildTree hu, u.buildTree_ends.config_eq⟩
  · exact ⟨wf_deriveCodes hu, u.deriveCodes_ends.config_eq⟩
  · exact ⟨wf_encode hu, u.encode_ends.config_eq⟩
  · exact ⟨wf_pack hu, u.pack_ends.config_eq⟩
  · exact ⟨wf_serialize hu, (u.serialize_ends _).config_eq⟩

theorem wf_decompress {s : State} (h : s.wf) : (s.decompress s.config).wf := by
  have hs : WfWith s.config (s.invalidateAll (destinations .decompress)) := ⟨wf_invalidateAll h _, s.invalidateAll_config _⟩
  refine (runSteps_keeps (WfWith s.config) _ ?_ hs).1
  generalize s.config = c
  simp only [List.forall_mem_cons, List.not_mem_nil, false_implies, implies_true, and_true]
  refine ⟨?_, ?_, ?_⟩ <;> rintro u ⟨hu, rfl⟩
  · exact ⟨wf_deserialize hu, (u.deserialize_ends _).config_eq⟩
  · exact ⟨wf_unpack hu, u.unpack_ends.config_eq⟩
  · exact ⟨wf_decode hu, (u.decode_ends _).config_eq⟩

/-- A reset keeps the parameters, and so their legality (R270, log 5). -/
theorem wf_resetBlock {s : State} (h : s.wf) : s.resetBlock.wf := wf_resetWith (c := s.config) (legal_of_wf h)

theorem wf_run {s : State} (h : s.wf) (i : Instr) : (s.run i).wf := by
  cases i
  case analyze => exact wf_analyze h
  case buildTree => exact wf_buildTree h
  case deriveCodes => exact wf_deriveCodes h
  case encode => exact wf_encode h
  case pack => exact wf_pack h
  case serialize => exact wf_serialize h
  case deserialize => exact wf_deserialize h
  case unpack => exact wf_unpack h
  case decode => exact wf_decode h
  case compress => exact wf_compress h
  case decompress => exact wf_decompress h
  case clear => rw [State.run, s.clear_eq]; exact wf_resetBlock h

theorem run_config (s : State) (i : Instr) : (s.run i).config = s.config := by
  cases i
  case analyze => exact s.analyze_ends.config_eq
  case buildTree => exact s.buildTree_ends.config_eq
  case deriveCodes => exact s.deriveCodes_ends.config_eq
  case encode => exact s.encode_ends.config_eq
  case pack => exact s.pack_ends.config_eq
  case serialize => exact (s.serialize_ends _).config_eq
  case deserialize => exact (s.deserialize_ends _).config_eq
  case unpack => exact s.unpack_ends.config_eq
  case decode => exact (s.decode_ends _).config_eq
  case compress => exact s.compress_config _
  case decompress => exact s.decompress_config _
  case clear => exact s.resetBlock_config

/-! ### The host's actions -/

/-- The state a host action leaves, where the host has the action (R213).  The loads of TREE and DTEXT are never available (R43), and
nothing is said of them. -/
def State.perform (s : State) : HostAction → State
  | .load (.text t) => { s with text := some t }
  | .load (.freq f) => { s with freq := some f }
  | .load (.tree _ _ _) => s
  | .load (.code t) => { s with code := some t }
  | .load (.bits b) => { s with bits := some b }
  | .load (.bytes b) => { s with bytes := some b }
  | .load (.pad p) => { s with pad := some p }
  | .load (.blob z) => { s with blob := some z }
  | .load (.dtext _) => s
  | .read b => { s with reply := (s.bufRead b).map .buffer }
  | .readReg r => { s with reply := (s.regRead r).map (.register r) }
  | .issue b =>
    match Sys2Proof.decode b with
    | .ok i => s.run i
    | .error (.illegalCommand b') => s.illegal b'
  | .reset => s.resetBlock

/-- A host read finds a value exactly in a valid buffer (R211). -/
theorem isSome_bufRead (s : State) (b : BufId) : (s.bufRead b).isSome = s.isValid b := by
  cases b <;> simp [State.bufRead, State.isValid]

/-- Every register but CMD has a read value (R27, R212). -/
theorem isSome_regRead (s : State) (r : RegId) : (s.regRead r).isSome = decide (r ≠ .cmd) := by
  cases r <;> simp [State.regRead]

/-- An action the host has is performed (R210 to R213, R270). -/
theorem step_of_available {s : State} {a : HostAction} {rest : List HostAction} (hs : s.host = a :: rest)
    (ha : a.available s = true) : step s = .next (({ s with host := rest } : State).perform a) := by
  cases a with
  | load v => cases v <;> simp_all [step, hostLoad, HostAction.available, State.perform]
  | read b =>
    obtain ⟨v, hv⟩ := Option.isSome_iff_exists.1 ((isSome_bufRead { s with host := rest } b).trans ha)
    simp [step, hs, hostRead, State.perform, hv]
  | readReg r =>
    obtain ⟨n, hn⟩ := Option.isSome_iff_exists.1 ((isSome_regRead { s with host := rest } r).trans ha)
    simp [step, hs, hostReadReg, State.perform, hn]
  | issue b =>
    simp only [step, hs, State.perform]
    rcases Sys2Proof.decode b with ⟨⟨b'⟩⟩ | i
    · rfl
    · exact exec_eq_run i _
  | reset => simp [step, hs, hostReset, State.perform]

/-- An action the host does not have gets no transition (R210, R211, R27). -/
theorem step_of_not_available {s : State} {a : HostAction} {rest : List HostAction} (hs : s.host = a :: rest)
    (ha : a.available s = false) : ∃ r, step s = .refused r := by
  cases a with
  | load v => cases v <;> simp_all [step, hostLoad, HostAction.available]
  | read b =>
    have hv : State.bufRead { s with host := rest } b = none :=
      Option.isNone_iff_eq_none.1 (by rw [← Option.not_isSome, isSome_bufRead]; exact congrArg not ha)
    exact ⟨.readInvalid b, by simp [step, hs, hostRead, hv]⟩
  | readReg r =>
    obtain rfl : r = .cmd := by simpa [HostAction.available] using ha
    exact ⟨.readCmd, by simp [step, hs, hostReadReg, State.regRead]⟩
  | issue b => cases ha
  | reset => cases ha

/-- Every step there is: idling, or an action the host has. -/
theorem step_eq_next_iff (s t : State) : step s = .next t ↔
    (s.host = [] ∧ t = s) ∨
      ∃ a rest, s.host = a :: rest ∧ a.available s = true ∧ t = ({ s with host := rest } : State).perform a := by
  cases hs : s.host with
  | nil => simp [step, hs, hostIdle, eq_comm (a := t)]
  | cons a rest =>
    cases ha : a.available s with
    | true => simp [step_of_available hs ha, ha, eq_comm (a := t)]
    | false =>
      obtain ⟨r, hr⟩ := step_of_not_available hs ha
      simp [hr, ha]

theorem wf_illegal {s : State} (h : s.wf) (b : Byte) : (s.illegal b).wf :=
  State.wf_failWith h [] _ (byte_lt_infoBound s.config b)

theorem wf_perform {s : State} (h : s.wf) {a : HostAction} (ha : a.available s = true) : (s.perform a).wf := by
  cases a with
  | load v =>
    cases v with
    | text t => exact wf_write_text h ha
    | freq f => exact wf_write_freq h ha
    | tree a r k => cases ha
    | code t => exact wf_write_code h ha
    | bits b => exact wf_write_bits h ha
    | bytes b => exact wf_write_bytes h ha
    | pad p => exact wf_write_pad h p
    | blob z => exact wf_write_blob h ha
    | dtext x => cases ha
  | read b => exact h
  | readReg r => exact h
  | issue b =>
    rw [State.perform]
    rcases Sys2Proof.decode b with ⟨⟨b'⟩⟩ | i
    · exact wf_illegal h b'
    · exact wf_run h i
  | reset => exact wf_resetBlock h

theorem perform_config (s : State) (a : HostAction) : (s.perform a).config = s.config := by
  cases a with
  | load v => cases v <;> rfl
  | read b => rfl
  | readReg r => rfl
  | issue b =>
    rw [State.perform]
    rcases Sys2Proof.decode b with ⟨⟨b'⟩⟩ | i
    · exact State.failWith_config _ _ _
    · exact run_config s i
  | reset => rfl

/-- Settles O58: an idle step changes nothing, and each action the host has keeps the form of the state. -/
theorem stepKeepsWellFormed : Obligations.StepKeepsWellFormed := by
  intro s t h hst
  rcases (step_eq_next_iff s t).1 hst with ⟨-, rfl⟩ | ⟨a, rest, -, ha, rfl⟩
  · exact ⟨h, rfl⟩
  · have h' : ({ s with host := rest } : State).wf := h
    have ha' : a.available { s with host := rest } = true := ha
    exact ⟨wf_perform h' ha', perform_config _ a⟩

/-- Settles O13: a step is idle or an action the host has, and these are the safe states. -/
theorem blockStopsOnlyOutsideItsInterface : Obligations.BlockStopsOnlyOutsideItsInterface := by
  intro s
  simp only [step_eq_next_iff, State.safe]
  cases s.host with
  | nil => simp
  | cons a rest => simp

/-! ### What a command writes depends on its sources alone -/

/-- The results `t`, `t'` of a command in two states agree: destinations, STATUS, ERRINFO, and TREE_KIND if TREE is a destination and
the command is no failed COMPRESS (log 7). -/
structure SameResult (i : Instr) (t t' : State) : Prop where
  buffers : ∀ b ∈ destinations i, sameBuffer t t' b
  status : t.status = t'.status
  errinfo : t.errinfo = t'.errinfo
  treeKind : BufId.tree ∈ destinations i → (i = .compress → t.status = 0#4) → t.treeKind = t'.treeKind

/-- A buffer made invalid in both states is the same in both. -/
theorem sameBuffer_invalidateAll (s s' : State) {ds : List BufId} {b : BufId} (hb : b ∈ ds) :
    sameBuffer (s.invalidateAll ds) (s'.invalidateAll ds) b := by
  cases b <;> simp [sameBuffer, State.invalidateAll_text, State.invalidateAll_freq, State.invalidateAll_tree,
    State.invalidateAll_code, State.invalidateAll_bits, State.invalidateAll_bytes, State.invalidateAll_pad,
    State.invalidateAll_blob, State.invalidateAll_dtext, hb]

/-- Two states agree in a buffer whatever their registers are. -/
theorem sameBuffer_registers {s s' : State} {b : BufId} (h : sameBuffer s s' b) (k k' : TreeKind) (c c' : BitVec 4) (n n' : Nat) :
    sameBuffer { s with treeKind := k, status := c, errinfo := n } { s' with treeKind := k', status := c', errinfo := n' } b := by
  cases b <;> exact h

/-- One result, written to two states, agrees in them if what is written agrees. -/
theorem sameResult_finish {α : Type} {s s' : State} {i : Instr} {w w' : α → State} (r : Except Failure α)
    (hw : ∀ v, (∀ b ∈ destinations i, sameBuffer (w v) (w' v) b) ∧
      (BufId.tree ∈ destinations i → (w v).treeKind = (w' v).treeKind)) :
    SameResult i (s.finish i w r) (s'.finish i w' r) := by
  cases r with
  | error f =>
    exact ⟨fun b hb => sameBuffer_registers (sameBuffer_invalidateAll s s' hb) _ _ _ _ _ _, rfl, rfl,
      fun hb _ => by simp [State.finish, State.fail, hb]⟩
  | ok v =>
    obtain ⟨hbuf, hkind⟩ := hw v
    exact ⟨fun b hb => sameBuffer_registers (hbuf b hb) _ _ _ _ _ _, rfl, rfl, fun hb _ => hkind hb⟩

/-- COMPRESS ends as TEXT says: it fails without a symbol to count and succeeds with one (R202). -/
theorem sameResult_compress {s s' : State} (c : Config) (h : s.text = s'.text) :
    SameResult .compress (s.compress c) (s'.compress c) := by
  have failed (f : Failure) (he : ∀ u : State, u.text = s.text →
      u.compress c = { u.invalidateAll (destinations .compress) with status := f.code, errinfo := f.info }) :
      SameResult .compress (s.compress c) (s'.compress c) := by
    rw [he s rfl, he s' h.symm]
    exact ⟨fun b hb => sameBuffer_registers (sameBuffer_invalidateAll s s' hb) _ _ _ _ _ _, rfl, rfl,
      fun _ h0 => absurd (h0 rfl) f.code_ne_zero⟩
  match hs : s.text with
  | none => exact failed _ fun u hu => State.compress_error c (.inl ⟨hu.trans hs, rfl⟩)
  | some [] => exact failed _ fun u hu => State.compress_error c (.inr ⟨hu.trans hs, rfl⟩)
  | some (a :: x) =>
    obtain ⟨t, ht, e⟩ := State.compress_ok c hs (List.cons_ne_nil a x)
    obtain ⟨t', ht', e'⟩ := State.compress_ok c (h.symm.trans hs) (List.cons_ne_nil a x)
    obtain rfl : t = t' := Except.ok.inj (ht.symm.trans ht')
    rw [e, e']
    exact ⟨by simp [destinations, sameBuffer, compressed], rfl, rfl, fun _ _ => rfl⟩

/-- DECOMPRESS ends as BLOB says, with the first failure of its three commands (R204). -/
theorem sameResult_decompress {s s' : State} (c : Config) (h : s.blob = s'.blob) :
    SameResult .decompress (s.decompress c) (s'.decompress c) := by
  cases hs : s.blob with
  | none =>
    rw [State.decompress_blob_none c hs, State.decompress_blob_none c (h.symm.trans hs)]
    exact ⟨fun b hb => sameBuffer_registers (sameBuffer_invalidateAll s s' hb) _ _ _ _ _ _, rfl, rfl, fun _ _ => rfl⟩
  | some z =>
    have hs' : s'.blob = some z := h.symm.trans hs
    cases hk : deserializeBlob c z with
    | error f =>
      rw [State.decompress_deserialize_error c hs hk, State.decompress_deserialize_error c hs' hk]
      exact ⟨fun b hb => sameBuffer_registers (sameBuffer_invalidateAll s s' hb) _ _ _ _ _ _, rfl, rfl, fun _ _ => rfl⟩
    | ok k =>
      cases hu : unpackBits k.bytes k.pad with
      | error f =>
        rw [State.decompress_unpack_error c hs hk hu, State.decompress_unpack_error c hs' hk hu]
        exact ⟨by simp [destinations, sameBuffer, unwrapped], rfl, rfl, fun _ _ => rfl⟩
      | ok b =>
        cases hd : decodeText c k.tree b with
        | error f =>
          rw [State.decompress_decode_error c hs hk hu hd, State.decompress_decode_error c hs' hk hu hd]
          exact ⟨by simp [destinations, sameBuffer, unwrapped], rfl, rfl, fun _ _ => rfl⟩
        | ok x =>
          rw [State.decompress_ok c hs hk hu hd, State.decompress_ok c hs' hk hu hd]
          exact ⟨by simp [destinations, sameBuffer, unwrapped], rfl, rfl, fun _ _ => rfl⟩

/-- Each command's result is computed from its sources, and each destination is written from the result alone. -/
theorem sameResult_run {s s' : State} (i : Instr) (hc : s.config = s'.config) (h : ∀ b ∈ sources i, sameBuffer s s' b) :
    SameResult i (s.run i) (s'.run i) := by
  cases i <;>
    simp only [sources, List.forall_mem_cons, List.not_mem_nil, false_implies, implies_true, and_true, sameBuffer] at h <;>
    simp only [State.run]
  case analyze =>
    rw [s.analyze_eq_finish, s'.analyze_eq_finish, h]
    exact sameResult_finish _ fun f => by simp [destinations, sameBuffer]
  case buildTree =>
    rw [s.buildTree_eq_finish, s'.buildTree_eq_finish, h]
    exact sameResult_finish _ fun t => by simp [destinations, sameBuffer]
  case deriveCodes =>
    rw [s.deriveCodes_eq_finish, s'.deriveCodes_eq_finish, h]
    exact sameResult_finish _ fun t => by simp [destinations, sameBuffer]
  case encode =>
    obtain ⟨htext, hcode⟩ := h
    rw [s.encode_eq_finish, s'.encode_eq_finish, htext, hcode]
    exact sameResult_finish _ fun b => by simp [destinations, sameBuffer]
  case pack =>
    rw [s.pack_eq_finish, s'.pack_eq_finish, h]
    exact sameResult_finish _ fun b => by simp [destinations, sameBuffer]
  case serialize =>
    obtain ⟨htree, hcode, hbytes, hpad⟩ := h
    rw [s.serialize_eq_finish, s'.serialize_eq_finish, hc, htree, hcode, hbytes, hpad]
    exact sameResult_finish _ fun z => by simp [destinations, sameBuffer]
  case deserialize =>
    rw [s.deserialize_eq_finish, s'.deserialize_eq_finish, hc, h]
    exact sameResult_finish _ fun k => by simp [destinations, sameBuffer]
  case unpack =>
    obtain ⟨hbytes, hpad⟩ := h
    rw [s.unpack_eq_finish, s'.unpack_eq_finish, hbytes, hpad]
    exact sameResult_finish _ fun b => by simp [destinations, sameBuffer]
  case decode =>
    obtain ⟨htree, hbits⟩ := h
    rw [s.decode_eq_finish, s'.decode_eq_finish, hc, htree, hbits]
    exact sameResult_finish _ fun x => by simp [destinations, sameBuffer]
  case compress => exact hc ▸ sameResult_compress _ h
  case decompress => exact hc ▸ sameResult_decompress _ h
  case clear =>
    rw [s.clear_eq, s'.clear_eq]
    exact ⟨by simp [destinations, BufId.all, sameBuffer], rfl, rfl, fun _ _ => rfl⟩

/-- Settles O20: the command is run on both states, and its two results agree. -/
theorem commandReadsOnlyItsSources : Obligations.CommandReadsOnlyItsSources := by
  intro i s s' t t' hc h ht ht'
  rw [exec_eq_run, Host.Outcome.next.injEq] at ht ht'
  obtain ⟨hbuf, hstatus, hinfo, hkind⟩ := sameResult_run i hc h
  subst ht ht'
  exact ⟨hbuf, hstatus, hinfo, hkind⟩

/-! ### The configuration record -/

/-- Settles O59: the table of R6 is the derived parameters' definitions, and a block with legal parameters is well formed after
reset. -/
theorem resetIsWellFormed : Obligations.ResetIsWellFormed := by
  refine ⟨fun c => ⟨rfl, rfl, rfl, rfl, rfl, rfl, rfl, rfl, rfl, legal_iff, fun hc => ⟨wf_resetWith hc, rfl⟩⟩, ?_, rfl⟩
  decide

end Sys2Proof.Machine

/-! # Registers and buffers: what reset, a host action and the readers of TREE do to them

The statements O11, O12, O14, O15, O21 and O60 (spec/10_state.md). -/

namespace Sys2Proof.Machine

/-! ### TREE and its arena -/

/-- A valid TREE is laid out as its writer does it (R34 to R36). -/
theorem laidOut_of_wf {s : State} (h : s.wf) {t : Tree} (ht : s.tree = some t) : laidOut s.treeKind t = true := by
  obtain ⟨-, -, -, hs, -⟩ := h
  simp only [ht, Option.all_some, Bool.and_eq_true] at hs
  exact hs.2

/-- Either writer uses every index 0 to NODE_CNT − 1 once (R34). -/
theorem indices_perm_of_laidOut {k : TreeKind} {t : Tree} (h : laidOut k t = true) :
    t.indices.Perm (List.range t.size) := by
  simp only [laidOut, Bool.and_eq_true] at h
  exact List.isPerm_iff.1 h.1

/-- A tree with n leaves has 2n − 1 nodes (R35). -/
theorem Tree.size_odd (t : Tree) : t.size % 2 = 1 := by
  have := leafSymbols_length t
  omega

/-- Settles O60: the arena of a tree laid out by its writer holds each record at its index, and reads back from ROOT. -/
theorem arenaReadsBackAsTheTree : Obligations.ArenaReadsBackAsTheTree := by
  intro s t h ht
  obtain ⟨hlen, hrec⟩ := t.arena_spec (indices_perm_of_laidOut (laidOut_of_wf h ht))
  obtain ⟨hsize, -⟩ := fitsTree_iff.1 (fitsTree_of_wf h ht)
  have hcnt : s.nodeCnt = t.size := by simp [State.nodeCnt, ht]
  have hroot : s.root = t.idx := by simp [State.root, ht]
  rw [hcnt, hroot]
  exact ⟨hlen, treeOf_of_records _ t hrec _ le_rfl, t.size_odd, hsize⟩

/-! ### What the readers of TREE use of it: its shape and leaf symbols -/

theorem Tree.visit_shape (t : Tree) (p : Bits) : t.shape.visit p = t.visit p := by
  induction t generalizing p with
  | leaf => rfl
  | node i w l r hl hr => simp only [Tree.shape, Tree.visit, hl, hr]

theorem codesOf_shape (t : Tree) : codesOf t.shape = codesOf t := by
  cases t with
  | leaf => rfl
  | node i w l r => exact Tree.visit_shape (.node i w l r) []

theorem Tree.wire_shape (c : Config) (t : Tree) : t.shape.wire c = t.wire c := by
  induction t with
  | leaf => rfl
  | node i w l r hl hr => simp only [Tree.shape, Tree.wire, hl, hr]

/-- The walk asks of the child a bit selects only whether it is a leaf, and for its symbol or its children. -/
theorem walk_shape (rl rr l r : Tree) (mid : Bool) (bits : Bits) (out : List Symbol) :
    walk rl.shape rr.shape l.shape r.shape mid bits out = walk rl rr l r mid bits out := by
  induction bits generalizing l r mid out with
  | nil => rfl
  | cons b bits ih =>
    have hchild : (if b then r.shape else l.shape) = (if b then r else l).shape := by cases b <;> rfl
    rw [walk, walk, hchild]
    cases (if b then r else l) with
    | leaf i s w => exact ih rl rr false (out ++ [s])
    | node i w l' r' => exact ih l' r' true out

theorem decodeText_shape (c : Config) (t : Tree) (bits : Bits) : decodeText c t.shape bits = decodeText c t bits := by
  have hbits : decodeBits t.shape bits = decodeBits t bits := by
    cases t with
    | leaf => rfl
    | node i w l r => exact walk_shape l r l r false bits []
  rw [decodeText, hbits, decodeText]

theorem serializeContainer_shape (c : Config) (k : Container) :
    serializeContainer c { k with tree := k.tree.shape } = serializeContainer c k := by
  simp only [serializeContainer, Container.wire, Tree.wire_shape]

/-- The state with another TREE. -/
def State.withTree (s : State) (o : Option Tree) : State := { s with tree := o }

theorem State.invalidateAll_withTree (s : State) (o : Option Tree) {ds : List BufId} (h : BufId.tree ∉ ds) :
    (s.withTree o).invalidateAll ds = (s.invalidateAll ds).withTree o := by
  induction ds generalizing s with
  | nil => rfl
  | cons b ds ih =>
    rw [List.mem_cons, not_or] at h
    obtain ⟨hb, hds⟩ := h
    have hone : (s.withTree o).invalidate b = (s.invalidate b).withTree o := by
      cases b
      case tree => exact absurd rfl hb
      all_goals rfl
    rw [State.invalidateAll_cons, State.invalidateAll_cons, hone, ih _ hds]

/-- A command of which TREE is no destination ends the same whatever TREE is, its result given. -/
theorem State.finish_withTree {α : Type} (s : State) (o : Option Tree) {i : Instr} (hi : BufId.tree ∉ destinations i)
    (w : α → State) (r : Except Failure α) :
    (s.withTree o).finish i (fun v => (w v).withTree o) r = (s.finish i w r).withTree o := by
  cases r with
  | error f =>
    simp only [State.finish, State.fail, State.failWith, s.invalidateAll_withTree o hi]
    rfl
  | ok v => rfl

/-! Each reader of TREE on a state with the tree `t`: its result is computed from `t.shape`, and TREE stays `t`. -/

theorem State.deriveCodes_withTree (s : State) (t : Tree) : (s.withTree (some t)).deriveCodes =
    (s.finish .deriveCodes (fun e => { s with code := some e }) (.ok (codesOf t.shape))).withTree (some t) := by
  rw [codesOf_shape]
  exact State.deriveCodes_ok rfl

theorem State.decode_withTree (c : Config) (s : State) (t : Tree) : (s.withTree (some t)).decode c =
    (s.finish .decode (fun x => { s with dtext := some x })
      (ready .bits s.bits >>= decodeText c t.shape)).withTree (some t) := by
  have htext : decodeText c t.shape = decodeText c t := funext (decodeText_shape c t)
  rw [State.decode_eq_finish, htext, ← s.finish_withTree _ (by decide)]
  rfl

theorem State.serialize_withTree (c : Config) (s : State) (t : Tree) : (s.withTree (some t)).serialize c =
    (s.finish .serialize (fun z => { s with blob := some z })
      (ready .code s.code >>= fun table => ready .bytes s.bytes >>= fun bs => ready .pad s.pad >>= fun p =>
        serializeContainer c ⟨bs, t.shape, table, p⟩)).withTree (some t) := by
  have hblob (bs : List Byte) (table : List CodeEntry) (p : Byte) :
      serializeContainer c ⟨bs, t.shape, table, p⟩ = serializeContainer c ⟨bs, t, table, p⟩ :=
    serializeContainer_shape c ⟨bs, t, table, p⟩
  simp only [hblob]
  rw [State.serialize_eq_finish, ← s.finish_withTree _ (by decide)]
  rfl

/-- Settles O21: the codes, the decoded text and the blob are computed from the one shape, and no reader writes TREE. -/
theorem treeReadersIgnoreWeightsAndLayout : Obligations.TreeReadersIgnoreWeightsAndLayout := by
  intro s t t' h i hi
  refine ⟨(s.withTree (some t)).run i, exec_eq_run i _, ?_⟩
  change exec i (s.withTree (some t')) = .next (((s.withTree (some t)).run i).withTree (some t'))
  rw [exec_eq_run, Host.Outcome.next.injEq]
  simp only [List.mem_cons, List.not_mem_nil, or_false] at hi
  rcases hi with rfl | rfl | rfl <;> simp only [State.run]
  · rw [State.deriveCodes_withTree, State.deriveCodes_withTree, h]
    rfl
  · rw [State.decode_withTree, State.decode_withTree, h]
    rfl
  · rw [State.serialize_withTree, State.serialize_withTree, h]
    rfl

/-! ### STATUS and ERRINFO -/

/-- A host action is a command byte, a reset, or leaves STATUS and ERRINFO as they are (R23, R210 to R212). -/
theorem perform_status (s : State) (a : HostAction) :
    (∃ b, a = .issue b) ∨ a = .reset ∨ ((s.perform a).status = s.status ∧ (s.perform a).errinfo = s.errinfo) := by
  cases a with
  | load v => cases v <;> exact .inr (.inr ⟨rfl, rfl⟩)
  | read b => exact .inr (.inr ⟨rfl, rfl⟩)
  | readReg r => exact .inr (.inr ⟨rfl, rfl⟩)
  | issue b => exact .inl ⟨b, rfl⟩
  | reset => exact .inr (.inl rfl)

/-- Settles O14: an idle step changes nothing, and of the host's actions only two kinds write STATUS or ERRINFO. -/
theorem statusChangesOnlyByCommandOrReset : Obligations.StatusChangesOnlyByCommandOrReset := by
  intro s t hst hne
  rcases (step_eq_next_iff s t).1 hst with ⟨-, rfl⟩ | ⟨a, rest, hs, -, rfl⟩
  · exact hne.elim (absurd rfl) (absurd rfl)
  · rcases perform_status { s with host := rest } a with ⟨b, rfl⟩ | rfl | ⟨hstatus, hinfo⟩
    · exact ⟨rest, .inl ⟨b, hs⟩⟩
    · exact ⟨rest, .inr hs⟩
    · exact hne.elim (absurd hstatus) (absurd hinfo)

/-! ### TEXT -/

/-- A command that is not composite leaves TEXT as it is unless TEXT is a destination (R82, R251, R252). -/
theorem Ended.text_eq {i : Instr} {s t : State} (h : Ended i s t) (hi : BufId.text ∉ destinations i) : t.text = s.text := by
  rcases h with ⟨f, rfl⟩ | ⟨u, rfl, hbuf, -⟩
  · simp [State.fail, hi]
  · exact (hbuf .text hi).symm

theorem compress_text (c : Config) (s : State) : (s.compress c).text = s.text := by
  refine runSteps_keeps (fun u => u.text = s.text) _ ?_ (s.invalidateAll_text (destinations .compress))
  simp only [List.forall_mem_cons, List.not_mem_nil, false_implies, implies_true, and_true]
  refine ⟨?_, ?_, ?_, ?_, ?_, ?_⟩ <;> intro u hu
  · exact (u.analyze_ends.text_eq (by decide)).trans hu
  · exact (u.buildTree_ends.text_eq (by decide)).trans hu
  · exact (u.deriveCodes_ends.text_eq (by decide)).trans hu
  · exact (u.encode_ends.text_eq (by decide)).trans hu
  · exact (u.pack_ends.text_eq (by decide)).trans hu
  · exact ((u.serialize_ends c).text_eq (by decide)).trans hu

theorem decompress_text (c : Config) (s : State) : (s.decompress c).text = s.text := by
  refine runSteps_keeps (fun u => u.text = s.text) _ ?_ (s.invalidateAll_text (destinations .decompress))
  simp only [List.forall_mem_cons, List.not_mem_nil, false_implies, implies_true, and_true]
  refine ⟨?_, ?_, ?_⟩ <;> intro u hu
  · exact ((u.deserialize_ends c).text_eq (by decide)).trans hu
  · exact (u.unpack_ends.text_eq (by decide)).trans hu
  · exact ((u.decode_ends c).text_eq (by decide)).trans hu

/-- "The block never writes TEXT" (R31): CLEAR is the only command that changes it, by taking the value away. -/
theorem run_text (s : State) {i : Instr} (hi : i ≠ .clear) : (s.run i).text = s.text := by
  cases i
  case analyze => exact s.analyze_ends.text_eq (by decide)
  case buildTree => exact s.buildTree_ends.text_eq (by decide)
  case deriveCodes => exact s.deriveCodes_ends.text_eq (by decide)
  case encode => exact s.encode_ends.text_eq (by decide)
  case pack => exact s.pack_ends.text_eq (by decide)
  case serialize => exact (s.serialize_ends _).text_eq (by decide)
  case deserialize => exact (s.deserialize_ends _).text_eq (by decide)
  case unpack => exact s.unpack_ends.text_eq (by decide)
  case decode => exact (s.decode_ends _).text_eq (by decide)
  case compress => exact compress_text _ s
  case decompress => exact decompress_text _ s
  case clear => exact absurd rfl hi

/-- Only a command's own byte decodes to it (R81, R83). -/
theorem eq_encode_of_decode {b : Byte} {i : Instr} (h : Sys2Proof.decode b = .ok i) : b = Sys2Proof.encode i := by
  unfold Sys2Proof.decode at h
  split at h <;> cases h
  all_goals exact BitVec.eq_of_toNat_eq ‹_›

/-- What a host action can do to TEXT: leave it, load it, or take its value away by CLEAR or a reset (R31, R207, R270). -/
theorem perform_text (s : State) (a : HostAction) :
    (s.perform a).text = s.text ∨ (∃ v, a = .load (.text v) ∧ (s.perform a).text = some v) ∨
      ((a = .issue 0x0C#8 ∨ a = .reset) ∧ (s.perform a).text = none) := by
  cases a with
  | load v =>
    cases v with
    | text v => exact .inr (.inl ⟨v, rfl, rfl⟩)
    | _ => exact .inl rfl
  | read b => exact .inl rfl
  | readReg r => exact .inl rfl
  | issue b =>
    rw [State.perform]
    cases hd : Sys2Proof.decode b with
    | error e => exact .inl (State.failWith_text [] _ s)
    | ok i =>
      by_cases hi : i = .clear
      · subst hi
        exact .inr (.inr ⟨.inl (congrArg _ (eq_encode_of_decode hd)), rfl⟩)
      · exact .inl (run_text s hi)
  | reset => exact .inr (.inr ⟨.inr rfl, rfl⟩)

/-- Settles O15: an idle step changes nothing, and each host action does to TEXT one of three things. -/
theorem textChangesOnlyByTheHost : Obligations.TextChangesOnlyByTheHost := by
  intro s t hst hne
  rcases (step_eq_next_iff s t).1 hst with ⟨-, rfl⟩ | ⟨a, rest, hs, -, rfl⟩
  · exact absurd rfl hne
  · rcases perform_text { s with host := rest } a with hkeep | ⟨v, rfl, hv⟩ | ⟨rfl | rfl, hnone⟩
    · exact absurd hkeep hne
    · exact .inl ⟨v, rest, hs, hv⟩
    · exact .inr ⟨hnone, rest, .inl hs⟩
    · exact .inr ⟨hnone, rest, .inr hs⟩

/-! ### VALID and the reset state -/

/-- VALID written bit by bit, bit 0 outermost (R24). -/
theorem State.validReg_eq_bits (s : State) : s.validReg = BitVec.ofNat 9
    (Nat.bit s.text.isSome (Nat.bit s.freq.isSome (Nat.bit s.tree.isSome (Nat.bit s.code.isSome (Nat.bit s.bits.isSome
      (Nat.bit s.bytes.isSome (Nat.bit s.pad.isSome (Nat.bit s.blob.isSome (Nat.bit s.dtext.isSome 0))))))))) := by
  simp only [Nat.bit_val, State.validReg]
  congr 1
  omega

/-- Settles O12: the id of a buffer is the place of its bit in VALID. -/
theorem validRegisterBits : Obligations.ValidRegisterBits := by
  intro s b
  rw [State.validReg_eq_bits, BitVec.getLsbD_ofNat]
  cases b <;> simp [BufId.id, State.isValid, Nat.testBit_bit_succ]

/-- Settles O11: after reset no buffer holds a value and every register but CMD reads 0. -/
theorem resetState : Obligations.ResetState := by
  refine ⟨rfl, fun b => ?_, ?_, rfl⟩
  · cases b <;> rfl
  · decide

end Sys2Proof.Machine

/-! # The frame of a command, and its idempotence

The statements O17 and O19 (spec R68, R82).  Every command leaves all but its destinations and the registers; so a command issued again
finds the same sources, and, reading its sources alone (`sameResult_run`), writes the same again. -/

namespace Sys2Proof.Machine

/-! ### What leaves everything but the buffers `ds` and the registers -/

/-- From `s` to `t` no buffer outside `ds` changes, TREE_KIND does so only if TREE is one of `ds`, and the parameters (log 5) and the
model's own fields (log 1, log 2) do not. -/
structure Framed (ds : List BufId) (s t : State) : Prop where
  buffers : ∀ b, b ∉ ds → sameBuffer s t b
  treeKind : BufId.tree ∉ ds → t.treeKind = s.treeKind
  config : t.config = s.config
  host : t.host = s.host
  reply : t.reply = s.reply

theorem Framed.trans {ds : List BufId} {s t u : State} (h : Framed ds s t) (h' : Framed ds t u) : Framed ds s u where
  buffers b hb := sameBuffer_trans (h.buffers b hb) (h'.buffers b hb)
  treeKind hb := (h'.treeKind hb).trans (h.treeKind hb)
  config := h'.config.trans h.config
  host := h'.host.trans h.host
  reply := h'.reply.trans h.reply

theorem Framed.mono {ds es : List BufId} {s t : State} (h : Framed ds s t) (hsub : ds ⊆ es) : Framed es s t :=
  { h with
    buffers := fun b hb => h.buffers b fun hd => hb (hsub hd)
    treeKind := fun hb => h.treeKind fun hd => hb (hsub hd) }

/-- Taking values away changes no other buffer and no register (R25). -/
theorem framed_invalidateAll (s : State) (ds : List BufId) : Framed ds s (s.invalidateAll ds) where
  buffers b hb := by
    cases b <;> simp [sameBuffer, State.invalidateAll_text, State.invalidateAll_freq, State.invalidateAll_tree,
      State.invalidateAll_code, State.invalidateAll_bits, State.invalidateAll_bytes, State.invalidateAll_pad,
      State.invalidateAll_blob, State.invalidateAll_dtext, hb]
  treeKind _ := s.invalidateAll_treeKind ds
  config := s.invalidateAll_config ds
  host := s.invalidateAll_host ds
  reply := s.invalidateAll_reply ds

/-- R251: "and nothing else changes". -/
theorem framed_failWith (ds : List BufId) (f : Failure) (s : State) : Framed ds s (s.failWith ds f) where
  buffers := sameBuffer_failWith ds f s
  treeKind hb := by rw [State.failWith_treeKind, if_neg hb]
  config := s.failWith_config ds f
  host := s.failWith_host ds f
  reply := s.failWith_reply ds f

/-- R252 writes STATUS and ERRINFO alone. -/
theorem Framed.succeed {ds : List BufId} {s t : State} (h : Framed ds s t) : Framed ds s t.succeed :=
  { h with buffers := fun b hb => sameBuffer_trans (h.buffers b hb) (by cases b <;> rfl) }

/-! ### The frame of every command -/

/-- Either end of a single command keeps its frame. -/
theorem Ended.framed {i : Instr} {s t : State} (h : Ended i s t) : Framed (destinations i) s t := by
  rcases h with ⟨f, rfl⟩ | ⟨u, rfl, hbuf, -, hkind, hconfig, hhost, hreply⟩
  · exact framed_failWith (destinations i) f s
  · exact Framed.succeed ⟨hbuf, hkind, hconfig, hhost, hreply⟩

/-- A composite command keeps the frame that each of its steps keeps (R201, R204). -/
theorem framed_runSteps {ds : List BufId} (xs : List (State → State)) (hx : ∀ x ∈ xs, ∀ u, Framed ds u (x u)) (s : State) :
    Framed ds s (runSteps xs (s.invalidateAll ds)) :=
  runSteps_keeps (Framed ds s) xs (fun x hmem u hu => hu.trans (hx x hmem u)) (framed_invalidateAll s ds)

theorem compress_framed (c : Config) (s : State) : Framed (destinations .compress) s (s.compress c) := by
  refine framed_runSteps _ ?_ s
  simp only [List.forall_mem_cons, List.not_mem_nil, false_implies, implies_true, and_true]
  refine ⟨?_, ?_, ?_, ?_, ?_, ?_⟩ <;> intro u
  · exact u.analyze_ends.framed.mono (by decide)
  · exact u.buildTree_ends.framed.mono (by decide)
  · exact u.deriveCodes_ends.framed.mono (by decide)
  · exact u.encode_ends.framed.mono (by decide)
  · exact u.pack_ends.framed.mono (by decide)
  · exact (u.serialize_ends c).framed.mono (by decide)

theorem decompress_framed (c : Config) (s : State) : Framed (destinations .decompress) s (s.decompress c) := by
  refine framed_runSteps _ ?_ s
  simp only [List.forall_mem_cons, List.not_mem_nil, false_implies, implies_true, and_true]
  refine ⟨?_, ?_, ?_⟩ <;> intro u
  · exact (u.deserialize_ends c).framed.mono (by decide)
  · exact u.unpack_ends.framed.mono (by decide)
  · exact (u.decode_ends c).framed.mono (by decide)

/-- Every buffer is a destination of CLEAR (R82). -/
theorem clear_framed (s : State) : Framed (destinations .clear) s s.clear where
  buffers b hb := absurd (by cases b <;> decide) hb
  treeKind hb := absurd (by decide) hb
  config := rfl
  host := rfl
  reply := rfl

theorem run_framed (s : State) (i : Instr) : Framed (destinations i) s (s.run i) := by
  cases i
  case analyze => exact s.analyze_ends.framed
  case buildTree => exact s.buildTree_ends.framed
  case deriveCodes => exact s.deriveCodes_ends.framed
  case encode => exact s.encode_ends.framed
  case pack => exact s.pack_ends.framed
  case serialize => exact (s.serialize_ends _).framed
  case deserialize => exact (s.deserialize_ends _).framed
  case unpack => exact s.unpack_ends.framed
  case decode => exact (s.decode_ends _).framed
  case compress => exact compress_framed _ s
  case decompress => exact decompress_framed _ s
  case clear => exact clear_framed s

/-- No command writes what it reads (R82). -/
theorem not_mem_destinations_of_mem_sources {i : Instr} {b : BufId} (hb : b ∈ sources i) : b ∉ destinations i := by
  revert b
  cases i <;> decide

/-- A command leaves its sources as they are (R68). -/
theorem sameBuffer_run_source (s : State) {i : Instr} {b : BufId} (hb : b ∈ sources i) : sameBuffer s (s.run i) b :=
  (run_framed s i).buffers b (not_mem_destinations_of_mem_sources hb)

/-- Settles O17: every command keeps its frame, and its sources are in it. -/
theorem commandFrame : Obligations.CommandFrame := by
  intro i s t ht
  rw [exec_eq_run, Host.Outcome.next.injEq] at ht
  subst ht
  obtain ⟨hbuf, hkind, hconfig, hhost, hreply⟩ := run_framed s i
  exact ⟨hbuf, fun b hb => sameBuffer_run_source s hb, hkind, hconfig, hhost, hreply⟩

/-! ### A command issued twice -/

/-- Two states are equal when every buffer, TREE_KIND, STATUS, ERRINFO, the parameters and the model's own fields are. -/
theorem State.eq_of_sameBuffer {s t : State} (hbuf : ∀ b, sameBuffer s t b) (hkind : s.treeKind = t.treeKind)
    (hstatus : s.status = t.status) (hinfo : s.errinfo = t.errinfo) (hconfig : s.config = t.config)
    (hhost : s.host = t.host) (hreply : s.reply = t.reply) : s = t := by
  have htext := hbuf .text
  have hfreq := hbuf .freq
  have htree := hbuf .tree
  have hcode := hbuf .code
  have hbits := hbuf .bits
  have hbytes := hbuf .bytes
  have hpad := hbuf .pad
  have hblob := hbuf .blob
  have hdtext := hbuf .dtext
  cases s
  cases t
  simp_all [sameBuffer]

/-- A COMPRESS that fails leaves TREE_KIND as it was (log 7). -/
theorem compress_treeKind_of_failed (c : Config) {s : State} (h : (s.compress c).status ≠ 0#4) :
    (s.compress c).treeKind = s.treeKind := by
  match hs : s.text with
  | none => rw [State.compress_error c (.inl ⟨hs, rfl⟩)]; exact s.invalidateAll_treeKind _
  | some [] => rw [State.compress_error c (.inr ⟨hs, rfl⟩)]; exact s.invalidateAll_treeKind _
  | some (a :: x) =>
    obtain ⟨t, -, e⟩ := State.compress_ok c hs (List.cons_ne_nil a x)
    exact absurd (congrArg State.status e) h

/-- The second run finds the sources and the parameters of the first, and leaves what the first left: destinations and registers
because they come from the sources, the rest because it is in the frame. -/
theorem run_run (s : State) (i : Instr) : (s.run i).run i = s.run i := by
  have hsame : SameResult i (s.run i) ((s.run i).run i) :=
    sameResult_run i (run_config s i).symm fun b hb => sameBuffer_run_source s hb
  have hframe : Framed (destinations i) (s.run i) ((s.run i).run i) := run_framed (s.run i) i
  have hkind : (s.run i).treeKind = ((s.run i).run i).treeKind := by
    by_cases htree : BufId.tree ∈ destinations i
    · by_cases hok : i = .compress → (s.run i).status = 0#4
      · exact hsame.treeKind htree hok
      · obtain ⟨rfl, hfail⟩ := Classical.not_imp.1 hok
        rw [hsame.status] at hfail
        exact (compress_treeKind_of_failed _ hfail).symm
    · exact (hframe.treeKind htree).symm
  refine (State.eq_of_sameBuffer (fun b => ?_) hkind hsame.status hsame.errinfo hframe.config.symm hframe.host.symm
    hframe.reply.symm).symm
  by_cases hb : b ∈ destinations i
  · exact hsame.buffers b hb
  · exact hframe.buffers b hb

/-- Settles O19: a command's second run changes nothing. -/
theorem commandIsIdempotent : Obligations.CommandIsIdempotent := by
  intro i s t ht
  rw [exec_eq_run, Host.Outcome.next.injEq] at ht
  subst ht
  rw [exec_eq_run, run_run]

end Sys2Proof.Machine

/-! # The command byte, the operand table and the worked container

The statements O1, O2, O3 and O43 (spec R81 to R83, R101, R229).  A byte decodes to a command exactly when it is that command's byte;
any other byte is IllegalCommand.  The worked container is one case of the round trip: a block with the same parameters
decompresses the blob of any COMPRESS (`State.decompress_of_compressed`). -/

namespace Sys2Proof.Machine

/-! ### The command byte -/

/-- The laws of the command byte, stated there one command at a time (R80, R81, R86). -/
theorem commandByte_statement (i : Instr) : Laws.CommandByte.Statement i := by
  cases i
  exacts [Laws.CommandByte.analyze, Laws.CommandByte.buildTree, Laws.CommandByte.deriveCodes, Laws.CommandByte.encode,
    Laws.CommandByte.pack, Laws.CommandByte.serialize, Laws.CommandByte.deserialize, Laws.CommandByte.unpack,
    Laws.CommandByte.decode, Laws.CommandByte.compress, Laws.CommandByte.decompress, Laws.CommandByte.clear]

/-- The decoder is a left inverse of the encoder (R81). -/
@[simp] theorem decode_encode (i : Instr) : Sys2Proof.decode (Sys2Proof.encode i) = .ok i := by
  obtain ⟨-, -, -, hdecode, -⟩ := commandByte_statement i
  exact hdecode

/-- A byte decodes to a command exactly when it is that command's byte (R81, R83). -/
theorem decode_eq_ok_iff {b : Byte} {i : Instr} : Sys2Proof.decode b = .ok i ↔ b = Sys2Proof.encode i :=
  ⟨eq_encode_of_decode, fun h => h ▸ decode_encode i⟩

/-- The only error of the decoder names the byte it was given (R83). -/
theorem eq_of_decode_error {b b' : Byte} (h : Sys2Proof.decode b = .error (.illegalCommand b')) : b' = b := by
  unfold Sys2Proof.decode at h
  split at h <;> cases h
  rfl

/-- "The bytes 0x00 and 0x0D to 0xFF are not commands" (R83). -/
theorem decode_eq_illegalCommand {b : Byte} (h : b.toNat = 0 ∨ 0x0D ≤ b.toNat) :
    Sys2Proof.decode b = .error (.illegalCommand b) := by
  match e : Sys2Proof.decode b with
  | .ok i =>
    obtain ⟨-, hlow, hhigh, -⟩ := commandByte_statement i
    rw [← eq_encode_of_decode e] at hlow hhigh
    omega
  | .error (.illegalCommand b') => rw [eq_of_decode_error e]

/-- Settles O1: the table row by row, and the converse from the encoder. -/
theorem commandBytesDecode : Obligations.CommandBytesDecode :=
  ⟨decode_encode .analyze, decode_encode .buildTree, decode_encode .deriveCodes, decode_encode .encode, decode_encode .pack,
    decode_encode .serialize, decode_encode .deserialize, decode_encode .unpack, decode_encode .decode, decode_encode .compress,
    decode_encode .decompress, decode_encode .clear, fun _ _ => decode_eq_ok_iff⟩

/-- Twelve of the 256 byte values are commands (R83). -/
theorem length_filter_commands :
    ((List.range 256).filter fun n => (Sys2Proof.decode (BitVec.ofNat 8 n)).toOption.isSome).length = 12 := by decide

/-- The other 244 are not (R83). -/
theorem length_filter_not_commands :
    ((List.range 256).filter fun n => (Sys2Proof.decode (BitVec.ofNat 8 n)).toOption.isNone).length = 244 := by
  have hsplit := List.length_eq_length_filter_add (l := List.range 256)
    fun n => (Sys2Proof.decode (BitVec.ofNat 8 n)).toOption.isSome
  rw [length_filter_commands, List.length_range] at hsplit
  simp only [Option.not_isSome] at hsplit
  omega

/-- Settles O2: the counts, and the step of a byte that does not decode, which is IllegalCommand's end (R250). -/
theorem illegalByteEndsInIllegalCommand : Obligations.IllegalByteEndsInIllegalCommand := by
  refine ⟨⟨length_filter_commands, length_filter_not_commands⟩, fun s b rest hs hb => ?_⟩
  rw [step_of_available hs rfl, State.perform, decode_eq_illegalCommand hb]
  rfl

/-! ### The operand table -/

/-- Settles O3: the rows are the definitions', and no command writes what it reads. -/
theorem operandTable : Obligations.OperandTable :=
  ⟨⟨rfl, rfl⟩, ⟨rfl, rfl⟩, ⟨rfl, rfl⟩, ⟨rfl, rfl⟩, ⟨rfl, rfl⟩, ⟨rfl, rfl⟩, ⟨rfl, rfl⟩, ⟨rfl, rfl⟩, ⟨rfl, rfl⟩, ⟨rfl, rfl⟩,
    ⟨rfl, rfl⟩, ⟨rfl, rfl⟩, fun _ _ => not_mem_destinations_of_mem_sources⟩

/-! ### DECOMPRESS of the blob a COMPRESS leaves -/

/-- The bits of a text under the codes of a tree (R142). -/
def payload (t : Tree) (x : List Symbol) : Bits := x.flatMap fun a => (codeFor (codesOf t) a).getD []

/-- The container a COMPRESS serializes (R175, R201). -/
def packed (t : Tree) (x : List Symbol) : Container :=
  ⟨packBits (payload t x), t, codesOf t, BitVec.ofNat 8 (padCount (payload t x).length)⟩

/-- The blob after a successful COMPRESS is that container's (R203). -/
theorem compressed_blob (c : Config) (s : State) (x : List Symbol) (t : Tree) :
    (compressed c s x t).blob = some ((packed t x).wire c) := rfl

/-- COMPRESS with the tree given (R203). -/
theorem State.compress_eq_compressed {s : State} {x : List Symbol} {t : Tree} (c : Config) (h : s.text = some x) (hx : x ≠ [])
    (ht : buildTreeOf (frequencies x) = .ok t) : s.compress c = compressed c s x t := by
  obtain ⟨t', ht', e⟩ := State.compress_ok c h hx
  rw [ht, Except.ok.injEq] at ht'
  rw [e, ht']

/-- DESERIALIZE's layout keeps shape and symbols (R186). -/
@[simp] theorem Tree.shape_recon (t : Tree) (i : Nat) : (t.recon i).shape = t.shape := by
  induction t generalizing i with
  | leaf => rfl
  | node j w l r hl hr => simp [Tree.recon, Tree.shape, hl, hr]

/-- DECODE reads a tree's layout by DESERIALIZE as it reads the tree (R33). -/
theorem decodeText_recon (c : Config) (t : Tree) (i : Nat) (b : Bits) : decodeText c (t.recon i) b = decodeText c t b := by
  rw [← decodeText_shape, Tree.shape_recon, decodeText_shape]

/-- DECODE of a text's own bits is the text, if DTEXT holds it (R233). -/
theorem decodeText_payload {c : Config} {t : Tree} {x : List Symbol} (hx : x.length ≤ c.nMax)
    (hs : ∀ a ∈ x, a ∈ t.leafSymbols) : decodeText c t (payload t x) = .ok x := by
  simp [decodeText, payload, decodeBits_encode t x hs, Nat.not_lt.2 hx]

/-- DESERIALIZE reads back the container of a COMPRESS, which is within every capacity (R203, R223). -/
theorem deserializeBlob_packed {c : Config} (hc : c.legal = true) {x : List Symbol} (hx : fitsText c x = true) {t : Tree}
    (ht : buildTreeOf (frequencies x) = .ok t) :
    deserializeBlob c ((packed t x).wire c) = .ok { packed t x with tree := t.recon 0 } := by
  obtain ⟨htree, -⟩ := fitsTree_buildTreeOf (fitsFreq_frequencies hc hx) ht
  have hcode : fitsCode c (codesOf t) = true := fitsCode_codesOf hc htree
  have hbytes : fitsBytes c (packed t x).bytes = true := fitsBytes_packBits (fitsBits_encode hx hcode)
  have hpad : (packed t x).pad.toNat ≤ 7 := by
    have := padCount_lt (payload t x).length
    rw [packed, padCount_toNat]
    omega
  exact deserializeBlob_wire hc hbytes htree hcode hpad

/-- DECOMPRESS of a COMPRESS' blob alone, in any state: the text, and the container's parts in their buffers (R206, R220). -/
theorem State.decompress_of_compressed {c : Config} (hc : c.legal = true) {x : List Symbol} (hx : fitsText c x = true) {t : Tree}
    (ht : buildTreeOf (frequencies x) = .ok t) {u : State} (hu : u.blob = some ((packed t x).wire c)) :
    u.decompress c =
      { unwrapped u { packed t x with tree := t.recon 0 } with bits := some (payload t x), dtext := some x } := by
  refine State.decompress_ok c hu (deserializeBlob_packed hc hx ht) (unpackBits_packBits _) ?_
  rw [decodeText_recon]
  exact decodeText_payload (fitsText_iff.1 hx).1 fun a ha => (mem_leafSymbols_of_text ht a).2 ha

/-! ### The container of "abracadabra" -/

/-- "abracadabra" (R101, R229). -/
def abracadabra : List Symbol := [97, 98, 114, 97, 99, 97, 100, 97, 98, 114, 97]

/-- Its tree, as BUILD_TREE lays it out: c and d are merged first, then b and r. -/
def abracadabraTree : Tree :=
  .node 8 11 (.leaf 0 97 5) (.node 7 6 (.node 5 2 (.leaf 3 99 1) (.leaf 4 100 1)) (.node 6 4 (.leaf 1 98 2) (.leaf 2 114 2)))

/-- The 45 bytes of R101. -/
def abracadabraBlob : List Byte :=
  [0x04, 0x00, 0x00, 0x00, 0x03, 0x37, 0x45, 0x6e, 0x00, 0x01, 0x61, 0x00, 0x00, 0x01, 0x63, 0x01, 0x64, 0x00, 0x01, 0x62,
   0x01, 0x72, 0x00, 0x05, 0x61, 0x00, 0x01, 0x00, 0x63, 0x00, 0x03, 0x04, 0x64, 0x00, 0x03, 0x05, 0x62, 0x00, 0x03, 0x06,
   0x72, 0x00, 0x03, 0x07, 0x01]

theorem frequencies_abracadabra : frequencies abracadabra = [⟨97, 5⟩, ⟨98, 2⟩, ⟨114, 2⟩, ⟨99, 1⟩, ⟨100, 1⟩] := by decide

theorem buildTreeOf_abracadabra : buildTreeOf (frequencies abracadabra) = .ok abracadabraTree := by
  rw [frequencies_abracadabra]
  decide

theorem payload_abracadabra_length : (payload abracadabraTree abracadabra).length = 23 := by decide

theorem wire_abracadabra : (packed abracadabraTree abracadabra).wire Config.huffcore = abracadabraBlob := by decide

/-- Settles O43: COMPRESS leaves the container of R101, and DECOMPRESS of it is a case of the round trip. -/
theorem abracadabraContainer : Obligations.AbracadabraContainer := by
  have hcompress := State.compress_eq_compressed (s := { State.reset with text := some abracadabra }) Config.huffcore rfl
    (by decide) buildTreeOf_abracadabra
  have hdecompress := State.decompress_of_compressed (c := Config.huffcore) (by decide) (x := abracadabra) (by decide)
    buildTreeOf_abracadabra (u := { State.reset with blob := some abracadabraBlob }) (by rw [wire_abracadabra])
  have hbytes : (packBits (payload abracadabraTree abracadabra)).length = 3 := by
    rw [packBits_length, payload_abracadabra_length]
  have hpad : (BitVec.ofNat 8 (padCount (payload abracadabraTree abracadabra).length)).toNat = 1 := by
    rw [payload_abracadabra_length]
    rfl
  exact ⟨_, _, congrArg Host.Outcome.next hcompress, rfl, congrArg some wire_abracadabra, congrArg some frequencies_abracadabra,
    congrArg some hbytes, congrArg some hpad, congrArg some payload_abracadabra_length, rfl,
    congrArg Host.Outcome.next hdecompress, rfl, rfl, rfl, rfl, rfl⟩

end Sys2Proof.Machine

/-! # ANALYZE

The statements O22, O23 and O24 (spec R111 to R114).  ANALYZE ends in one of three ways, as TEXT has no value, the empty one or
another, and each is the whole next state (`State.analyze_none`, `State.analyze_nil`, `State.analyze_ok`).  What a success writes is
`frequencies`, in the closed form `frequencies_eq`: each fact of R114 is read off it. -/

namespace Sys2Proof.Machine

/-! ### The three ways ANALYZE ends -/

/-- ANALYZE never stops the block (R14, R111). -/
theorem exec_analyze (s : State) : exec .analyze s = .next s.analyze := exec_eq_run .analyze s

/-- ANALYZE that fails takes FREQ's value away and reports the failure, nothing else (R251). -/
theorem State.analyze_error {s : State} {f : Failure} (h : (ready .text s.text >>= analyzeText) = .error f) :
    s.analyze = { s with freq := none, status := f.code, errinfo := f.info } := by
  rw [s.analyze_eq_finish, h]
  rfl

/-- ANALYZE without TEXT is OperandNotReady(0) (R111, R249). -/
theorem State.analyze_none {s : State} (h : s.text = none) :
    s.analyze = { s with freq := none, status := 8#4, errinfo := 0 } :=
  State.analyze_error (f := .operandNotReady .text) (by rw [h]; rfl)

/-- ANALYZE of the empty text is EmptyInput (R112). -/
theorem State.analyze_nil {s : State} (h : s.text = some []) :
    s.analyze = { s with freq := none, status := 1#4, errinfo := 0 } :=
  State.analyze_error (f := .emptyInput) (by rw [h]; rfl)

/-- FREQ after ANALYZE has no value or at least one entry (R112). -/
theorem State.analyze_freq_ne_nil (s : State) : s.analyze.freq ≠ some [] := by
  match h : s.text with
  | none => simp [State.analyze_none h]
  | some [] => simp [State.analyze_nil h]
  | some (x :: t) =>
    have hx : x :: t ≠ [] := List.cons_ne_nil x t
    rw [State.analyze_ok h hx]
    exact fun e => frequencies_ne_nil hx (Option.some.inj e)

/-! ### The table of a text -/

/-- FREQ has as many entries as TEXT has distinct symbols (R114 (a)). -/
theorem frequencies_length (t : List Symbol) : (frequencies t).length = t.toFinset.card := by
  have hset : t.eraseDups.toFinset = t.toFinset := by ext; simp
  calc (frequencies t).length = t.eraseDups.length := by rw [← frequencies_syms, List.length_map]
    _ = t.toFinset.card := by rw [← List.toFinset_card_of_nodup (eraseDups_nodup t), hset]

/-- There are at most 2^SYM_W = K_MAX distinct symbols (R6, R114 (a)). -/
theorem frequencies_length_le_kMax {c : Config} {t : List Symbol} (hs : ∀ x ∈ t, x < 2 ^ c.symW) :
    (frequencies t).length ≤ c.kMax := by
  rw [frequencies_eq, List.length_map]
  exact length_le_of_nodup_lt (eraseDups_nodup t) fun x hx => hs x (List.mem_eraseDups.1 hx)

/-- An entry's symbol occurs in the text, and its count is the number of its occurrences (R114 (c)). -/
theorem mem_frequencies {t : List Symbol} {e : FreqEntry} (he : e ∈ frequencies t) : e.sym ∈ t ∧ e.cnt = t.count e.sym := by
  rw [frequencies_eq] at he
  obtain ⟨x, hx, rfl⟩ := List.mem_map.1 he
  exact ⟨List.mem_eraseDups.1 hx, rfl⟩

/-! ### The statements -/

/-- Settles O22: the three ways ANALYZE ends, the table in its closed form. -/
theorem analyzeCountsInFirstOccurrenceOrder : Obligations.AnalyzeCountsInFirstOccurrenceOrder := by
  intro s
  rw [exec_analyze]
  refine ⟨fun h => ?_, fun h => ?_, fun t h ht => ?_⟩
  · rw [State.analyze_none h]
  · rw [State.analyze_nil h]
  · rw [State.analyze_ok h ht, frequencies_eq]
    rfl

/-- Settles O23: the facts of R114 about the table a success writes. -/
theorem analyzeTableInvariant : Obligations.AnalyzeTableInvariant := by
  intro s t h ht hn hs
  have hexec : exec .analyze s = .next { s with freq := some (frequencies t) }.succeed := by
    rw [exec_analyze, State.analyze_ok h ht]
  have hlength := frequencies_length t
  have hpos : 1 ≤ (frequencies t).length := List.length_pos_iff.2 (frequencies_ne_nil ht)
  have hle : (frequencies t).length ≤ min t.length s.config.kMax :=
    le_min (hlength.trans_le t.toFinset_card_le) (frequencies_length_le_kMax hs)
  have hcnt : ∀ e ∈ frequencies t, 1 ≤ e.cnt ∧ e.cnt = t.count e.sym ∧ e.cnt ≤ s.config.nMax := by
    intro e he
    obtain ⟨hmem, hcount⟩ := mem_frequencies he
    exact ⟨hcount ▸ List.count_pos_iff.2 hmem, hcount, hcount ▸ List.count_le_length.trans hn⟩
  exact ⟨_, _, hexec, rfl, hlength, hpos, hle, frequencies_syms_nodup t, hcnt, frequencies_sum t, frequencies_syms t⟩

/-- Settles O24: the empty text's end, and no end has an empty table. -/
theorem analyzeRejectsEmptyText : Obligations.AnalyzeRejectsEmptyText := by
  refine ⟨fun s h => ?_, fun s t ht => ?_⟩
  · rw [exec_analyze, State.analyze_nil h]
  · rw [exec_analyze, Host.Outcome.next.injEq] at ht
    exact ht ▸ s.analyze_freq_ne_nil

end Sys2Proof.Machine

/-! # BUILD_TREE

The statements O25, O26, O27 and O28 (spec R121 to R128).  BUILD_TREE ends in one of three ways, as FREQ has no value, the empty one or
another, and each is the whole next state (`State.buildTree_none`, `State.buildTree_nil`, `exec_buildTree_ok`).  The tree a success
writes is the collection's last one, so what it is follows from the invariant `Forest` of the merges. -/

namespace Sys2Proof.Machine

/-! ### `removemin` -/

/-- With distinct indices the order of R121 is strict and total on the collection: the node removed is before every other (R126). -/
theorem removeMin_before {q : List Tree} (hq : q ≠ []) (hidx : (q.map Tree.idx).Nodup) :
    ∃ m rest, removeMin q = some (m, rest) ∧ (m :: rest).Perm q ∧ ∀ y ∈ rest, m.before y = true := by
  rcases removeMin_spec q with ⟨h, -⟩ | ⟨m, rest, hmin, hperm, hleast⟩
  · exact absurd h hq
  refine ⟨m, rest, hmin, hperm, fun y hy => ?_⟩
  have hne : m.idx ≠ y.idx := by
    rw [← (hperm.map Tree.idx).nodup_iff, List.map_cons, List.nodup_cons] at hidx
    exact fun e => hidx.1 (e ▸ List.mem_map_of_mem hy)
  have hle := hleast y hy
  rw [before_iff] at hle ⊢
  omega

/-- Neither of two nodes can be before the other. -/
theorem before_asymm {a b : Tree} (h : a.before b = true) : ¬ b.before a = true := by
  rw [before_iff] at h ⊢
  omega

/-- Two arrangements of a collection have the same node before all the others (R126). -/
theorem eq_of_before_rest {m m' : Tree} {rest rest' : List Tree} (hperm : (m' :: rest').Perm (m :: rest))
    (h : ∀ y ∈ rest, m.before y = true) (h' : ∀ y ∈ rest', m'.before y = true) : m' = m := by
  rcases List.mem_cons.1 (hperm.mem_iff.1 List.mem_cons_self) with e | hm'
  · exact e
  rcases List.mem_cons.1 (hperm.mem_iff.2 List.mem_cons_self) with e | hm
  · exact e.symm
  · exact absurd (h' m hm) (before_asymm (h m' hm'))

/-- Settles O28: the node removed is before every other, and only one node of a collection is. -/
theorem removeMinTakesTheLeast : Obligations.RemoveMinTakesTheLeast := by
  intro q hq hidx
  obtain ⟨m, rest, hmin, hperm, hleast⟩ := removeMin_before hq hidx
  refine ⟨m, rest, hmin, hperm, fun y hy => (before_iff m y).1 (hleast y hy), fun q' hq' => ?_⟩
  have hne : q' ≠ [] := fun e => hq (by simpa [e] using hq')
  obtain ⟨m', rest', hmin', hperm', hleast'⟩ := removeMin_before hne ((hq'.map Tree.idx).nodup_iff.2 hidx)
  obtain rfl : m' = m := eq_of_before_rest ((hperm'.trans hq').trans hperm.symm) hleast hleast'
  exact ⟨rest', hmin'⟩

/-! ### The three ways BUILD_TREE ends -/

/-- BUILD_TREE never stops the block (R14, R123). -/
theorem exec_buildTree (s : State) : exec .buildTree s = .next s.buildTree := exec_eq_run .buildTree s

/-- BUILD_TREE that fails takes TREE's value away and reports the failure, nothing else (R251). -/
theorem State.buildTree_error {s : State} {e : Failure} (h : (ready .freq s.freq >>= buildTreeOf) = .error e) :
    s.buildTree = { s with tree := none, treeKind := .built, status := e.code, errinfo := e.info } := by
  rw [s.buildTree_eq_finish, h]
  rfl

/-- BUILD_TREE without FREQ is OperandNotReady(1) (R123, R249). -/
theorem State.buildTree_none {s : State} (h : s.freq = none) :
    s.buildTree = { s with tree := none, treeKind := .built, status := 8#4, errinfo := 1 } :=
  State.buildTree_error (e := .operandNotReady .freq) (by rw [h]; rfl)

/-- BUILD_TREE of the empty table is EmptyAlphabet (R124). -/
theorem State.buildTree_nil {s : State} (h : s.freq = some []) :
    s.buildTree = { s with tree := none, treeKind := .built, status := 2#4, errinfo := 0 } :=
  State.buildTree_error (e := .emptyAlphabet) (by rw [h]; rfl)

/-- Settles O27: the table without an entry is one of the three ways BUILD_TREE ends. -/
theorem buildTreeRejectsEmptyTable : Obligations.BuildTreeRejectsEmptyTable := by
  intro s h
  rw [exec_buildTree, State.buildTree_nil h]

/-- BUILD_TREE of a table of k entries, k positive: the tree has 2k − 1 nodes, the root last, and is all that is left of the
collection (R122, R123). -/
theorem exec_buildTree_ok {s : State} {f : List FreqEntry} (h : s.freq = some f) (hf : f ≠ []) :
    ∃ t, buildTreeOf f = .ok t ∧
      exec .buildTree s = .next { s with tree := some t, treeKind := .built, status := 0#4, errinfo := 0 } ∧
      t.size = 2 * f.length - 1 ∧ t.idx = 2 * f.length - 2 ∧ Forest f t.size [t] := by
  rcases buildTreeOf_spec f with ⟨e, -⟩ | ⟨-, t, ht, -, hidx, hsize, hforest⟩
  · exact absurd e hf
  · exact ⟨t, ht, by rw [exec_buildTree, State.buildTree_ok h ht]; rfl, hsize, by omega, hsize ▸ hforest⟩

/-! ### The tree that is left -/

/-- Every index 0 to NODE_CNT − 1 stands once in the tree (R122). -/
theorem Forest.indices_perm {f : List FreqEntry} {t : Tree} (h : Forest f t.size [t]) :
    t.indices.Perm (List.range t.size) := by
  simpa using h.indices

/-- Entry j of the table is the leaf with index j (R122). -/
theorem Forest.mem_leaves {f : List FreqEntry} {n : Nat} {t : Tree} (h : Forest f n [t]) {j : Nat} {e : FreqEntry}
    (he : f[j]? = some e) : (j, e.sym, e.cnt) ∈ t.leaves := by
  have hperm : t.leaves.Perm ((List.range' 0 f.length).zip (f.map fun e => (e.sym, e.cnt))) := by
    simpa [leavesFrom_leaves] using h.leaves
  obtain ⟨hj, rfl⟩ := List.getElem?_eq_some_iff.1 he
  refine hperm.mem_iff.2 (List.mem_of_getElem? (i := j) ?_)
  simp [hj]

/-- The arena begins with the leaves in FREQ order (R122, R128 (b)). -/
theorem Forest.arena_take {f : List FreqEntry} {t : Tree} (h : Forest f t.size [t]) :
    t.arena.take f.length = f.map fun e => NodeRec.leaf e.sym e.cnt := by
  obtain ⟨-, hrecords⟩ := t.arena_spec h.indices_perm
  apply List.ext_getElem?
  intro j
  by_cases hj : j < f.length
  · have he : f[j]? = some f[j] := List.getElem?_eq_getElem hj
    rw [List.getElem?_take_of_lt hj, List.getElem?_map, he]
    exact hrecords _ (t.leaf_mem_records (h.mem_leaves he))
  · rw [List.getElem?_eq_none (by simp; omega), List.getElem?_eq_none (by simp; omega)]

/-- Settles O25: what the invariant of the merges says of the one tree left. -/
theorem buildTreeInvariant : Obligations.BuildTreeInvariant := by
  intro s f h hf
  obtain ⟨t, -, hexec, hsize, hidx, hforest⟩ := exec_buildTree_ok h hf
  have hleaves : t.leafSymbols.length = f.length := by
    have hcount := leafSymbols_length t
    have hpos := List.length_pos_iff.2 hf
    omega
  have hweight : t.weight = (f.map FreqEntry.cnt).sum := by simpa using hforest.weight
  exact ⟨t, hexec, hleaves, hsize, hidx, hforest.indices_perm, hforest.arena_take,
    hforest.weighted t List.mem_cons_self, hweight, hforest.ordered t List.mem_cons_self⟩

/-- Settles O26: the tree's arena is the pseudocode's (`buildTreeOf_arena`), and an arena that holds a tree's records at their indices
reads back as the tree. -/
theorem buildTreeRunsTheArenaPseudocode : Obligations.BuildTreeRunsTheArenaPseudocode := by
  intro s
  refine ⟨fun h => ?_, buildTreeRejectsEmptyTable s, fun f h hf => ?_⟩
  · rw [exec_buildTree, State.buildTree_none h]
  · obtain ⟨t, ht, hexec, hsize, hidx, hforest⟩ := exec_buildTree_ok h hf
    have harena : t.arena = arenaOf f := buildTreeOf_arena f t ht
    obtain ⟨-, hrecords⟩ := t.arena_spec hforest.indices_perm
    have hread := treeOf_of_records t.arena t hrecords (2 * f.length - 1) hsize.le
    rw [harena, hidx] at hread
    exact ⟨t, hexec, harena, hsize, hidx, hread⟩

end Sys2Proof.Machine

/-! # DERIVE_CODES, ENCODE and DECODE

The statements O29, O32, O33, O34 and O35 (spec R137 to R152).  Each command's next state is `State.finish` of its function's result
(`exec_deriveCodes`, `exec_encode`, `exec_decode`), so a statement is settled by what the function gives.  DECODE's function is known
from two facts: every bitstring is root-to-leaf paths and a rest that ends at an internal node (`exists_paths`), and on such a
bitstring the walk gives the leaves' symbols and asks whether the rest is empty (`decodeBits_paths`). -/

namespace Sys2Proof.Machine

/-! ### The three commands on their sources -/

/-- DERIVE_CODES never stops the block and ends as its result says, TREE's codes if TREE is valid (R137). -/
theorem exec_deriveCodes {s : State} {r : Except Failure Tree} (h : ready .tree s.tree = r) :
    exec .deriveCodes s = .next (s.finish .deriveCodes (fun t => { s with code := some (codesOf t) }) r) := by
  rw [exec_eq_run, State.run, State.deriveCodes_eq_finish, h]

/-- ENCODE never stops the block and ends as its result says; TEXT is looked at before CODE (R142, R249). -/
theorem exec_encode {s : State} {r : Except Failure Bits}
    (h : (ready .text s.text >>= fun x => ready .code s.code >>= fun table => encodeFrom table 0 x) = r) :
    exec .encode s = .next (s.finish .encode (fun b => { s with bits := some b }) r) := by
  rw [exec_eq_run, State.run, State.encode_eq_finish, h]

/-- DECODE never stops the block and ends as its result says; TREE is looked at before BITS (R148, R249). -/
theorem exec_decode {s : State} {r : Except Failure (List Symbol)}
    (h : (ready .tree s.tree >>= fun t => ready .bits s.bits >>= fun b => decodeText s.config t b) = r) :
    exec .decode s = .next (s.finish .decode (fun x => { s with dtext := some x }) r) := by
  rw [exec_eq_run, State.run, State.decode_eq_finish, h]

/-- ENCODE with both sources ends as the loop over the text ends (R142). -/
theorem exec_encode_of_ready {s : State} {x : List Symbol} {table : List CodeEntry} (hx : s.text = some x)
    (ht : s.code = some table) {r : Except Failure Bits} (h : encodeFrom table 0 x = r) :
    exec .encode s = .next (s.finish .encode (fun b => { s with bits := some b }) r) :=
  exec_encode (by rw [hx, ht, ready_some_bind, ready_some_bind, h])

/-- DECODE with both sources ends as the decoding of BITS along TREE ends (R148). -/
theorem exec_decode_of_ready {s : State} {t : Tree} {b : Bits} (ht : s.tree = some t) (hb : s.bits = some b)
    {r : Except Failure (List Symbol)} (h : decodeText s.config t b = r) :
    exec .decode s = .next (s.finish .decode (fun x => { s with dtext := some x }) r) :=
  exec_decode (by rw [ht, hb, ready_some_bind, ready_some_bind, h])

/-! ### DERIVE_CODES -/

/-- The codes stand in the order of their first difference, 0 before 1 (R137). -/
theorem Tree.visit_codes_lt (t : Tree) : ((t.visit []).map CodeEntry.code).Pairwise (· < ·) := by
  rw [List.pairwise_map]
  induction t with
  | leaf i s w => exact List.pairwise_singleton _ _
  | node i w l r hl hr =>
    rw [Tree.visit_node, List.pairwise_append, List.pairwise_map, List.pairwise_map]
    refine ⟨hl.imp fun h => List.cons_lt_cons_self.2 h, hr.imp fun h => List.cons_lt_cons_self.2 h, fun a ha b hb => ?_⟩
    obtain ⟨a', -, rfl⟩ := List.mem_map.1 ha
    obtain ⟨b', -, rfl⟩ := List.mem_map.1 hb
    exact List.cons_lt_cons_iff.2 (.inl (by decide))

/-- The codes lead to the leaves, left to right (R137). -/
theorem Tree.visit_leafNodes (t : Tree) : (t.visit []).map (fun e => t.follow e.code) = t.leafNodes.map some := by
  induction t with
  | leaf i s w => rfl
  | node i w l r hl hr =>
    rw [Tree.visit_node, Tree.leafNodes, List.map_append, List.map_append, ← hl, ← hr, List.map_map, List.map_map]
    rfl

/-- The codes of the table are in the order of their first difference, that of a single leaf included (R137, R139). -/
theorem codesOf_codes_lt (t : Tree) : ((codesOf t).map CodeEntry.code).Pairwise (· < ·) := by
  cases t with
  | leaf i a w => exact List.pairwise_singleton _ _
  | node i w l r => exact Tree.visit_codes_lt _

/-- Settles O29: the table is the visit of the tree from its root, whose codes are followed to the leaves. -/
theorem deriveCodesGivesTreePaths : Obligations.DeriveCodesGivesTreePaths := by
  intro s
  refine ⟨fun h => ?_, fun t h => ⟨codesOf t, ?_, codesOf_syms t, codesOf_codes_lt t, ?_, ?_⟩⟩
  · exact exec_deriveCodes (r := .error (.operandNotReady .tree)) (by rw [h]; rfl)
  · exact exec_deriveCodes (r := .ok t) (by rw [h]; rfl)
  · rintro i w l r rfl
    exact Tree.visit_leafNodes _
  · rintro i a w rfl
    rfl

/-! ### ENCODE -/

/-- Settles O32: the loop of R142 over a text all of whose symbols have entries, and up to the first symbol that has none. -/
theorem encodeConcatenatesCodes : Obligations.EncodeConcatenatesCodes := by
  intro s
  refine ⟨fun hx => ?_, fun hx ht => ?_, fun x table hx ht hall => ?_, fun x a y table hx ht hall ha => ?_⟩
  · exact exec_encode (r := .error (.operandNotReady .text)) (by rw [hx]; rfl)
  · obtain ⟨x, hx⟩ := Option.ne_none_iff_exists'.1 hx
    exact exec_encode (r := .error (.operandNotReady .code)) (by rw [hx, ht]; rfl)
  · exact exec_encode_of_ready hx ht (encodeFrom_ok table 0 x fun a h => codeFor_isSome.2 (hall a h))
  · have hnone : codeFor table a = none := by
      rw [← Option.not_isSome_iff_eq_none, codeFor_isSome]
      exact ha
    have herror := encodeFrom_error table 0 x y a (fun b h => codeFor_isSome.2 (hall b h)) hnone
    rw [Nat.zero_add] at herror
    exact exec_encode_of_ready hx ht herror

/-! ### Bitstrings as paths of a tree -/

/-- The bits lead from the root of the tree to a leaf with the symbol. -/
def Tree.LeadsTo (t : Tree) (q : Bits) (a : Symbol) : Prop := ∃ j v, t.follow q = some (.leaf j a v)

/-- The bits lead from the root of the tree to an internal node. -/
def Tree.EndsInside (t : Tree) (q : Bits) : Prop := ∃ j v l r, t.follow q = some (.node j v l r)

/-- No bits lead from a leaf to an internal node. -/
theorem not_endsInside_leaf (i : Nat) (a : Symbol) (w : Nat) (q : Bits) : ¬ (Tree.leaf i a w).EndsInside q := by
  rintro ⟨j, v, l, r, h⟩
  cases q <;> simp [Tree.follow] at h

/-- A path from an internal node to a leaf has a bit. -/
theorem ne_nil_of_leadsTo_node {i w : Nat} {l r : Tree} {q : Bits} {a : Symbol} (h : (Tree.node i w l r).LeadsTo q a) :
    q ≠ [] := by
  rintro rfl
  obtain ⟨j, v, h⟩ := h
  cases h

/-- Following bits from the root meets a leaf, or the bits run out at an internal node. -/
theorem Tree.endsInside_or_leadsTo (t : Tree) (b : Bits) :
    t.EndsInside b ∨ ∃ q a rest, b = q ++ rest ∧ t.LeadsTo q a := by
  induction t generalizing b with
  | leaf i a w => exact .inr ⟨[], a, b, rfl, i, w, rfl⟩
  | node i w l r hl hr =>
    match b with
    | [] => exact .inl ⟨i, w, l, r, rfl⟩
    | false :: b => exact (hl b).imp id fun ⟨q, a, rest, hb, hq⟩ => ⟨false :: q, a, rest, congrArg _ hb, hq⟩
    | true :: b => exact (hr b).imp id fun ⟨q, a, rest, hb, hq⟩ => ⟨true :: q, a, rest, congrArg _ hb, hq⟩

/-- With two leaves or more every bitstring is root-to-leaf paths and a rest that ends at an internal node (R148). -/
theorem exists_paths (i w : Nat) (l r : Tree) (b : Bits) :
    ∃ (paths : List Bits) (x : List Symbol) (rest : Bits), b = paths.flatten ++ rest ∧
      List.Forall₂ (Tree.node i w l r).LeadsTo paths x ∧ (Tree.node i w l r).EndsInside rest := by
  rcases (Tree.node i w l r).endsInside_or_leadsTo b with h | ⟨q, a, b', hb, hq⟩
  · exact ⟨[], [], b, rfl, .nil, h⟩
  · have hshorter : b'.length < b.length := by
      have hpos := List.length_pos_iff.2 (ne_nil_of_leadsTo_node hq)
      rw [hb, List.length_append]
      omega
    obtain ⟨paths, x, rest, hb', hpaths, hrest⟩ := exists_paths i w l r b'
    exact ⟨q :: paths, a :: x, rest, by rw [hb, hb', List.flatten_cons, List.append_assoc], .cons hq hpaths, hrest⟩
termination_by b.length

/-- The codes of a text over the tree's symbols are paths to leaves with the text's symbols (R137, R233). -/
theorem leadsTo_codes (i w : Nat) (l r : Tree) {x : List Symbol} (hx : ∀ a ∈ x, a ∈ (Tree.node i w l r).leafSymbols) :
    List.Forall₂ (Tree.node i w l r).LeadsTo (x.map fun a => (codeFor (codesOf (.node i w l r)) a).getD []) x := by
  rw [List.forall₂_map_left_iff, List.forall₂_same]
  intro a ha
  have hsome : (codeFor (codesOf (.node i w l r)) a).isSome := codeFor_isSome.2 (codesOf_syms _ ▸ hx a ha)
  obtain ⟨c, hc⟩ := Option.isSome_iff_exists.1 hsome
  rw [hc]
  exact Tree.visit_follow _ (codeFor_mem hc)

/-! ### DECODE -/

/-- The walk along root-to-leaf paths gives the leaves' symbols and is back at the root (R148). -/
theorem walk_paths (i w : Nat) (l r : Tree) {paths : List Bits} {x : List Symbol}
    (h : List.Forall₂ (Tree.node i w l r).LeadsTo paths x) (rest : Bits) (out : List Symbol) :
    walk l r l r false (paths.flatten ++ rest) out = walk l r l r false rest (out ++ x) := by
  induction h generalizing out with
  | nil => simp
  | cons hq _ ih =>
    obtain ⟨j, v, hq⟩ := hq
    rw [List.flatten_cons, List.append_assoc, walk_leaf l r l r i w false _ _ out j v _ hq, ih]
    simp

/-- The walk along bits that end at an internal node decodes nothing; it is a truncated stream unless it stays at the root (R149). -/
theorem walk_endsInside (i w : Nat) (l r : Tree) {rest : Bits} (h : (Tree.node i w l r).EndsInside rest) (out : List Symbol) :
    walk l r l r false rest out = if rest = [] then .ok out else .error (.truncatedStream out.length) := by
  obtain ⟨j, v, l', r', h⟩ := h
  by_cases hrest : rest = []
  · subst hrest
    rfl
  · have hwalk := walk_internal l r l r i w false rest [] out j v l' r' hrest h
    rw [List.append_nil] at hwalk
    rw [hwalk, if_neg hrest]
    rfl

/-- Decoding root-to-leaf paths and a rest that ends at an internal node (R148, R149). -/
theorem decodeBits_paths (i w : Nat) (l r : Tree) {paths : List Bits} {x : List Symbol} {rest : Bits}
    (h : List.Forall₂ (Tree.node i w l r).LeadsTo paths x) (hrest : (Tree.node i w l r).EndsInside rest) :
    decodeBits (.node i w l r) (paths.flatten ++ rest) =
      if rest = [] then .ok x else .error (.truncatedStream x.length) := by
  rw [decodeBits, walk_paths i w l r h, walk_endsInside i w l r hrest, List.nil_append]

/-- A truncated stream is DECODE's result whatever the number of symbols (R151). -/
theorem decodeText_error (c : Config) {t : Tree} {b : Bits} {f : Failure} (h : decodeBits t b = .error f) :
    decodeText c t b = .error f := by rw [decodeText, h]

/-- More than N_MAX symbols are CapacityExceeded (R151). -/
theorem decodeText_tooLong {c : Config} {t : Tree} {b : Bits} {x : List Symbol} (h : decodeBits t b = .ok x)
    (hx : c.nMax < x.length) : decodeText c t b = .error .capacityExceeded := by simp [decodeText, h, hx]

/-- At most N_MAX symbols are DECODE's result (R148). -/
theorem decodeText_ok {c : Config} {t : Tree} {b : Bits} {x : List Symbol} (h : decodeBits t b = .ok x)
    (hx : x.length ≤ c.nMax) : decodeText c t b = .ok x := by simp [decodeText, h, Nat.not_lt.2 hx]

/-- Settles O33: BITS is cut into paths and a rest, on which the walk is known. -/
theorem decodeReadsPathAfterPath : Obligations.DecodeReadsPathAfterPath := by
  intro s
  refine ⟨fun ht => ?_, fun ht hb => ?_, fun i a w b ht hb => ?_, ?_⟩
  · exact exec_decode (r := .error (.operandNotReady .tree)) (by rw [ht]; rfl)
  · obtain ⟨t, ht⟩ := Option.ne_none_iff_exists'.1 ht
    exact exec_decode (r := .error (.operandNotReady .bits)) (by rw [ht, hb]; rfl)
  · have hbits : decodeBits (.leaf i a w) b = .ok (List.replicate b.length a) := rfl
    have hlength : (List.replicate b.length a).length = b.length := List.length_replicate
    exact ⟨fun h => exec_decode_of_ready ht hb (decodeText_ok hbits (hlength.trans_le h)),
      fun h => exec_decode_of_ready ht hb (decodeText_tooLong hbits (h.trans_eq hlength.symm))⟩
  · rintro _ i w l r b ht rfl hb
    obtain ⟨paths, x, rest, rfl, hpaths, hrest⟩ := exists_paths i w l r b
    have hbits := decodeBits_paths i w l r hpaths hrest
    refine ⟨paths, x, rest, rfl, hpaths, hrest, fun h => ?_, fun h hx => ?_, fun h hx => ?_⟩
    · rw [if_neg h] at hbits
      exact exec_decode_of_ready ht hb (decodeText_error _ hbits)
    · rw [if_pos h] at hbits
      exact exec_decode_of_ready ht hb (decodeText_tooLong hbits hx)
    · rw [if_pos h] at hbits
      exact exec_decode_of_ready ht hb (decodeText_ok hbits hx)

/-- Settles O34: the codes of a text decode to the text (`decodeBits_encode`), which DTEXT cannot hold. -/
theorem decodeReportsCapacity : Obligations.DecodeReportsCapacity := by
  intro s t x ht hx hb hlong
  exact exec_decode_of_ready ht hb (decodeText_tooLong (decodeBits_encode t x hx) hlong)

/-- Settles O35: a tree in which bits lead to an internal node is no single leaf, and the text's codes are paths of it. -/
theorem decodeReportsTruncatedStream : Obligations.DecodeReportsTruncatedStream := by
  intro s t x p i w l r ht hx hp hfollow hb
  have hinside : t.EndsInside p := ⟨i, w, l, r, hfollow⟩
  cases t with
  | leaf j a v => exact absurd hinside (not_endsInside_leaf j a v p)
  | node j v l' r' =>
    have hbits := decodeBits_paths j v l' r' (leadsTo_codes j v l' r' hx) hinside
    rw [if_neg hp, ← List.flatMap_def] at hbits
    exact exec_decode_of_ready ht hb (decodeText_error _ hbits)

end Sys2Proof.Machine

/-! # PACK and UNPACK

The statements O37, O38 and O39 (spec R161 to R168).  Each command's next state is `State.finish` of what its sources give (`exec_pack`,
`exec_unpack`).  Where a bit lies is read off the expansion of the bytes: bit `j` of it is bit `7 − j mod 8` of byte `j div 8`
(`unpackBytes_getElem?`), and PACK's bytes expand to the padding and then BITS (`unpackBytes_packBits`). -/

namespace Sys2Proof.Machine

/-! ### The two commands on their sources -/

/-- PACK never stops the block and ends as its source says, BITS packed if BITS is valid (R161). -/
theorem exec_pack {s : State} {r : Except Failure Bits} (h : ready .bits s.bits = r) :
    exec .pack s = .next (s.finish .pack
      (fun b => { s with bytes := some (packBits b), pad := some (BitVec.ofNat 8 (padCount b.length)) }) r) := by
  rw [exec_eq_run, State.run, State.pack_eq_finish, h]

/-- UNPACK never stops the block and ends as its result says; BYTES is looked at before PAD (R166, R249). -/
theorem exec_unpack {s : State} {r : Except Failure Bits}
    (h : (ready .bytes s.bytes >>= fun bs => ready .pad s.pad >>= fun p => unpackBits bs p) = r) :
    exec .unpack s = .next (s.finish .unpack (fun b => { s with bits := some b }) r) := by
  rw [exec_eq_run, State.run, State.unpack_eq_finish, h]

/-- PACK with its source writes BITS packed and the padding count (R161). -/
theorem exec_pack_of_ready {s : State} {b : Bits} (hb : s.bits = some b) :
    exec .pack s = .next { s with
      bytes := some (packBits b), pad := some (BitVec.ofNat 8 (padCount b.length)), status := 0#4, errinfo := 0 } :=
  exec_pack (r := .ok b) (by rw [hb]; rfl)

/-- UNPACK with both sources ends as the dropping of PAD bits ends (R166). -/
theorem exec_unpack_of_ready {s : State} {bs : List Byte} {p : Byte} (hbs : s.bytes = some bs) (hp : s.pad = some p)
    {r : Except Failure Bits} (h : unpackBits bs p = r) :
    exec .unpack s = .next (s.finish .unpack (fun b => { s with bits := some b }) r) :=
  exec_unpack (by rw [hbs, hp, ready_some_bind, ready_some_bind, h])

/-! ### PACK -/

/-- Place `j` of PACK's bytes, most significant bit of each byte first, is place `j` of the padding and then BITS (R161). -/
theorem packBits_getElem? (b : Bits) (j : Nat) :
    ((packBits b)[j / 8]?).map (fun y => y.getLsbD (7 - j % 8)) = (List.replicate (padCount b.length) false ++ b)[j]? := by
  rw [← unpackBytes_getElem?, unpackBytes_packBits]

/-- BITS lies behind the padding: the whole bitstring is shifted right by the padding count (R161). -/
theorem packBits_bit (b : Bits) (i : Nat) :
    ((packBits b)[(padCount b.length + i) / 8]?).map (fun y => y.getLsbD (7 - (padCount b.length + i) % 8)) = b[i]? := by
  rw [packBits_getElem?, List.getElem?_append_right (by simp), List.length_replicate, Nat.add_sub_cancel_left]

/-- The padding is the most significant bits of byte 0, all zero (R161, R163 (e)). -/
theorem packBits_padding (b : Bits) {i : Nat} (hi : i < padCount b.length) :
    ((packBits b)[0]?).map (fun y => y.getLsbD (7 - i)) = some false := by
  have hi8 : i < 8 := hi.trans (padCount_lt b.length)
  have hplace := packBits_getElem? b i
  rw [Nat.div_eq_of_lt hi8, Nat.mod_eq_of_lt hi8] at hplace
  rw [hplace, List.getElem?_append_left (by simpa using hi), List.getElem?_replicate_of_lt hi]

/-- Settles O37: PACK with and without its source, the places read off the expansion of the bytes. -/
theorem packPlacesBits : Obligations.PackPlacesBits := by
  intro s
  refine ⟨fun hb => ?_, fun b hb => ⟨packBits b, exec_pack_of_ready hb, ?_, fun i _ => packBits_bit b i,
    fun i => packBits_padding b⟩⟩
  · exact exec_pack (r := .error (.operandNotReady .bits)) (by rw [hb]; rfl)
  · exact (packBits_length b).trans (padCount_div b.length).symm

/-- Settles O38: facts of the padding count and of the packed bytes, `padCount` and `packBits`. -/
theorem packKeepsTheContainerInvariant : Obligations.PackKeepsTheContainerInvariant := by
  intro s b hb
  have hlt := padCount_lt b.length
  have hadd := padCount_add b.length
  have hdiv := padCount_div b.length
  refine ⟨_, _, packBits b, exec_pack_of_ready hb, rfl, rfl, ?_⟩
  rw [padCount_toNat, packBits_length]
  refine ⟨by omega, by omega, rfl, hdiv.symm, by omega, fun i => packBits_padding b, fun h => ?_, fun h => ?_⟩
  · rw [padCount, h]
  · rw [padCount, h]

/-! ### UNPACK -/

/-- Bit `i` of what is left behind the padding is at place `p + i` of the bytes, most significant bit of each byte first (R166). -/
theorem drop_unpackBytes_getElem? (bs : List Byte) (p i : Nat) :
    ((unpackBytes bs).drop p)[i]? = (bs[(p + i) / 8]?).map fun y => y.getLsbD (7 - (p + i) % 8) := by
  rw [List.getElem?_drop, unpackBytes_getElem?]

/-- Settles O39: UNPACK without one of its sources, and the two results of `unpackBits_spec`, whose conditions exclude each other. -/
theorem unpackExpandsAndDrops : Obligations.UnpackExpandsAndDrops := by
  intro s
  refine ⟨fun hbs => ?_, fun hbs hp => ?_, fun bs p hbs hp => ?_⟩
  · exact exec_unpack (r := .error (.operandNotReady .bytes)) (by rw [hbs]; rfl)
  · obtain ⟨bs, hbs⟩ := Option.ne_none_iff_exists'.1 hbs
    exact exec_unpack (r := .error (.operandNotReady .pad)) (by rw [hbs, hp]; rfl)
  · rcases unpackBits_spec bs p with ⟨h7, hlen, hok⟩ | ⟨hbad, herror⟩
    · refine ⟨fun _ _ => ⟨_, exec_unpack_of_ready hbs hp hok, ?_, drop_unpackBytes_getElem? bs p.toNat⟩, fun h => ?_⟩
      · rw [List.length_drop, unpackBytes_length]
      · omega
    · exact ⟨fun _ _ => by omega, fun _ => exec_unpack_of_ready hbs hp herror⟩

end Sys2Proof.Machine

/-! # SERIALIZE and DESERIALIZE

The statements O41, O42, O45, O47 and O48 (spec R88 to R99, R177 to R189).  SERIALIZE writes `Container.wire`, whose pieces are read off
place by place.  DESERIALIZE ends as `deserializeBlob` ends on BLOB (`exec_deserialize_of_ready`), and that function is known from the
wire format alone: of a blob it is the capacity check (`deserializeBlob_blob`), and it is CorruptContainer exactly where the table of
causes has a violation (`deserializeBlob_corrupt_iff`). -/

namespace Sys2Proof.Machine

/-! ### What SERIALIZE writes -/

/-- Byte `j` of a big-endian number is its digit of weight 256^(n − 1 − j) (R64). -/
theorem beN_getElem? (n v : Nat) {j : Nat} (hj : j < n) : (beN n v)[j]? = some (BitVec.ofNat 8 (v / 256 ^ (n - 1 - j))) := by
  induction n generalizing j with
  | zero => omega
  | succ n ih =>
    rw [beN, Nat.add_sub_cancel]
    cases j with
    | zero => rfl
    | succ j => rw [List.getElem?_cons_succ, ih (by omega), show n - 1 - j = n - (j + 1) by omega]

/-- The length of a tree's record with m leaves: m Leaf records and m − 1 tags (R98, R100). -/
theorem Tree.wire_length_eq (c : Config) (t : Tree) :
    (t.wire c).length = t.leafSymbols.length * (1 + c.symb) + (t.leafSymbols.length - 1) := by
  have hwire := t.wire_length c
  have hleaf := leafSymbols_length t
  omega

/-- Settles O41: SERIALIZE succeeds with `Container.wire`, whose pieces and length are what the rules say. -/
theorem serializeWritesABlob : Obligations.SerializeWritesABlob := by
  intro s t table bytes p ht hc hb hp h7
  refine ⟨⟨_, (exec_eq_run .serialize s).trans (congrArg _ (State.serialize_ok hb ht hc hp h7)), rfl, ?_⟩,
    fun _ _ _ => rfl, fun _ _ _ _ => rfl, fun e => ?_, fun n v => ?_⟩
  · rw [Container.wire_length, Tree.wire_length_eq]
  · exact ⟨packBits e.code, rfl, packBits_length e.code, fun j _ => packBits_getElem? e.code j⟩
  · exact ⟨beN_length n v, fun j hj => by rw [beN_getElem? n v hj, Option.map_some, BitVec.toNat_ofNat]⟩

/-- Settles O42: a padding count above 7 has no serialized form. -/
theorem serializeRejectsBadPadding : Obligations.SerializeRejectsBadPadding := by
  intro s t table bytes p ht hc hb hp h7
  exact (exec_eq_run .serialize s).trans (congrArg _ (State.serialize_error hb ht hc hp h7))

/-! ### What DESERIALIZE's function makes of a blob, and of what is none -/

/-- The capacities are those of the container, whatever its tree's layout (R187). -/
theorem tooLarge_recon (c : Config) (k : Container) (i : Nat) :
    ({ k with tree := k.tree.recon i } : Container).tooLarge c = k.tooLarge c := by
  simp only [Container.tooLarge, Tree.recon_size]

/-- Of a blob of a container only the capacities are left to ask for (R99, R187). -/
theorem deserializeBlob_blob {c : Config} {k : Container} {z : List Byte} (h : IsBlobOf c k z) :
    deserializeBlob c z = if k.tooLarge c then .error .capacityExceeded else .ok { k with tree := k.tree.recon 0 } := by
  rw [deserializeBlob, parseContainer_blob c k z h]
  simp only [tooLarge_recon]

/-- What DESERIALIZE accepts is a blob of the container it gives (R99). -/
theorem isBlobOf_of_deserializeBlob {c : Config} {z : List Byte} {k : Container} (h : deserializeBlob c z = .ok k) :
    IsBlobOf c k z := by
  rcases deserializeBlob_spec c z with ⟨k', e, ⟨P⟩, -⟩ | ⟨_, e, -⟩ | ⟨_, e, -⟩ <;> rw [h] at e <;> cases e
  exact isBlobOf_of_parsed P

/-- What is larger than the block can hold (R187). -/
theorem tooLarge_iff {c : Config} {k : Container} : k.tooLarge c = true ↔
    c.bytesMax < k.bytes.length ∨ c.nodeMax < k.tree.size ∨ c.codeMax < k.codes.length ∨
      ∃ e ∈ k.codes, c.codelenMax < e.code.length := by
  simp [Container.tooLarge, or_assoc]

/-- CorruptContainer comes from the structural part alone, with the place of the violation (R183). -/
theorem deserializeBlob_corrupt_iff (c : Config) (z : List Byte) (off : Nat) :
    deserializeBlob c z = .error (.corruptContainer off) ↔ Violation c z off := by
  rw [← parseContainer_iff]
  rcases parseContainer_spec c z with ⟨k, e, -⟩ | ⟨off', e, -⟩
  · cases hl : k.tooLarge c <;> simp [deserializeBlob, e, hl]
  · simp [deserializeBlob, e]

/-- A byte sequence has a violation or is a blob of some container, never both (R99, R183). -/
theorem exists_violation_iff (c : Config) (z : List Byte) : (∃ off, Violation c z off) ↔ ∀ k, ¬ IsBlobOf c k z := by
  constructor
  · rintro ⟨off, hv⟩ k hk
    have hparse := parseContainer_of_violation hv
    rw [parseContainer_blob c k z hk] at hparse
    cases hparse
  · intro hno
    rcases parseContainer_spec c z with ⟨k, -, ⟨P⟩⟩ | ⟨off, e, -⟩
    · exact absurd (isBlobOf_of_parsed P) (hno k)
    · exact ⟨off, (parseContainer_iff c z off).1 e⟩

/-- A violation lies in the blob or at its end (R183). -/
theorem Violation.le_length {c : Config} {z : List Byte} {off : Nat} (h : Violation c z off) : off ≤ z.length := by
  rcases parseContainer_spec c z with ⟨k, e, -⟩ | ⟨off', e, hoff⟩ <;> rw [parseContainer_of_violation h] at e
  · cases e
  · cases e
    exact hoff

/-! ### DESERIALIZE -/

/-- What DESERIALIZE writes of a container (R182). -/
def State.unwrap (s : State) (k : Container) : State :=
  { s with bytes := some k.bytes, tree := some k.tree, treeKind := .recon, code := some k.codes, pad := some k.pad }

/-- DESERIALIZE with BLOB valid ends as its function ends on the blob (R182). -/
theorem exec_deserialize_of_ready {s : State} {z : List Byte} (hz : s.blob = some z) {r : Except Failure Container}
    (h : deserializeBlob s.config z = r) : exec .deserialize s = .next (s.finish .deserialize s.unwrap r) := by
  have hr : (ready .blob s.blob >>= deserializeBlob s.config) = r := by rw [hz, ready_some_bind, h]
  rw [exec_eq_run, State.run, State.deserialize_eq_finish, hr]
  rfl

/-- A command that ends with STATUS 0 had a result (R241, R251). -/
theorem State.ok_of_finish_status {α : Type} {s : State} {i : Instr} {w : α → State} {r : Except Failure α}
    (h : (s.finish i w r).status = 0#4) : ∃ v, r = .ok v := by
  cases r with
  | error f => exact absurd ((State.failWith_status _ f s).symm.trans h) f.code_ne_zero
  | ok v => exact ⟨v, rfl⟩

/-- STATUS 6 is CorruptContainer's alone, and ERRINFO its offset (R241). -/
theorem Failure.eq_corruptContainer {f : Failure} {off : Nat} (hcode : f.code = 6#4) (hinfo : f.info = off) :
    f = .corruptContainer off := by
  cases f
  case corruptContainer => exact congrArg _ hinfo
  all_goals simp [Failure.code] at hcode

/-- A command ends in CorruptContainer at an offset exactly if that was its result (R241, R251). -/
theorem State.finish_eq_corrupt_iff {α : Type} {s : State} {i : Instr} {w : α → State} {r : Except Failure α} {off : Nat} :
    s.finish i w r = s.fail i (.corruptContainer off) ↔ r = .error (.corruptContainer off) := by
  constructor
  · intro h
    cases r with
    | error f =>
      have hstatus : f.code = 6#4 := by simpa [State.finish, State.fail, Failure.code] using congrArg State.status h
      have hinfo : f.info = off := by simpa [State.finish, State.fail, Failure.info] using congrArg State.errinfo h
      rw [Failure.eq_corruptContainer hstatus hinfo]
    | ok v => exact absurd (congrArg State.status h) (by simp [State.finish, State.fail, Failure.code])
  · rintro rfl
    rfl

/-- DESERIALIZE ends in CorruptContainer at an offset exactly where the blob has a violation (R183). -/
theorem exec_deserialize_corrupt_iff {s : State} {z : List Byte} (hz : s.blob = some z) (off : Nat) :
    exec .deserialize s = .next (s.fail .deserialize (.corruptContainer off)) ↔ Violation s.config z off := by
  rw [exec_deserialize_of_ready hz rfl, Host.Outcome.next.injEq, State.finish_eq_corrupt_iff, deserializeBlob_corrupt_iff]

/-- Settles O48: the parser's rejections are the violations, and what has none is a blob. -/
theorem deserializeNamesTheFirstViolation : Obligations.DeserializeNamesTheFirstViolation :=
  fun s z hz => ⟨exec_deserialize_corrupt_iff hz, exists_violation_iff s.config z⟩

/-- Settles O47: an accepted blob is a blob, so each of its proper prefixes ends early. -/
theorem deserializeRejectsProperPrefixes : Obligations.DeserializeRejectsProperPrefixes := by
  intro s t z n hz ht hstatus hn
  rw [exec_deserialize_of_ready hz rfl, Host.Outcome.next.injEq] at ht
  subst ht
  obtain ⟨k, hk⟩ := State.ok_of_finish_status hstatus
  have hblob : IsBlobOf s.config k z := isBlobOf_of_deserializeBlob hk
  have hcut : Violation s.config (z.take n) (z.take n).length :=
    .endsEarly k (z.take n) (z.drop n) (by simpa using hn) (by rwa [List.take_append_drop])
  rw [List.length_take_of_le hn.le] at hcut
  exact (exec_deserialize_corrupt_iff (s := { s with blob := some (z.take n) }) rfl n).2 hcut

/-- Settles O45: of a blob the capacities decide, and what is none has a violation. -/
theorem deserializeChecksCapacities : Obligations.DeserializeChecksCapacities := by
  intro s z hz
  refine ⟨fun k hk => ⟨fun hlarge => ?_, fun hbytes hnodes hcodes hlen => ?_⟩, fun hno => ?_⟩
  · have hcheck := deserializeBlob_blob hk
    rw [if_pos (tooLarge_iff.2 hlarge)] at hcheck
    exact exec_deserialize_of_ready hz hcheck
  · have hcheck := deserializeBlob_blob hk
    have hfits : k.tooLarge s.config = false := tooLarge_false_iff.2 ⟨hbytes, hnodes, hcodes, hlen⟩
    rw [hfits, if_neg Bool.false_ne_true] at hcheck
    obtain ⟨-, -, hlaid, -⟩ := fits_of_deserializeBlob hcheck
    simp only [laidOut, Bool.and_eq_true, decide_eq_true_eq] at hlaid
    obtain ⟨-, hindices, hweights⟩ := hlaid
    exact ⟨k.tree.recon 0, exec_deserialize_of_ready hz hcheck, k.tree.shape_recon 0, hindices, hweights⟩
  · obtain ⟨off, hv⟩ := (exists_violation_iff s.config z).2 hno
    exact ⟨off, hv.le_length, (exec_deserialize_corrupt_iff hz off).2 hv⟩

end Sys2Proof.Machine

/-! # Composite and system commands, and the host's port

The statements O5, O7, O8, O9, O49, O50, O52, O55 and O57 (spec/45_composite_and_system.md R201 to R213).  COMPRESS and CLEAR are their
closed forms (`State.compress_ok`, `State.compress_failed`, `State.clear_eq`).  DECOMPRESS is known twice: it is its three single
commands, which do not notice that its first line took the values of later destinations away (`State.decompress_eq_steps`); and it ends
in one of four ways (`State.decompress_cases`), from which its failure kinds are read off. -/

namespace Sys2Proof.Machine

/-- A command's step is the state it leaves (R14, R240). -/
theorem exec_of_run {i : Instr} {s t : State} (h : s.run i = t) : exec i s = .next t := by rw [exec_eq_run, h]

/-- A buffer made invalid holds no value (R24, R25); a failure's operation makes the same buffers invalid (`isValid_failWith`). -/
theorem isValid_invalidateAll (s : State) {ds : List BufId} {b : BufId} (hb : b ∈ ds) :
    (s.invalidateAll ds).isValid b = false := by
  have h := State.isValid_failWith ds .emptyInput s b
  rw [decide_eq_false (not_not.2 hb), Bool.false_and] at h
  exact h

/-! ### COMPRESS -/

/-- COMPRESS without a symbol to count: ANALYZE's failure, and all seven destinations are invalid (R202). -/
theorem State.compress_failed {s : State} {f : Failure} (c : Config)
    (h : (s.text = none ∧ f = .operandNotReady .text) ∨ (s.text = some [] ∧ f = .emptyInput)) :
    (s.compress c).status = f.code ∧ (s.compress c).errinfo = f.info ∧
      ∀ b ∈ destinations .compress, (s.compress c).isValid b = false := by
  rw [State.compress_error c h]
  exact ⟨rfl, rfl, fun b hb => isValid_invalidateAll s hb⟩

/-- Settles O49: COMPRESS without TEXT, of the empty text, and of another. -/
theorem compressSucceedsOnEveryText : Obligations.CompressSucceedsOnEveryText := by
  intro s
  refine ⟨_, exec_eq_run .compress s, fun h => ?_, fun h => ?_, fun x h hx => ?_⟩
  · exact State.compress_failed s.config (.inl ⟨h, rfl⟩)
  · exact State.compress_failed s.config (.inr ⟨h, rfl⟩)
  · obtain ⟨t, -, hcompress⟩ := State.compress_ok s.config h hx
    rw [State.run, hcompress]
    exact ⟨rfl, rfl, rfl, by simp [destinations, State.isValid, compressed]⟩

/-- ENCODE of a text under the codes of its own tree finds every symbol (R142, R202). -/
theorem encodeFrom_codesOf {x : List Symbol} {t : Tree} (ht : buildTreeOf (frequencies x) = .ok t) :
    encodeFrom (codesOf t) 0 x = .ok (payload t x) :=
  encodeFrom_ok _ 0 x fun a ha => codeFor_isSome.2 (codesOf_syms t ▸ (mem_leafSymbols_of_text ht a).2 ha)

/-- PAD after a PACK has a serialized form (R160, R202). -/
theorem padCount_toNat_le (n : Nat) : (BitVec.ofNat 8 (padCount n)).toNat ≤ 7 := by
  have := padCount_lt n
  rw [padCount_toNat]
  omega

/-- On a text that is not empty each of the six commands succeeds on what the one before it wrote, and together they write what COMPRESS
does (R201, R203). -/
theorem run_compress_eq_steps {s : State} {x : List Symbol} (htext : s.text = some x) (hx : x ≠ []) :
    s.run .compress =
      (((((s.run .analyze).run .buildTree).run .deriveCodes).run .encode).run .pack).run .serialize := by
  obtain ⟨t, ht, hcompress⟩ := State.compress_ok s.config htext hx
  simp only [State.run]
  rw [hcompress, State.analyze_ok htext hx, State.buildTree_ok (f := frequencies x) ?_ ht, State.deriveCodes_ok (t := t) ?_,
    State.encode_ok ?text ?_ (encodeFrom_codesOf ht), State.pack_ok (b := payload t x) ?_,
    State.serialize_ok (bs := packBits (payload t x)) ?_ ?_ ?_ ?_ (padCount_toNat_le (payload t x).length)]
  case text => exact htext
  all_goals rfl

/-- Settles O50: the six commands, run one after the other, leave what COMPRESS leaves. -/
theorem compressIsTheSixCommands : Obligations.CompressIsTheSixCommands := fun s _ htext hx =>
  ⟨_, _, _, _, _, _, exec_eq_run .analyze s, exec_eq_run .buildTree _, exec_eq_run .deriveCodes _, exec_eq_run .encode _,
    exec_eq_run .pack _, exec_eq_run .serialize _, exec_of_run (run_compress_eq_steps htext hx)⟩

/-! ### DECOMPRESS of a COMPRESS -/

/-- DESERIALIZE's layout has weights 0 (R186). -/
theorem Tree.weightless_recon (t : Tree) (i : Nat) : (t.recon i).weightless = true := by
  induction t generalizing i with
  | leaf => rfl
  | node j w l r hl hr => simp [Tree.recon, Tree.weightless, hl, hr]

/-- Settles O52: DECOMPRESS of the container that COMPRESS leaves in BLOB (`State.decompress_of_compressed`). -/
theorem decompressUndoesCompress : Obligations.DecompressUndoesCompress := by
  intro s x hlegal htext hx hlen hsym
  obtain ⟨t, ht, hcompress⟩ := State.compress_ok s.config htext hx
  have hdecompress := State.decompress_of_compressed hlegal (fitsText_iff.2 ⟨hlen, hsym⟩) ht (compressed_blob s.config s x t)
  exact ⟨_, _, t, t.recon 0, exec_of_run hcompress, exec_of_run hdecompress, rfl, rfl, rfl, htext, rfl, rfl, rfl, rfl, rfl, rfl,
    t.shape_recon 0, t.weightless_recon 0, rfl⟩

/-! ### DECOMPRESS and its three commands

A command's end does not depend on values that it will overwrite, nor on those of buffers that only a later step writes. -/

/-- DESERIALIZE as the first step of a DECOMPRESS, whose first line has taken all six values away (R204). -/
theorem State.deserialize_invalidated (c : Config) (s : State) :
    (s.invalidateAll (destinations .decompress)).deserialize c = { s.deserialize c with bits := none, dtext := none } := by
  simp only [State.deserialize_eq_finish, State.invalidateAll_blob, destinations, List.mem_cons, List.not_mem_nil, reduceCtorEq,
    or_self, if_false]
  cases ready .blob s.blob >>= deserializeBlob c <;> rfl

/-- UNPACK overwrites BITS or makes it invalid, and does not look at DTEXT (R82, R166). -/
theorem State.unpack_without_destinations (s : State) :
    ({ s with bits := none, dtext := none } : State).unpack = { s.unpack with dtext := none } := by
  simp only [State.unpack_eq_finish]
  cases ready .bytes s.bytes >>= fun bs => ready .pad s.pad >>= fun p => unpackBits bs p <;> rfl

/-- DECODE overwrites DTEXT or makes it invalid (R148, R251). -/
theorem State.decode_without_destination (c : Config) (s : State) :
    ({ s with dtext := none } : State).decode c = s.decode c := by
  simp only [State.decode_eq_finish]
  cases ready .tree s.tree >>= fun t => ready .bits s.bits >>= fun b => decodeText c t b <;> rfl

/-- DECOMPRESS is its three commands, the first failure ending it (R204). -/
theorem State.decompress_eq_steps (c : Config) (s : State) :
    s.decompress c =
      if (s.deserialize c).status = 0#4 then
        if (s.deserialize c).unpack.status = 0#4 then (s.deserialize c).unpack.decode c
        else { (s.deserialize c).unpack with dtext := none }
      else { s.deserialize c with bits := none, dtext := none } := by
  simp only [State.decompress, runSteps, State.deserialize_invalidated, State.unpack_without_destinations,
    State.decode_without_destination, ite_self]

/-! ### How DECOMPRESS ends -/

/-- A padding count that DESERIALIZE accepts is at most 7 (R182, R183). -/
theorem pad_le_of_deserializeBlob {c : Config} {z : List Byte} {k : Container} (h : deserializeBlob c z = .ok k) :
    k.pad.toNat ≤ 7 := (isBlobOf_of_deserializeBlob h).1.pad

/-- UNPACK inside a DECOMPRESS fails on an empty payload alone (R205). -/
theorem unpackBits_error_of_deserializeBlob {c : Config} {z : List Byte} {k : Container} (h : deserializeBlob c z = .ok k)
    {f : Failure} (hu : unpackBits k.bytes k.pad = .error f) :
    f = .invalidPadding k.pad ∧ k.bytes = [] ∧ 1 ≤ k.pad.toNat ∧ k.pad.toNat ≤ 7 := by
  have h7 := pad_le_of_deserializeBlob h
  rcases unpackBits_spec k.bytes k.pad with ⟨-, -, e⟩ | ⟨hbad, e⟩ <;> rw [hu] at e <;> cases e
  exact ⟨rfl, List.length_eq_zero_iff.1 (by omega), by omega, h7⟩

/-- DECODE's function fails in two ways (R149, R151). -/
theorem code_of_decodeText_error {c : Config} {t : Tree} {b : Bits} {f : Failure} (h : decodeText c t b = .error f) :
    f.code = 4#4 ∨ f.code = 7#4 := by
  obtain ⟨y, -, -, ⟨-, -, e⟩ | ⟨-, -, e⟩ | ⟨-, e⟩⟩ := decodeText_spec c t b <;> rw [h] at e <;> cases e
  · exact .inr rfl
  · exact .inl rfl

/-- DESERIALIZE's function fails in two ways (R183, R187). -/
theorem code_of_deserializeBlob_error {c : Config} {z : List Byte} {f : Failure} (h : deserializeBlob c z = .error f) :
    f.code = 6#4 ∨ f.code = 7#4 := by
  rcases deserializeBlob_spec c z with ⟨k, e, -⟩ | ⟨k, e, -⟩ | ⟨off, e, -⟩ <;> rw [h] at e <;> cases e
  · exact .inr rfl
  · exact .inl rfl

/-- Everything DECOMPRESS can do, by the step that ends it (R204, R205). -/
theorem State.decompress_cases (c : Config) (s : State) :
    (∃ f : Failure, (f.code = 6#4 ∨ f.code = 7#4 ∨ f.code = 8#4) ∧ s.decompress c =
      { s.invalidateAll (destinations .decompress) with treeKind := .built, status := f.code, errinfo := f.info }) ∨
    (∃ k : Container, k.bytes = [] ∧ 1 ≤ k.pad.toNat ∧ k.pad.toNat ≤ 7 ∧
      s.decompress c = { unwrapped s k with status := 5#4, errinfo := k.pad.toNat }) ∨
    (∃ (k : Container) (b : Bits) (f : Failure), (f.code = 4#4 ∨ f.code = 7#4) ∧
      s.decompress c = { unwrapped s k with bits := some b, status := f.code, errinfo := f.info }) ∨
    ∃ (k : Container) (b : Bits) (x : List Symbol), s.decompress c = { unwrapped s k with bits := some b, dtext := some x } := by
  cases hz : s.blob with
  | none => exact .inl ⟨.operandNotReady .blob, .inr (.inr rfl), State.decompress_blob_none c hz⟩
  | some z =>
    cases hk : deserializeBlob c z with
    | error f =>
      exact .inl ⟨f, (code_of_deserializeBlob_error hk).imp_right .inl, State.decompress_deserialize_error c hz hk⟩
    | ok k =>
      cases hu : unpackBits k.bytes k.pad with
      | error f =>
        obtain ⟨rfl, hempty, h1, h7⟩ := unpackBits_error_of_deserializeBlob hk hu
        exact .inr (.inl ⟨k, hempty, h1, h7, State.decompress_unpack_error c hz hk hu⟩)
      | ok b =>
        cases hd : decodeText c k.tree b with
        | error f =>
          exact .inr (.inr (.inl ⟨k, b, f, code_of_decodeText_error hd, State.decompress_decode_error c hz hk hu hd⟩))
        | ok x => exact .inr (.inr (.inr ⟨k, b, x, State.decompress_ok c hz hk hu hd⟩))

/-- Settles O55: where DECOMPRESS ends is read off its steps, and what it leaves off the four ways it can end. -/
theorem decompressFailureKinds : Obligations.DecompressFailureKinds := by
  intro s
  have hconfig : (s.deserialize s.config).unpack.config = s.config :=
    (State.unpack_ends _).config_eq.trans (s.deserialize_ends s.config).config_eq
  have hdecode := exec_eq_run .decode (s.deserialize s.config).unpack
  rw [State.run, hconfig] at hdecode
  have hsteps := s.decompress_eq_steps s.config
  refine ⟨_, _, _, _, exec_eq_run .deserialize s, exec_eq_run .unpack _, hdecode, exec_eq_run .decompress s, fun h => ?_,
    fun h h' => ?_, fun h h' => ?_, ?_⟩
  · exact hsteps.trans (if_neg h)
  · exact (hsteps.trans (if_pos h)).trans (if_neg h')
  · exact (hsteps.trans (if_pos h)).trans (if_pos h')
  · rw [State.run]
    rcases s.decompress_cases s.config with ⟨f, hf, e⟩ | ⟨k, hempty, h1, h7, e⟩ | ⟨k, b, f, hf, e⟩ |
      ⟨k, b, x, e⟩ <;> rw [e]
    · rcases hf with hf | hf | hf <;> simp [hf, destinations, State.isValid]
    · simp [unwrapped, destinations, State.isValid, hempty, h1, h7]
    · rcases hf with hf | hf <;> simp [unwrapped, hf, State.isValid]
    · simp [unwrapped, State.isValid]

/-! ### CLEAR -/

/-- Settles O57: CLEAR is a reset of the block (`State.clear_eq`). -/
theorem clearReturnsToReset : Obligations.ClearReturnsToReset := fun s =>
  ⟨_, exec_of_run s.clear_eq, rfl, fun b => by cases b <;> rfl, rfl, rfl, rfl, rfl, rfl, rfl⟩

/-! ### The host's port -/

/-- Settles O5: issuing a byte is an action the host always has, and its effect is the decoded command's. -/
theorem stepRunsTheIssuedCommand : Obligations.StepRunsTheIssuedCommand := by
  intro s b rest i hs hdecode
  rw [step_of_available hs rfl, exec_eq_run, State.perform, hdecode]

/-- A step that loads is the load with the block's capacities, the action taken off (R210, R213). -/
theorem step_load {s : State} {v : BufVal} {rest : List HostAction} (hs : s.host = .load v :: rest) :
    step s = hostLoad s.config v { s with host := rest } := by
  rw [step, hs]

/-- An outcome that a check decides between two, the check standing for a proposition. -/
theorem outcome_of_check {o a b : Host.Outcome State Fault Refusal} {check : Bool} {P : Prop}
    (ho : o = if check then a else b) (hP : check = true ↔ P) : (P → o = a) ∧ (¬ P → o = b) :=
  ⟨fun h => ho.trans (if_pos (hP.2 h)), fun h => ho.trans (if_neg fun hc => h (hP.1 hc))⟩

/-- The same for a check that a length is within a capacity. -/
theorem outcome_of_capacity {o a b : Host.Outcome State Fault Refusal} {check : Bool} {m n : Nat}
    (ho : o = if check then a else b) (hP : check = true ↔ m ≤ n) : (m ≤ n → o = a) ∧ (n < m → o = b) :=
  (outcome_of_check ho hP).imp_right fun h hlt => h (Nat.not_le.2 hlt)

/-- Settles O7: each load is decided by the check of its buffer's type and capacity. -/
theorem stepLoadsBuffer : Obligations.StepLoadsBuffer := fun _ _ =>
  ⟨fun _ hs => outcome_of_check (step_load hs) fitsText_iff, fun _ hs => outcome_of_check (step_load hs) fitsFreq_iff,
    fun _ hs => outcome_of_check (step_load hs) fitsCode_iff, fun _ hs => outcome_of_capacity (step_load hs) fitsBits_iff,
    fun _ hs => outcome_of_capacity (step_load hs) fitsBytes_iff, fun _ hs => step_load hs,
    fun _ hs => outcome_of_capacity (step_load hs) fitsBlob_iff, fun _ _ _ hs => step_load hs, fun _ hs => step_load hs⟩

/-- A host read of a buffer with contents delivers them (R211). -/
theorem step_read {s : State} {b : BufId} {rest : List HostAction} {v : BufVal} (hs : s.host = .read b :: rest)
    (hv : s.bufRead b = some v) : step s = .next { s with host := rest, reply := some (.buffer v) } := by
  have hv' : ({ s with host := rest } : State).bufRead b = some v := by rw [← hv]; cases b <;> rfl
  simp [step, hs, hostRead, hv']

/-- A host read of an invalid buffer has no value to deliver (R211, log 8). -/
theorem step_read_invalid {s : State} {b : BufId} {rest : List HostAction} (hs : s.host = .read b :: rest)
    (hb : s.isValid b = false) : step s = .refused (.readInvalid b) := by
  have hv : ({ s with host := rest } : State).bufRead b = none := by
    rw [← Option.isNone_iff_eq_none, ← Option.not_isSome, isSome_bufRead]
    exact congrArg not hb
  simp [step, hs, hostRead, hv]

/-- Settles O8: every buffer's contents, TREE's being its arena, which reads back as the tree (`treeOf_of_records`). -/
theorem stepReadsBuffer : Obligations.StepReadsBuffer := by
  intro s rest
  refine ⟨fun b => step_read_invalid, ?_, ?_, fun t hs ht hperm => ?_, ?_, ?_, ?_, ?_, ?_, ?_⟩
  case refine_3 =>
    obtain ⟨hlen, hrecords⟩ := t.arena_spec hperm
    exact ⟨t.arena, step_read hs (by rw [State.bufRead, ht, Option.map_some]), hlen, treeOf_of_records _ t hrecords _ le_rfl⟩
  all_goals exact fun v hs hv => step_read hs (by rw [State.bufRead, hv, Option.map_some])

/-- A register read delivers the register's number (R212). -/
theorem step_readReg {s : State} {r : RegId} {rest : List HostAction} {n : Nat} (hs : s.host = .readReg r :: rest)
    (hn : s.regRead r = some n) : step s = .next { s with host := rest, reply := some (.register r n) } := by
  have hn' : ({ s with host := rest } : State).regRead r = some n := by rw [← hn]; cases r <;> rfl
  simp [step, hs, hostReadReg, hn']

/-- A register computed from a buffer reads 0 without a value, and of a value what it computes (R28, R35, log 11). -/
theorem elim_zero_spec {α : Type} (o : Option α) (g : α → Nat) :
    (o = none → o.elim 0 g = 0) ∧ ∀ v, o = some v → o.elim 0 g = g v := by
  refine ⟨?_, ?_⟩
  · rintro rfl
    rfl
  · rintro v rfl
    rfl

/-- TREE_KIND reads 0 for BUILT and 1 for RECON (R36). -/
theorem TreeKind.bit_spec (k : TreeKind) : (k.bit = 0 ↔ k = .built) ∧ (k.bit = 1 ↔ k = .recon) := by cases k <;> decide

/-- Settles O9: CMD has no read value, and the number of any other register is `State.regRead`'s. -/
theorem stepReadsRegister : Obligations.StepReadsRegister := by
  intro s r rest hs
  refine ⟨?_, fun hr => ?_⟩
  · rintro rfl
    simp [step, hs, hostReadReg, State.regRead]
  · obtain ⟨n, hn⟩ := Option.isSome_iff_exists.1 ((isSome_regRead s r).trans (decide_eq_true hr))
    have hread (r' : RegId) (m : Nat) (h : r = r') (hm : s.regRead r' = some m) : m = n :=
      Option.some.inj (hm.symm.trans (h ▸ hn))
    refine ⟨n, step_readReg hs hn, fun h => (hread _ _ h rfl).symm, fun h => (hread _ _ h rfl).symm,
      fun h => (hread _ _ h rfl).symm, fun h => hread _ _ h rfl ▸ s.treeKind.bit_spec, ?_⟩
    exact ⟨fun h => hread _ _ h rfl ▸ elim_zero_spec s.tree Tree.idx,
      fun h => hread _ _ h rfl ▸ elim_zero_spec s.tree Tree.size,
      fun h => hread _ _ h rfl ▸ elim_zero_spec s.text List.length,
      fun h => hread _ _ h rfl ▸ elim_zero_spec s.freq List.length,
      fun h => hread _ _ h rfl ▸ elim_zero_spec s.code List.length,
      fun h => hread _ _ h rfl ▸ elim_zero_spec s.bits List.length,
      fun h => hread _ _ h rfl ▸ elim_zero_spec s.bytes List.length,
      fun h => hread _ _ h rfl ▸ elim_zero_spec s.blob List.length,
      fun h => hread _ _ h rfl ▸ elim_zero_spec s.dtext List.length,
      fun h => hread _ _ h rfl ▸ elim_zero_spec s.pad BitVec.toNat⟩

end Sys2Proof.Machine

/-! # The laws of the system

The statements O30, O31, O36, O40, O44, O46, O51, O53, O54 and O56 (spec/46_laws.md R220 to R233).  Each inverse pair is the inverse law
of the two functions (`decodeText_payload`, `unpackBits_packBits`, `deserializeBlob_wire`) carried over to the commands; the round
trip by the blob alone is `State.decompress_of_compressed`.  The law of the payload's length has its own induction, over the tree
(`Tree.sum_visit`). -/

namespace Sys2Proof.Machine

/-! ### The codes of a tree: none begins another, and none is missing -/

/-- DERIVE_CODES with its source writes the tree's codes (R137). -/
theorem exec_deriveCodes_of_ready {s : State} {t : Tree} (ht : s.tree = some t) :
    exec .deriveCodes s = .next { s with code := some (codesOf t), status := 0#4, errinfo := 0 } :=
  exec_deriveCodes (r := .ok t) (by rw [ht]; rfl)

/-- No derived code begins another entry's code; a single leaf has one entry and nothing to compare (R224). -/
theorem codesOf_prefixFree (t : Tree) :
    (codesOf t).Pairwise fun a b => ¬ a.code <+: b.code ∧ ¬ b.code <+: a.code := by
  cases t with
  | leaf i a w => exact List.pairwise_singleton _ _
  | node i w l r => exact Tree.visit_prefixFree (.node i w l r)

/-- Settles O30: the table DERIVE_CODES writes is `codesOf`. -/
theorem derivedCodesArePrefixFree : Obligations.DerivedCodesArePrefixFree := by
  intro s t table htree ht hcode
  obtain ⟨tree, htree⟩ := Option.ne_none_iff_exists'.1 htree
  rw [exec_deriveCodes_of_ready htree, Host.Outcome.next.injEq] at ht
  subst ht
  obtain rfl : codesOf tree = table := Option.some.inj hcode
  exact codesOf_prefixFree tree

/-- DECODE's function on at most N_MAX bits succeeds or ends in TruncatedStream, since it decodes at most one symbol a bit (R232). -/
theorem decodeText_of_length_le {c : Config} (t : Tree) {b : Bits} (hb : b.length ≤ c.nMax) :
    (∃ x, decodeText c t b = .ok x) ∨ ∃ n, decodeText c t b = .error (.truncatedStream n) := by
  obtain ⟨y, -, hlen, ⟨-, -, h⟩ | ⟨-, hlong, -⟩ | ⟨-, h⟩⟩ := decodeText_spec c t b
  · exact .inl ⟨y, h⟩
  · omega
  · exact .inr ⟨y.length, h⟩

/-- Settles O31: the codes of an internal root are its paths, whose Kraft sum is `Tree.visit_kraft`. -/
theorem derivedCodesAreComplete : Obligations.DerivedCodesAreComplete := by
  intro s i w l r htree
  refine ⟨⟨_, _, exec_deriveCodes_of_ready htree, rfl, Tree.visit_kraft (.node i w l r)⟩, fun b hb hlen => ?_⟩
  rcases decodeText_of_length_le (.node i w l r) hlen with ⟨x, h⟩ | ⟨n, h⟩
  · exact ⟨_, exec_decode_of_ready htree hb h, .inl rfl⟩
  · exact ⟨_, exec_decode_of_ready htree hb h, .inr rfl⟩

/-! ### ENCODE and DECODE -/

/-- ENCODE of a text over the tree's symbols finds every symbol (R142, R233). -/
theorem encodeFrom_payload {t : Tree} {x : List Symbol} (hx : ∀ a ∈ x, a ∈ t.leafSymbols) :
    encodeFrom (codesOf t) 0 x = .ok (payload t x) :=
  encodeFrom_ok _ 0 x fun a ha => codeFor_isSome.2 (codesOf_syms t ▸ hx a ha)

/-- Settles O36: the three commands write the tree's codes, the text's bits under them, and what those bits decode to. -/
theorem decodeUndoesEncode : Obligations.DecodeUndoesEncode := by
  intro s t x htree htext hmem hlen
  refine ⟨_, _, _, exec_deriveCodes_of_ready htree, exec_encode_of_ready ?text rfl (encodeFrom_payload hmem),
    exec_decode_of_ready ?tree rfl (decodeText_payload hlen hmem), rfl, rfl, rfl, rfl⟩
  case text => exact htext
  case tree => exact htree

/-- ANALYZE of a text that is not empty writes its table (R111). -/
theorem exec_analyze_of_ready {s : State} {x : List Symbol} (htext : s.text = some x) (hx : x ≠ []) :
    exec .analyze s = .next { s with freq := some (frequencies x), status := 0#4, errinfo := 0 } := by
  rw [exec_analyze, State.analyze_ok htext hx]
  rfl

/-- Settles O54: the tree ANALYZE and BUILD_TREE make has the text's symbols, and the rest is `decodeUndoesEncode`. -/
theorem roundTripBySingleCommands : Obligations.RoundTripBySingleCommands := by
  intro s x htext hx hlen
  have hanalyze := exec_analyze_of_ready htext hx
  obtain ⟨t, ht, hbuild, -⟩ := exec_buildTree_ok
    (s := { s with freq := some (frequencies x), status := 0#4, errinfo := 0 }) rfl (frequencies_ne_nil hx)
  obtain ⟨s3, s4, s5, hderive, hencode, hdecode, h3, h4, h5, hdtext⟩ := decodeUndoesEncode
    { s with freq := some (frequencies x), tree := some t, treeKind := .built, status := 0#4, errinfo := 0 }
    t x rfl htext (fun a ha => (mem_leafSymbols_of_text ht a).2 ha) hlen
  exact ⟨_, _, s3, s4, s5, hanalyze, hbuild, hderive, hencode, hdecode, rfl, rfl, h3, h4, h5, hdtext⟩

/-! ### PACK and UNPACK -/

/-- Settles O40: UNPACK's function undoes PACK's (`unpackBits_packBits`). -/
theorem unpackUndoesPack : Obligations.UnpackUndoesPack := fun _ b hb =>
  ⟨_, _, exec_pack_of_ready hb, exec_unpack_of_ready rfl rfl (unpackBits_packBits b), rfl, rfl, rfl⟩

/-! ### SERIALIZE and DESERIALIZE -/

/-- DESERIALIZE's layout numbers the nodes in pre-order (R186). -/
theorem Tree.indices_recon (t : Tree) (i : Nat) : (t.recon i).indices = List.range' i t.size := by
  induction t generalizing i with
  | leaf => rfl
  | node j w l r hl hr =>
    rw [Tree.recon, Tree.indices, hl, hr, Tree.size_node, List.range'_append_1, Nat.add_assoc 1, Nat.add_comm 1, List.range'_succ]

/-- SERIALIZE with its sources and a padding count that has a serialized form writes the container's blob (R177). -/
theorem exec_serialize_of_ready {s : State} {k : Container} (htree : s.tree = some k.tree) (hcode : s.code = some k.codes)
    (hbytes : s.bytes = some k.bytes) (hpad : s.pad = some k.pad) (h7 : k.pad.toNat ≤ 7) :
    exec .serialize s = .next { s with blob := some (k.wire s.config), status := 0#4, errinfo := 0 } :=
  (exec_eq_run .serialize s).trans (congrArg _ (State.serialize_ok hbytes htree hcode hpad h7))

/-- Settles O46: a well-formed container is read back, its tree in DESERIALIZE's layout (`deserializeBlob_wire`). -/
theorem deserializeUndoesSerialize : Obligations.DeserializeUndoesSerialize := by
  intro s t table bytes p hwf htree hcode hbytes hpad h7
  have hread : deserializeBlob s.config (Container.wire s.config ⟨bytes, t, table, p⟩) = .ok ⟨bytes, t.recon 0, table, p⟩ :=
    deserializeBlob_wire (legal_of_wf hwf) (fitsBytes_of_wf hwf hbytes) (fitsTree_of_wf hwf htree) (fitsCode_of_wf hwf hcode) h7
  have hindices : (t.recon 0).indices = List.range (t.recon 0).size := by
    rw [t.indices_recon, Tree.recon_size, List.range_eq_range']
  exact ⟨_, _, t.recon 0, exec_serialize_of_ready (k := ⟨bytes, t, table, p⟩) htree hcode hbytes hpad h7,
    exec_deserialize_of_ready rfl hread, rfl, rfl, rfl, rfl, rfl, rfl, t.shape_recon 0, hindices, t.weightless_recon 0, rfl⟩

/-! ### A blob without its last byte -/

/-- What is read from a source first succeeds with the source's value (R249). -/
theorem ready_bind_eq_ok_iff {α β : Type} {b : BufId} {o : Option α} {g : α → Except Failure β} {v : β} :
    (ready b o >>= g) = .ok v ↔ ∃ a, o = some a ∧ g a = .ok v := by
  cases o with
  | none => exact ⟨fun h => (nomatch h), fun ⟨_, h, _⟩ => (nomatch h)⟩
  | some a => simp

/-- SERIALIZE's function succeeds with the container's blob alone, and only with a padding count of at most 7 (R177, R178). -/
theorem serializeContainer_eq_ok_iff {c : Config} {k : Container} {z : List Byte} :
    serializeContainer c k = .ok z ↔ k.pad.toNat ≤ 7 ∧ k.wire c = z := by
  unfold serializeContainer
  split
  · exact ⟨fun h => (nomatch h), fun ⟨h, _⟩ => by omega⟩
  · exact ⟨fun h => ⟨by omega, Except.ok.inj h⟩, fun ⟨_, h⟩ => congrArg _ h⟩

/-- A blob SERIALIZE wrote from a well-formed state is that of a container whose parts fit the wire format (R177, R6). -/
theorem exists_container_of_serialize {s t : State} {z : List Byte} (hwf : s.wf) (ht : exec .serialize s = .next t)
    (hstatus : t.status = 0#4) (hblob : t.blob = some z) : ∃ k : Container, k.Writable s.config ∧ z = k.wire s.config := by
  rw [exec_eq_run, State.run, State.serialize_eq_finish, Host.Outcome.next.injEq] at ht
  subst ht
  obtain ⟨z', hz⟩ := State.ok_of_finish_status hstatus
  rw [hz] at hblob
  obtain rfl : z' = z := Option.some.inj hblob
  simp only [ready_bind_eq_ok_iff, serializeContainer_eq_ok_iff] at hz
  obtain ⟨tree, htree, table, hcode, bytes, hbytes, p, -, h7, hwire⟩ := hz
  exact ⟨⟨bytes, tree, table, p⟩, writable_of_fits (legal_of_wf hwf) (fitsBytes_of_wf hwf hbytes) (fitsTree_of_wf hwf htree)
    (fitsCode_of_wf hwf hcode) h7, hwire.symm⟩

/-- A container's blob without its padding byte ends early (R183, R228). -/
theorem violation_dropLast_wire {c : Config} {k : Container} (hk : k.Writable c) :
    Violation c (k.wire c).dropLast (k.wire c).dropLast.length := by
  have hsplit : (k.wire c).dropLast ++ [k.pad] = k.wire c := by rw [Container.wire, List.dropLast_concat]
  exact .endsEarly k _ [k.pad] (List.cons_ne_nil _ _) (by rw [hsplit]; exact isBlobOf_wire c k hk)

/-- Settles O56: DESERIALIZE meets the blob's early end, and DECOMPRESS ends there. -/
theorem decompressRejectsATruncatedBlob : Obligations.DecompressRejectsATruncatedBlob := by
  intro s t z hwf ht hstatus hblob
  obtain ⟨k, hk, hz⟩ := exists_container_of_serialize hwf ht hstatus hblob
  have hconfig : s.config = t.config := by
    rw [exec_eq_run, Host.Outcome.next.injEq] at ht
    exact ht ▸ (run_config s .serialize).symm
  rw [hconfig] at hk hz
  subst hz
  have hcorrupt := (deserializeBlob_corrupt_iff t.config _ _).2 (violation_dropLast_wire hk)
  exact ⟨_, exec_of_run (State.decompress_deserialize_error t.config rfl hcorrupt), rfl, rfl, rfl⟩

/-! ### COMPRESS and DECOMPRESS -/

/-- The blob of a COMPRESS is within BLOB_MAX (R6, R177). -/
theorem fitsBlob_packed {c : Config} (hc : c.legal = true) {x : List Symbol} (hx : fitsText c x = true) {t : Tree}
    (ht : buildTreeOf (frequencies x) = .ok t) : fitsBlob c ((packed t x).wire c) = true := by
  obtain ⟨htree, -⟩ := fitsTree_buildTreeOf (fitsFreq_frequencies hc hx) ht
  have hcode : fitsCode c (codesOf t) = true := fitsCode_codesOf hc htree
  exact fitsBlob_wire (fitsBytes_packBits (fitsBits_encode hx hcode)) htree hcode

/-- DECOMPRESS restores the text in any block that has the compressing block's parameters and holds its blob (R214, R220). -/
theorem exec_decompress_of_compressed {c : Config} (hc : c.legal = true) {x : List Symbol} (hx : fitsText c x = true) {t : Tree}
    (ht : buildTreeOf (frequencies x) = .ok t) {u : State} (hconfig : u.config = c) (hu : u.blob = some ((packed t x).wire c)) :
    exec .decompress u = .next
      { unwrapped u { packed t x with tree := t.recon 0 } with bits := some (payload t x), dtext := some x } := by
  rw [exec_eq_run, State.run, hconfig, State.decompress_of_compressed hc hx ht hu]

/-- Settles O53: the blob is all that DECOMPRESS reads (`State.decompress_of_compressed`). -/
theorem roundTripForEveryLegalConfig : Obligations.RoundTripForEveryLegalConfig := by
  intro s u x hlegal hconfig htext hx hlen hsym
  have hfits : fitsText s.config x = true := fitsText_iff.2 ⟨hlen, hsym⟩
  obtain ⟨t, ht, hcompress⟩ := State.compress_ok s.config htext hx
  have hdecompress := exec_decompress_of_compressed hlegal hfits ht
    (u := { u with blob := some ((packed t x).wire s.config) }) hconfig rfl
  exact ⟨_, _, _, exec_of_run hcompress, rfl, compressed_blob s.config s x t, fitsBlob_iff.1 (fitsBlob_packed hlegal hfits ht),
    hdecompress, rfl, rfl, rfl⟩

/-! ### The length of the payload

The sum of count times code length is the payload's length when it is taken over the distinct symbols of the text, and the sum of the
internal weights when it is taken over the leaves of the tree, whose symbols and weights are those symbols and counts. -/

/-- A sum over a text is the sum over its distinct symbols, each as often as it stands in the text. -/
theorem sum_map_eq_sum_count (x : List Symbol) (g : Symbol → Nat) :
    (x.map g).sum = (x.eraseDups.map fun a => x.count a * g a).sum := by
  have hset : x.eraseDups.toFinset = x.toFinset := by ext; simp
  rw [Finset.sum_list_map_count, ← hset, List.sum_toFinset _ (eraseDups_nodup x)]
  rfl

/-- A symbol's code stands in the payload as often as the symbol stands in the text (R142). -/
theorem payload_length (t : Tree) (x : List Symbol) : (payload t x).length =
    (x.eraseDups.map fun a => x.count a * ((codeFor (codesOf t) a).getD []).length).sum := by
  rw [payload, List.length_flatMap, sum_map_eq_sum_count]

/-- The payload's length is the sum over ANALYZE's table of count times code length (R231). -/
theorem payload_length_eq_sum_frequencies (t : Tree) (x : List Symbol) : (payload t x).length =
    ((frequencies x).map fun e => e.cnt * ((codeFor (codesOf t) e.sym).getD []).length).sum := by
  rw [payload_length, frequencies_eq, List.map_map]
  rfl

/-- With distinct symbols every entry of a table is the one that is found (R143). -/
theorem codeFor_of_mem {table : List CodeEntry} (h : (table.map CodeEntry.sym).Nodup) {e : CodeEntry} (he : e ∈ table) :
    codeFor table e.sym = some e.code := by
  obtain ⟨c, hc⟩ := Option.isSome_iff_exists.1 (codeFor_isSome.2 (List.mem_map_of_mem he))
  have hsame : (⟨e.sym, c⟩ : CodeEntry) = e := List.inj_on_of_nodup_map h (codeFor_mem hc) he rfl
  rw [hc, ← hsame]

/-- The weighted path length: the sum over the leaves of weight times depth is the sum of the internal weights (R231); below a path
that does not start at the root each leaf has the bits of that path in addition. -/
theorem Tree.sum_visit (t : Tree) (weight : Symbol → Nat) (hw : t.weighted = true)
    (hleaf : ∀ p ∈ t.leaves, p.2.2 = weight p.2.1) (path : Bits) :
    ((t.visit path).map fun e => weight e.sym * e.code.length).sum = path.length * t.weight + t.internalWeight := by
  induction t generalizing path with
  | leaf i a w =>
    have hwa : w = weight a := hleaf (i, a, w) (List.mem_singleton_self _)
    simp [Tree.visit, Tree.internalWeight, hwa, Nat.mul_comm]
  | node i w l r hl hr =>
    simp only [Tree.weighted, Bool.and_eq_true, decide_eq_true_eq] at hw
    obtain ⟨⟨hsum, hwl⟩, hwr⟩ := hw
    have hleft := hl hwl (fun p hp => hleaf p (List.mem_append_left _ hp)) (path ++ [false])
    have hright := hr hwr (fun p hp => hleaf p (List.mem_append_right _ hp)) (path ++ [true])
    rw [Tree.visit, List.map_append, List.sum_append, hleft, hright, Tree.internalWeight, Tree.weight_node, hsum]
    simp only [List.length_append, List.length_singleton]
    ring

/-- A leaf of BUILD_TREE's tree is an entry of its table (R128 (b)). -/
theorem Forest.mem_table {f : List FreqEntry} {n : Nat} {t : Tree} (h : Forest f n [t]) {p : Nat × Symbol × Nat}
    (hp : p ∈ t.leaves) : (⟨p.2.1, p.2.2⟩ : FreqEntry) ∈ f := by
  have hperm : t.leaves.Perm ((List.range' 0 f.length).zip (f.map fun e => (e.sym, e.cnt))) := by
    simpa [leavesFrom_leaves] using h.leaves
  obtain ⟨-, hpair⟩ := List.of_mem_zip (a := p.1) (b := p.2) (hperm.mem_iff.1 hp)
  obtain ⟨e, he, hep⟩ := List.mem_map.1 hpair
  rw [← hep]
  exact he

/-- BUILD_TREE's tree of a text is weighted, and a leaf's weight is the number of its symbol's occurrences (R114 (c), R128). -/
theorem weighted_of_buildTreeOf {x : List Symbol} {t : Tree} (ht : buildTreeOf (frequencies x) = .ok t) :
    t.weighted = true ∧ ∀ p ∈ t.leaves, p.2.2 = x.count p.2.1 := by
  rcases buildTreeOf_spec (frequencies x) with ⟨-, e⟩ | ⟨-, t', e, -, -, -, hforest⟩ <;> rw [ht] at e <;> cases e
  exact ⟨hforest.weighted t List.mem_cons_self, fun p hp => (mem_frequencies (hforest.mem_table hp)).2⟩

/-- BUILD_TREE's tree of two entries or more has an internal root (R123). -/
theorem exists_node_of_buildTreeOf {f : List FreqEntry} {t : Tree} (ht : buildTreeOf f = .ok t) (hf : 2 ≤ f.length) :
    ∃ i w l r, t = .node i w l r := by
  cases t with
  | leaf i a w =>
    have hlen := (buildTreeOf_leafSymbols ht).length_eq
    simp only [Tree.leafSymbols, List.length_singleton, List.length_map] at hlen
    omega
  | node i w l r => exact ⟨i, w, l, r, rfl⟩

/-- The payload's length over the entries of the derived table, whose symbols are the text's, each once (R231). -/
theorem payload_length_eq_sum_codes {x : List Symbol} {t : Tree} (ht : buildTreeOf (frequencies x) = .ok t) :
    (payload t x).length = ((codesOf t).map fun e => x.count e.sym * e.code.length).sum := by
  have hperm : ((codesOf t).map CodeEntry.sym).Perm x.eraseDups := by
    rw [codesOf_syms, ← frequencies_syms]
    exact buildTreeOf_leafSymbols ht
  have hcode : (codesOf t).map (fun e => x.count e.sym * e.code.length) =
      ((codesOf t).map CodeEntry.sym).map fun a => x.count a * ((codeFor (codesOf t) a).getD []).length := by
    rw [List.map_map]
    refine List.map_congr_left fun e he => ?_
    simp [codeFor_of_mem (hperm.nodup_iff.2 (eraseDups_nodup x)) he]
  rw [payload_length, hcode, (hperm.map _).sum_eq]

/-- With two distinct symbols the payload is as long as the internal weights are together (R231). -/
theorem payload_length_eq_internalWeight {x : List Symbol} {t : Tree} (ht : buildTreeOf (frequencies x) = .ok t)
    (hf : 2 ≤ (frequencies x).length) : (payload t x).length = t.internalWeight := by
  obtain ⟨hweighted, hleaf⟩ := weighted_of_buildTreeOf ht
  have hsum := t.sum_visit (fun a => x.count a) hweighted hleaf []
  rw [List.length_nil, Nat.zero_mul, Nat.zero_add] at hsum
  obtain ⟨i, w, l, r, rfl⟩ := exists_node_of_buildTreeOf ht hf
  rw [payload_length_eq_sum_codes ht, codesOf_node, hsum]

/-- Settles O51: both sums for the payload of the tree that COMPRESS builds. -/
theorem payloadLengthIsWeightedPathLength : Obligations.PayloadLengthIsWeightedPathLength := by
  intro s x htext hx
  obtain ⟨t, ht, hcompress⟩ := State.compress_ok s.config htext hx
  exact ⟨_, _, _, t, payload t x, exec_of_run hcompress, rfl, rfl, rfl, rfl,
    payload_length_eq_sum_frequencies t x, payload_length_eq_internalWeight ht⟩

/-! ### A text of one symbol -/

/-- Settles O44: COMPRESS of "aaaa" in its closed form, and DECOMPRESS of it is a case of the round trip. -/
theorem singleSymbolInput : Obligations.SingleSymbolInput := by
  have hfreq : frequencies [97, 97, 97, 97] = [⟨97, 4⟩] := by decide
  have ht : buildTreeOf (frequencies [97, 97, 97, 97]) = .ok (.leaf 0 97 4) := by rw [hfreq]; rfl
  have hbits : payload (.leaf 0 97 4) [97, 97, 97, 97] = [false, false, false, false] := by decide
  have hbytes : packBits (payload (.leaf 0 97 4) [97, 97, 97, 97]) = [0x00] := by
    rw [hbits]
    decide
  have hcompress := State.compress_eq_compressed (s := { State.reset with text := some [97, 97, 97, 97] }) Config.huffcore rfl
    (by decide) ht
  have hdecompress := State.decompress_of_compressed (c := Config.huffcore) (by decide) (by decide) ht
    (compressed_blob Config.huffcore { State.reset with text := some [97, 97, 97, 97] } _ _)
  exact ⟨_, _, exec_of_run hcompress, exec_of_run hdecompress, congrArg some hfreq, rfl, rfl, congrArg some hbits,
    congrArg some hbytes, rfl, rfl, rfl, rfl⟩

end Sys2Proof.Machine

/-! # How a command ends: success, the failure kinds, an invalid source; the idle step and the reset

The statements O4, O6, O10, O16 and O18 (spec/60_exceptions.md R241, R249 to R252; spec/70_reset_and_hazards.md R261, R270).  A command
that is not composite has one of the two ends of `Ended`.  Which failure ends it is read off its result (`State.finish`): the result
looks at the sources in the order of their ids (`ReadsInOrder`), and past them fails in its own kinds alone (`FailsWith`). -/

namespace Sys2Proof.Machine

/-! ### A step without an action, and a step that resets -/

/-- Settles O6: an empty queue is the first of the two ways a step can go (`step_eq_next_iff`). -/
theorem stepIsIdleWithoutAction : Obligations.StepIsIdleWithoutAction := fun s hs =>
  (step_eq_next_iff s s).2 (.inl ⟨hs, rfl⟩)

/-- Settles O10: a reset is an action the host always has, and `State.resetBlock` is its effect. -/
theorem stepResetsTheBlock : Obligations.StepResetsTheBlock := fun _ _ hs => step_of_available hs rfl

/-! ### Success or failure -/

/-- A command that is neither composite nor CLEAR ends as R251 or R252 says. -/
theorem run_ends (s : State) {i : Instr} (hcompress : i ≠ .compress) (hdecompress : i ≠ .decompress) (hclear : i ≠ .clear) :
    Ended i s (s.run i) := by
  cases i
  case analyze => exact s.analyze_ends
  case buildTree => exact s.buildTree_ends
  case deriveCodes => exact s.deriveCodes_ends
  case encode => exact s.encode_ends
  case pack => exact s.pack_ends
  case serialize => exact s.serialize_ends _
  case deserialize => exact s.deserialize_ends _
  case unpack => exact s.unpack_ends
  case decode => exact s.decode_ends _
  case compress => exact absurd rfl hcompress
  case decompress => exact absurd rfl hdecompress
  case clear => exact absurd rfl hclear

/-- A failure takes the value of every destination (R251). -/
theorem State.isValid_fail (s : State) (f : Failure) {i : Instr} {b : BufId} (hb : b ∈ destinations i) :
    (s.fail i f).isValid b = false := isValid_invalidateAll s hb

/-- The tree registers read 0 after a failure of a command that writes TREE (R251, R35). -/
theorem State.treeRegisters_fail (s : State) (f : Failure) {i : Instr} (hi : BufId.tree ∈ destinations i) :
    (s.fail i f).root = 0 ∧ (s.fail i f).nodeCnt = 0 ∧ (s.fail i f).treeKind = .built := by
  simp [State.root, State.nodeCnt, State.fail, hi]

/-- Settles O16: CLEAR succeeds, and every other command that is not composite has one of the two ends of `Ended`. -/
theorem commandEndsInSuccessOrFailure : Obligations.CommandEndsInSuccessOrFailure := by
  intro i s hcompress hdecompress
  refine ⟨_, exec_eq_run i s, ?_⟩
  by_cases hclear : i = .clear
  · subst hclear
    exact .inl ⟨rfl, rfl, fun h => absurd rfl h⟩
  · rcases run_ends s hcompress hdecompress hclear with ⟨f, e⟩ | ⟨u, e, -, hvalid, -⟩ <;> rw [e]
    · exact .inr ⟨hclear, f.code_ne_zero, ⟨f, rfl, rfl⟩, fun b hb => s.isValid_fail f hb, s.treeRegisters_fail f⟩
    · exact .inl ⟨rfl, rfl, fun _ => hvalid⟩

/-! ### The lowest invalid source -/

/-- `b` is the invalid buffer of lowest id among `bs` (R249). -/
structure LowestInvalid (s : State) (bs : List BufId) (b : BufId) : Prop where
  mem : b ∈ bs
  invalid : s.isValid b = false
  lowest : ∀ b' ∈ bs, b'.id < b.id → s.isValid b' = true

/-- The result `r` is OperandNotReady with the lowest invalid buffer of `bs`, if one of them is invalid (R249). -/
def ReadsInOrder {α : Type} (s : State) (bs : List BufId) (r : Except Failure α) : Prop :=
  ∀ b, LowestInvalid s bs b → r = .error (.operandNotReady b)

section
variable {α β : Type} {s : State} {b : BufId} {bs : List BufId} {o : Option α}

theorem readsInOrder_nil (r : Except Failure α) : ReadsInOrder s [] r := fun _ h => absurd h.mem List.not_mem_nil

/-- Reading `b` before buffers of higher id. -/
theorem readsInOrder_ready_bind {g : α → Except Failure β} (ho : s.isValid b = o.isSome) (hid : ∀ b' ∈ bs, b.id < b'.id)
    (hg : ∀ v, ReadsInOrder s bs (g v)) : ReadsInOrder s (b :: bs) (ready b o >>= g) := by
  rintro d ⟨hmem, hinvalid, hlowest⟩
  cases o with
  | none =>
    rcases List.mem_cons.1 hmem with rfl | hd
    · rfl
    · exact absurd (hlowest b List.mem_cons_self (hid d hd)) (by simp [ho])
  | some v =>
    rcases List.mem_cons.1 hmem with rfl | hd
    · simp [ho] at hinvalid
    · exact hg v d ⟨hd, hinvalid, fun b' hb' => hlowest b' (List.mem_cons_of_mem b hb')⟩

theorem readsInOrder_ready (ho : s.isValid b = o.isSome) : ReadsInOrder s [b] (ready b o) := by
  rw [← bind_pure (ready b o)]
  exact readsInOrder_ready_bind ho (by simp) fun v => readsInOrder_nil _

theorem State.finish_of_lowestInvalid {i : Instr} {w : α → State} {r : Except Failure α} (hr : ReadsInOrder s (sources i) r)
    (hb : LowestInvalid s (sources i) b) : s.finish i w r = s.fail i (.operandNotReady b) := by
  rw [hr b hb]
  rfl

end

/-- Every command that is not composite looks at its sources first, lowest id first (R249). -/
theorem run_of_lowestInvalid {s : State} {i : Instr} {b : BufId} (hcompress : i ≠ .compress) (hdecompress : i ≠ .decompress)
    (hb : LowestInvalid s (sources i) b) : s.run i = s.fail i (.operandNotReady b) := by
  cases i <;> rw [State.run]
  case analyze =>
    rw [s.analyze_eq_finish]
    exact State.finish_of_lowestInvalid (readsInOrder_ready_bind rfl (by decide) fun _ => readsInOrder_nil _) hb
  case buildTree =>
    rw [s.buildTree_eq_finish]
    exact State.finish_of_lowestInvalid (readsInOrder_ready_bind rfl (by decide) fun _ => readsInOrder_nil _) hb
  case deriveCodes =>
    rw [s.deriveCodes_eq_finish]
    exact State.finish_of_lowestInvalid (readsInOrder_ready rfl) hb
  case encode =>
    rw [s.encode_eq_finish]
    exact State.finish_of_lowestInvalid (readsInOrder_ready_bind rfl (by decide) fun _ =>
      readsInOrder_ready_bind rfl (by decide) fun _ => readsInOrder_nil _) hb
  case pack =>
    rw [s.pack_eq_finish]
    exact State.finish_of_lowestInvalid (readsInOrder_ready rfl) hb
  case serialize =>
    rw [s.serialize_eq_finish]
    exact State.finish_of_lowestInvalid (readsInOrder_ready_bind rfl (by decide) fun _ =>
      readsInOrder_ready_bind rfl (by decide) fun _ => readsInOrder_ready_bind rfl (by decide) fun _ =>
      readsInOrder_ready_bind rfl (by decide) fun _ => readsInOrder_nil _) hb
  case deserialize =>
    rw [s.deserialize_eq_finish]
    exact State.finish_of_lowestInvalid (readsInOrder_ready_bind rfl (by decide) fun _ => readsInOrder_nil _) hb
  case unpack =>
    rw [s.unpack_eq_finish]
    exact State.finish_of_lowestInvalid (readsInOrder_ready_bind rfl (by decide) fun _ =>
      readsInOrder_ready_bind rfl (by decide) fun _ => readsInOrder_nil _) hb
  case decode =>
    rw [s.decode_eq_finish]
    exact State.finish_of_lowestInvalid (readsInOrder_ready_bind rfl (by decide) fun _ =>
      readsInOrder_ready_bind rfl (by decide) fun _ => readsInOrder_nil _) hb
  case compress => exact absurd rfl hcompress
  case decompress => exact absurd rfl hdecompress
  case clear => exact absurd hb.mem List.not_mem_nil

/-- Settles O18: a composite command fails in the first of its steps, which has its one source (R202, R205). -/
theorem operandNotReadyComesFirst : Obligations.OperandNotReadyComesFirst := by
  intro i s b hmem hinvalid hlowest
  refine ⟨_, exec_eq_run i s, ?_⟩
  by_cases hcompress : i = .compress
  · subst hcompress
    obtain rfl : b = .text := List.mem_singleton.1 hmem
    have htext : s.text = none := by simpa [State.isValid] using hinvalid
    exact State.compress_failed s.config (.inl ⟨htext, rfl⟩)
  by_cases hdecompress : i = .decompress
  · subst hdecompress
    obtain rfl : b = .blob := List.mem_singleton.1 hmem
    have hblob : s.blob = none := by simpa [State.isValid] using hinvalid
    rw [State.run, State.decompress_blob_none s.config hblob]
    exact ⟨rfl, rfl, fun d hd => isValid_invalidateAll s hd⟩
  rw [run_of_lowestInvalid hcompress hdecompress ⟨hmem, hinvalid, hlowest⟩]
  exact ⟨rfl, rfl, fun d hd => s.isValid_fail _ hd⟩

/-! ### The failure kinds of each command -/

/-- The STATUS codes a command can end with: 0, and those of the failure kinds that R241 says it raises. -/
def statusCodes : Instr → List Nat
  | .analyze => [0, 1, 8]
  | .buildTree => [0, 2, 8]
  | .deriveCodes => [0, 8]
  | .encode => [0, 3, 8]
  | .pack => [0, 8]
  | .serialize => [0, 5, 8]
  | .deserialize => [0, 6, 7, 8]
  | .unpack => [0, 5, 8]
  | .decode => [0, 4, 7, 8]
  | .compress => [0, 1, 8]
  | .decompress => [0, 4, 5, 6, 7, 8]
  | .clear => [0]

/-- The result is a value, or a failure with one of the codes `cs`. -/
def FailsWith {α : Type} (cs : List Nat) (r : Except Failure α) : Prop := ∀ f, r = .error f → f.code.toNat ∈ cs

section
variable {α β : Type} {cs : List Nat}

theorem failsWith_error {f : Failure} (hf : f.code.toNat ∈ cs) : FailsWith cs (.error f : Except Failure α) := by
  rintro g ⟨⟩
  exact hf

theorem failsWith_ok (v : α) : FailsWith cs (.ok v) := fun _ h => nomatch h

theorem failsWith_ready_bind {b : BufId} {o : Option α} {g : α → Except Failure β} (h8 : 8 ∈ cs)
    (hg : ∀ v, FailsWith cs (g v)) : FailsWith cs (ready b o >>= g) := by
  cases o with
  | none => exact failsWith_error h8
  | some v => exact hg v

theorem failsWith_ready {b : BufId} {o : Option α} (h8 : 8 ∈ cs) : FailsWith cs (ready b o) := by
  rw [← bind_pure (ready b o)]
  exact failsWith_ready_bind h8 failsWith_ok

/-- A command with such a result ends with a code of its own: STATUS 0 is one of every command's (R252). -/
theorem State.status_finish_mem {s : State} {i : Instr} {w : α → State} {r : Except Failure α}
    (hr : FailsWith (statusCodes i) r) : (s.finish i w r).status.toNat ∈ statusCodes i := by
  cases r with
  | error f => exact hr f rfl
  | ok v => cases i <;> exact List.mem_cons_self

end

theorem failsWith_analyzeText (t : List Symbol) : FailsWith (statusCodes .analyze) (analyzeText t) := by
  rcases analyzeText_spec t with ⟨-, e⟩ | ⟨-, e⟩ <;> rw [e]
  · exact failsWith_error (by decide)
  · exact failsWith_ok _

theorem failsWith_buildTreeOf (f : List FreqEntry) : FailsWith (statusCodes .buildTree) (buildTreeOf f) := by
  rcases buildTreeOf_spec f with ⟨-, e⟩ | ⟨-, t, e, -⟩ <;> rw [e]
  · exact failsWith_error (by decide)
  · exact failsWith_ok t

theorem failsWith_encodeFrom (table : List CodeEntry) (x : List Symbol) :
    FailsWith (statusCodes .encode) (encodeFrom table 0 x) := by
  rcases encodeFrom_spec table x with ⟨-, e⟩ | ⟨y, a, z, -, -, -, e⟩ <;> rw [e]
  · exact failsWith_ok _
  · exact failsWith_error (by simp [Failure.code, statusCodes])

theorem failsWith_serializeContainer (c : Config) (k : Container) :
    FailsWith (statusCodes .serialize) (serializeContainer c k) := by
  unfold serializeContainer
  split
  · exact failsWith_error (by simp [Failure.code, statusCodes])
  · exact failsWith_ok _

theorem failsWith_deserializeBlob (c : Config) (z : List Byte) : FailsWith (statusCodes .deserialize) (deserializeBlob c z) := by
  intro f h
  rcases code_of_deserializeBlob_error h with e | e <;> rw [e] <;> decide

theorem failsWith_unpackBits (bs : List Byte) (p : Byte) : FailsWith (statusCodes .unpack) (unpackBits bs p) := by
  rcases unpackBits_spec bs p with ⟨-, -, e⟩ | ⟨-, e⟩ <;> rw [e]
  · exact failsWith_ok _
  · exact failsWith_error (by simp [Failure.code, statusCodes])

theorem failsWith_decodeText (c : Config) (t : Tree) (b : Bits) : FailsWith (statusCodes .decode) (decodeText c t b) := by
  intro f h
  rcases code_of_decodeText_error h with e | e <;> rw [e] <;> decide

/-- COMPRESS fails in ANALYZE alone (R202). -/
theorem status_compress_mem (c : Config) (s : State) : (s.compress c).status.toNat ∈ statusCodes .compress := by
  match hs : s.text with
  | none =>
    obtain ⟨hstatus, -⟩ := State.compress_failed c (.inl ⟨hs, rfl⟩)
    rw [hstatus]
    decide
  | some [] =>
    obtain ⟨hstatus, -⟩ := State.compress_failed c (.inr ⟨hs, rfl⟩)
    rw [hstatus]
    decide
  | some (a :: x) =>
    obtain ⟨t, -, e⟩ := State.compress_ok c hs (List.cons_ne_nil a x)
    rw [e]
    exact List.mem_cons_self

/-- DECOMPRESS fails in one of its three commands (R205). -/
theorem status_decompress_mem (c : Config) (s : State) : (s.decompress c).status.toNat ∈ statusCodes .decompress := by
  rcases s.decompress_cases c with ⟨f, hf, e⟩ | ⟨k, -, -, -, e⟩ | ⟨k, b, f, hf, e⟩ | ⟨k, b, x, e⟩ <;> rw [e]
  · rcases hf with hf | hf | hf <;> simp [hf, statusCodes]
  · simp [statusCodes]
  · rcases hf with hf | hf <;> simp [hf, statusCodes]
  · exact List.mem_cons_self

/-- The raised-by column of R241. -/
theorem status_run_mem (s : State) (i : Instr) : (s.run i).status.toNat ∈ statusCodes i := by
  cases i <;> rw [State.run]
  case analyze =>
    rw [s.analyze_eq_finish]
    exact State.status_finish_mem (failsWith_ready_bind (by decide) failsWith_analyzeText)
  case buildTree =>
    rw [s.buildTree_eq_finish]
    exact State.status_finish_mem (failsWith_ready_bind (by decide) failsWith_buildTreeOf)
  case deriveCodes =>
    rw [s.deriveCodes_eq_finish]
    exact State.status_finish_mem (failsWith_ready (by decide))
  case encode =>
    rw [s.encode_eq_finish]
    exact State.status_finish_mem (failsWith_ready_bind (by decide) fun x =>
      failsWith_ready_bind (by decide) fun table => failsWith_encodeFrom table x)
  case pack =>
    rw [s.pack_eq_finish]
    exact State.status_finish_mem (failsWith_ready (by decide))
  case serialize =>
    rw [s.serialize_eq_finish]
    exact State.status_finish_mem (failsWith_ready_bind (by decide) fun t =>
      failsWith_ready_bind (by decide) fun table => failsWith_ready_bind (by decide) fun bs =>
      failsWith_ready_bind (by decide) fun p => failsWith_serializeContainer _ ⟨bs, t, table, p⟩)
  case deserialize =>
    rw [s.deserialize_eq_finish]
    exact State.status_finish_mem (failsWith_ready_bind (by decide) (failsWith_deserializeBlob _))
  case unpack =>
    rw [s.unpack_eq_finish]
    exact State.status_finish_mem (failsWith_ready_bind (by decide) fun bs =>
      failsWith_ready_bind (by decide) fun p => failsWith_unpackBits bs p)
  case decode =>
    rw [s.decode_eq_finish]
    exact State.status_finish_mem (failsWith_ready_bind (by decide) fun t =>
      failsWith_ready_bind (by decide) fun b => failsWith_decodeText _ t b)
  case compress => exact status_compress_mem _ s
  case decompress => exact status_decompress_mem _ s
  case clear => exact List.mem_singleton_self 0

/-- Settles O4: the code and info columns are the definitions, the raised-by column is `statusCodes` (`status_run_mem`). -/
theorem failureCodeTable : Obligations.FailureCodeTable := by
  refine ⟨⟨rfl, rfl⟩, ⟨rfl, rfl⟩, fun _ => ⟨rfl, rfl⟩, fun _ => ⟨rfl, rfl⟩, fun _ => ⟨rfl, rfl⟩, fun _ => ⟨rfl, rfl⟩,
    ⟨rfl, rfl⟩, fun _ => ⟨rfl, rfl⟩, fun _ => ⟨rfl, rfl⟩, ⟨rfl, rfl, rfl, rfl, rfl, rfl, rfl, rfl, rfl⟩, fun p hp => ?_⟩
  have hcodes : p.2 = statusCodes p.1 := by
    revert p
    decide
  intro s t ht
  rw [exec_eq_run, Host.Outcome.next.injEq] at ht
  rw [hcodes, ← ht]
  exact status_run_mem s p.1

end Sys2Proof.Machine
